-- ==== Sys2Proof/Word.lean ====
section
/-! DEFINITION. The words of the codec (00_scope.md R8, R9) and the two naming types of its operation word
(30_encoding.md R45, R47): command ids and op classes. -/

namespace Sys2Proof

/-- A byte, `u8` (R8). -/
abbrev Byte := BitVec 8

/-- A 16-bit word, `u16`: the operation word and the two 16-bit operands (10_state.md R19). -/
abbrev Half := BitVec 16

/-- A signed byte, `i8`: its value is `BitVec.toInt` (R9). -/
abbrev I8 := BitVec 8

/-- A floating-point pattern of FLOAT_FMT, held in the low bits of a 64-bit container; for binary32 the upper
32 bits of a pattern the block makes are zero and those of an operand are not read
[DESIGN CHOICE, assumption log 8: safe]. -/
abbrev FloatBits := BitVec 64

/-- The 8 payload bytes of a frame, frame offsets 4 to 11 (R6 `PAYLOAD_LEN`). -/
abbrev Payload := Vector Byte 8

/-- The 13 bytes of a frame (30_encoding.md R40). -/
abbrev Frame := Vector Byte 13

/-- The 13 commands of the command table, by the spec's suffixes (30_encoding.md R45). -/
inductive Command where
  | soc | cvr | tr | mos | status | cellv | cellt | bal | err | setdmos | setcmos | setsoc | reset
deriving DecidableEq, Repr

/-- The eight op classes (30_encoding.md R47). -/
inductive OpClass where
  | req | dec | rsz | build | cksum | vlen | vcks | parse
deriving DecidableEq, Repr

end Sys2Proof
end

