-- ==== Sys2Proof/Config.lean ====
section
/-! DEFINITION. The implementation parameters of 00_scope.md R6: the constants the source fixes, the types of the
parameters a model takes as arguments, and the values the spec leaves OPEN, as constants with no body. -/

namespace Sys2Proof

/-- FLOAT_FMT (R6, R11; 92_eei_decisions.md D13): the IEEE 754 format of decoded values and of the SetSoc percent. -/
inductive FloatFmt where
  | binary32 | binary64
deriving DecidableEq, Repr

/-- TEMP_NARROW (R6; 42_decoders.md R98): what a temperature byte of 168 or more does. -/
inductive TempNarrow where
  | wrap | fault
deriving DecidableEq, Repr

/-- BOOL_BYTE_OTHER (R6; 42_decoders.md R99): what a byte boolean of 2 or more does. -/
inductive BoolByteOther where
  | true | fault
deriving DecidableEq, Repr

/-- One entry of ERROR_TABLE (44_error_code.md R121): the frame offset is `4 + byteIndex`, so it lies in 4 to 10,
and the bit position in 0 to 7. -/
structure ErrorEntry where
  byteIndex : Fin 7
  bit       : Fin 8
  name      : String
deriving DecidableEq, Repr

/-- The parameters a model takes as arguments (R6). `rxCapExtra` is by how many bytes RX_CAP exceeds 1105. -/
structure Params where
  floatFmt      : FloatFmt
  tempNarrow    : TempNarrow
  boolByteOther : BoolByteOther
  errorTable    : List ErrorEntry
  rxCapExtra    : Nat
deriving DecidableEq, Repr

/-- RX_CAP: "at least 1105" (R6, R7), so it is held as what it exceeds 1105 by. -/
def Params.rxCap (p : Params) : Nat := 1105 + p.rxCapExtra

namespace Config

/-- `FRAME_LEN` (R6, source). -/
def frameLen : Nat := 13
/-- `START_BYTE` (R6, source). -/
def startByte : Byte := 0xA5
/-- `HOST_ADDR` (R6, source). -/
def hostAddr : Byte := 0x40
/-- `DATA_LEN_BYTE` (R6, source). -/
def dataLenByte : Byte := 0x08
/-- `VOLT_PER_FRAME` (R6, source). -/
def voltPerFrame : Nat := 3
/-- `TEMP_PER_FRAME` (R6, source). -/
def tempPerFrame : Nat := 7
/-- `MAX_BALANCE_CELLS` (R6, source). -/
def maxBalanceCells : Nat := 48
/-- `N_ERROR_FLAGS` (R6, source). -/
def nErrorFlags : Nat := 44

/-- OPEN (R121; 92_eei_decisions.md D19): which of the 56 bit positions of bytes 4 to 10 the table's entries name,
and in which order. Position `p` is bit `p % 8` of byte `4 + p / 8`; the table's k-th entry is position
`errorPosition k`, for k below 44. Every choice of 44 distinct positions in an order is some permutation's
[free value, assumption log 6: safe]. -/
opaque errorPosition : Equiv.Perm (Fin 56)

/-- OPEN (R121, D19): the 44 names. Entry k's name is `errorLabel` of the text of k. Every choice of 44 distinct
names is some permutation's [free value, assumption log 6: safe]. -/
opaque errorLabel : Equiv.Perm String

/-- OPEN (R6, R7; D31): by how many bytes RX_CAP exceeds its lower bound 1105 [free value, assumption log 7: safe]. -/
opaque rxCapExtra : Nat

/-- Entry `k` of the open table. -/
def errorEntry (k : Fin 44) : ErrorEntry :=
  let p := errorPosition ⟨k.val, by omega⟩
  { byteIndex := ⟨p.val / 8, by omega⟩, bit := ⟨p.val % 8, by omega⟩, name := errorLabel (toString k.val) }

/-- ERROR_TABLE of the model's instance: 44 entries at distinct positions with distinct names, otherwise open (R121). -/
def errorTable : List ErrorEntry := (List.finRange 44).map errorEntry

/-- The parameters of the model's instance: the spec's defaults where it states one (D6, D12, D13;
[DESIGN CHOICE, assumption logs 8, 9, 10: unsafe]), the open values above where it states none. -/
def params : Params where
  floatFmt := .binary32
  tempNarrow := .wrap
  boolByteOther := .true
  errorTable := errorTable
  rxCapExtra := rxCapExtra

end Config
end Sys2Proof
end

