-- ==== Sys2Proof/Machine/State.lean ====
section
/-! DEFINITION. The machine's state: the operation port, the result port, the parameters, what comes next at the
ports, and the host's own data (10_state.md R13 to R25). The block keeps nothing from one operation to the next (R13), so there are no registers,
no program counter, no flags and no memory (R14 to R17, 20_memory.md R26). -/

namespace Sys2Proof.Machine

/-! ### The operation port -/

/-- The operand record of one operation (10_state.md R19). -/
structure OperandRecord where
  /-- operation word: op class in bits 15..8, command id in bits 7..0 -/
  cw       : Half
  count    : Byte
  flag     : Bool
  percent  : FloatBits
  payload  : Payload
  required : Half
  base     : Half
  /-- the received bytes; their number is the spec's `L` -/
  rx       : List Byte
deriving DecidableEq, Repr

/-- The operand record with every field zero or empty ("operands it does not name are zero", 30_encoding.md R53). -/
def OperandRecord.zero : OperandRecord where
  cw := 0
  count := 0
  flag := false
  percent := 0
  payload := #v[0, 0, 0, 0, 0, 0, 0, 0]
  required := 0
  base := 0
  rx := []

/-- The operands an operation can read beside `cw` (30_encoding.md R48). VLEN reads the length of `rx` only. -/
inductive OperandField where
  | count | flag | percent | payload | required | base | rx | rxLength
deriving DecidableEq, Repr

/-! ### Decoded values (10_state.md R22) -/

/-- `Soc`: total voltage (V), current (A; negative is charging), state of charge (%). -/
structure Soc where
  totalVoltage : FloatBits
  current      : FloatBits
  socPercent   : FloatBits
deriving DecidableEq, Repr

/-- `CellVoltageRange`. -/
structure CellVoltageRange where
  highestVoltage : FloatBits
  highestCell    : Byte
  lowestVoltage  : FloatBits
  lowestCell     : Byte
deriving DecidableEq, Repr

/-- `TemperatureRange`. -/
structure TemperatureRange where
  highestTemperature : I8
  highestSensor      : Byte
  lowestTemperature  : I8
  lowestSensor       : Byte
deriving DecidableEq, Repr

/-- The mode of a `MosfetStatus`. -/
inductive MosfetMode where
  | stationary | charging | discharging
deriving DecidableEq, Repr

/-- `MosfetStatus`. -/
structure MosfetStatus where
  mode              : MosfetMode
  chargingMosfet    : Bool
  dischargingMosfet : Bool
  bmsCycles         : Byte
  capacityAh        : FloatBits
deriving DecidableEq, Repr

/-- `IoState`: eight named booleans. -/
structure IoState where
  di1 : Bool
  di2 : Bool
  di3 : Bool
  di4 : Bool
  do1 : Bool
  do2 : Bool
  do3 : Bool
  do4 : Bool
deriving DecidableEq, Repr

/-- The `Status` value of the BMS. -/
structure BmsStatus where
  cells              : Byte
  temperatureSensors : Byte
  chargerRunning     : Bool
  loadRunning        : Bool
  ioState            : IoState
  cycles             : Half
deriving DecidableEq, Repr

/-- A decoded value, or `Ack` (10_state.md R22). -/
inductive Decoded where
  | soc (v : Soc)
  | cellVoltageRange (v : CellVoltageRange)
  | temperatureRange (v : TemperatureRange)
  | mosfetStatus (v : MosfetStatus)
  | status (v : BmsStatus)
  | cellVoltages (v : List FloatBits)
  | cellTemperatures (v : List I8)
  | balancingState (v : List Bool)
  | errorCode (v : List String)
  | ack
deriving DecidableEq, Repr

/-- The parsed-frame record of PARSE (40_frame_checksum.md R59). -/
structure Fields where
  start      : Byte
  address    : Byte
  command    : Byte
  dataLen    : Byte
  payload    : Payload
  checksum   : Byte
  computed   : Byte
  checksumOk : Bool
deriving DecidableEq, Repr

/-! ### The result port -/

/-- The eight statuses (60_exceptions.md R124). -/
inductive StatusCode where
  | ok
  | replySizeError | checksumError | frameNoError
  | illegalOperation | countOutOfRange | fieldOutOfRange | emptyBuffer
deriving DecidableEq, Repr

/-- The information record of each status that is not OK (60_exceptions.md R125). -/
inductive Info where
  | replySize (required actual : Nat)
  | checksum (frame computed received : Byte)
  | frameNo (frame received : Byte)
  | illegalOperation (cw : Half)
  | countOutOfRange (count max : Byte)
  | fieldOutOfRange (offset byte : Byte)
  | emptyBuffer
deriving DecidableEq, Repr

/-- The fields of a result record (10_state.md R21). -/
inductive ResultField where
  | status | info | tx | size | sum | fields | value
deriving DecidableEq, Repr

/-- The result record (10_state.md R21). A field that is `none` is absent: "a field not written by an operation
holds no value". -/
structure ResultRecord where
  status : Option StatusCode
  info   : Option Info
  tx     : Option Frame
  size   : Option Nat
  sum    : Option Byte
  fields : Option Fields
  value  : Option Decoded
deriving DecidableEq, Repr

/-- The result record with every field absent (10_state.md R25). -/
def ResultRecord.absent : ResultRecord where
  status := none
  info := none
  tx := none
  size := none
  sum := none
  fields := none
  value := none

/-! ### The host -/

/-- The counts of a Status value the host keeps (10_state.md R18). -/
structure StatusCounts where
  cells              : Byte
  temperatureSensors : Byte
deriving DecidableEq, Repr

/-- A move of the host that keeps the contract (70_reset_and_hazards.md R141). There is no move that its "must" column
forbids: presenting is admitted only where the duties hold (Machine/HostContract.lean), a request is delivered as it
stands on the result port, and received bytes are kept in order [assumption logs 22, 27, 28, 29]. -/
inductive HostMove where
  /-- present an operation (rows "build a request", "learn a reply's size", "decode a reply") -/
  | present (r : OperandRecord)
  /-- present an operation that a reset cuts (R138) -/
  | presentCut (r : OperandRecord)
  /-- drain stale bytes, then deliver `tx` to the device unchanged, as one 13-byte write (rows 1 and 5) -/
  | deliver
  /-- buffer bytes that the transport hands over (row 5); which bytes come is not the host's choice -/
  | receive (bytes : List Byte)
deriving DecidableEq, Repr

/-- What happens next at the block's ports (10_state.md R15, R21; 70_reset_and_hazards.md R138): a move of the host that
keeps the contract, or an event with nothing said of who causes it. The block "accepts any `count`" (R140) and its result
is defined on every record (R142, R143; 93_implementation_defined.md ID18), so an operation presented by nobody in
particular may carry any record. -/
inductive PortMove where
  /-- an operation is presented, which the block completes in this step -/
  | present (r : OperandRecord)
  /-- an operation is presented and reset is asserted while it is in progress (R138) -/
  | presentCut (r : OperandRecord)
  /-- one field of the result port is read (R21) -/
  | readResult (f : ResultField)
  /-- reset is asserted with no operation in progress (R138) -/
  | assertReset
  /-- the host that keeps the contract moves (R141) -/
  | host (m : HostMove)
deriving DecidableEq, Repr

/-- The host's own data, "never in the block's" (10_state.md R18): the cached Status counts, and what its duties speak of
(70_reset_and_hazards.md R141) [DEDUCED, assumption logs 28, 29: safe]. -/
structure HostState where
  cache    : Option StatusCounts
  /-- the command whose reply is awaited: that of the request delivered last -/
  awaiting : Option Command
  /-- the bytes received since that request was delivered, in the order received -/
  received : List Byte
  /-- the writes to the device, oldest first -/
  sent     : List Frame
deriving DecidableEq, Repr

/-- The host at its start: "no cached counts" (10_state.md R25), nothing sent, nothing received
[DESIGN CHOICE, assumption log 29: safe]. -/
def HostState.start : HostState where
  cache := none
  awaiting := none
  received := []
  sent := []

/-- The machine: parameters (never written, 10_state.md R17), operation port, result port, what comes next at the ports,
oldest first (the model's own field, R15 [DESIGN CHOICE, assumption log 1: safe]), and the host. -/
structure State where
  params : Params
  op     : OperandRecord
  result : ResultRecord
  moves  : List PortMove
  host   : HostState
deriving DecidableEq, Repr

/-- What stops the machine. -/
inductive Fault where
  /-- a read of `rx` at or beyond its length; raised by the byte reads of Machine/Ops.lean. The spec says it never
  happens in an admitted operation and that a model reaching one faults (20_memory.md R27): safe. -/
  | rxOutOfRange
  /-- a field of the result port that holds no value is read, by a read of the port or by the host's delivery of `tx`;
  raised by portRead and hostDeliver (10_state.md R21, R25): safe. -/
  | absentField (f : ResultField)
deriving DecidableEq, Repr

/-- What the model gives no meaning. -/
inductive Refusal where
  /-- an instruction with no meaning yet; raised by exec's arms: safe. -/
  | notModelled (mnemonic : String)
  /-- an operand record whose `rx` is longer than RX_CAP; raised by step. "No such operation exists in the model"
  (92_eei_decisions.md D31, 93_implementation_defined.md ID17): safe. -/
  | rxOverCap
  /-- the host that keeps the contract would present a record its duties forbid; raised by step. A model "gives it no move
  the must column forbids" (70_reset_and_hazards.md R141), so the model has no such run: safe. The same record presented
  as PortMove.present is no such move, and runs. -/
  | hostContract
deriving DecidableEq, Repr

/-- How an operation ends without a value: with an error the block reports in its result record
(60_exceptions.md R128), or with a fault of the machine. -/
inductive Stop where
  | raised (e : Info)
  | faulted (f : Fault)
deriving DecidableEq, Repr

/-- The outcome of evaluating part of an operation: a value, or the way it ends. -/
abbrev Eval (α : Type) := Except Stop α

/-- The machine after reset (10_state.md R25, 70_reset_and_hazards.md R138): the result port absent, no cached
counts, nothing to come; the operation port, which the spec gives no reset value, zero and empty
[DESIGN CHOICE, assumption log 2: unsafe]. -/
def State.reset : State where
  params := Config.params
  op := .zero
  result := .absent
  moves := []
  host := .start

end Sys2Proof.Machine
end

