-- ==== Sys2Proof/Machine/Flags.lean ====
section
/-! DEFINITION. Status codes. The block has no flags or condition codes (10_state.md R16); the status an operation
reports is a field of its result record, and this file says which statuses there are (60_exceptions.md R124, R126). -/

namespace Sys2Proof.Machine

/-- The numeric code of a status (60_exceptions.md R124). -/
def StatusCode.code : StatusCode → Byte
  | .ok => 0x00
  | .replySizeError => 0x01
  | .checksumError => 0x02
  | .frameNoError => 0x03
  | .illegalOperation => 0x10
  | .countOutOfRange => 0x11
  | .fieldOutOfRange => 0x12
  | .emptyBuffer => 0x13

/-- The status each information record comes with (60_exceptions.md R125). -/
def Info.status : Info → StatusCode
  | .replySize _ _ => .replySizeError
  | .checksum _ _ _ => .checksumError
  | .frameNo _ _ => .frameNoError
  | .illegalOperation _ => .illegalOperation
  | .countOutOfRange _ _ => .countOutOfRange
  | .fieldOutOfRange _ _ => .fieldOutOfRange
  | .emptyBuffer => .emptyBuffer

/-- The four spec faults: statuses for operands "for which the document gives the block no meaning"
(60_exceptions.md R126). -/
def StatusCode.isSpecFault : StatusCode → Bool
  | .illegalOperation | .countOutOfRange | .fieldOutOfRange | .emptyBuffer => true
  | .ok | .replySizeError | .checksumError | .frameNoError => false

/-- The three errors of the document, "ordinary outcomes of the block" (60_exceptions.md R126). -/
def StatusCode.isDocumentError : StatusCode → Bool
  | .replySizeError | .checksumError | .frameNoError => true
  | .ok | .illegalOperation | .countOutOfRange | .fieldOutOfRange | .emptyBuffer => false

end Sys2Proof.Machine
end

