-- ==== Sys2Proof/Syntax.lean ====
section
/-! DEFINITION. The 44 operations, one constructor per row of opcode_table.json (30_encoding.md R47). The operation
word holds no operand but BUILD's command byte; the other operands stand in the operand record (10_state.md R19). -/

namespace Sys2Proof

/-- The operations of the block (30_encoding.md R47): 13 request encoders, 13 response decoders, 13 reply sizes and
the five utility operations. -/
inductive Instr where
  | reqSoc | reqCvr | reqTr | reqMos | reqStatus | reqCellv | reqCellt | reqBal | reqErr
  | reqSetdmos | reqSetcmos | reqSetsoc | reqReset
  | decSoc | decCvr | decTr | decMos | decStatus | decCellv | decCellt | decBal | decErr
  | decSetdmos | decSetcmos | decSetsoc | decReset
  | rszSoc | rszCvr | rszTr | rszMos | rszStatus | rszCellv | rszCellt | rszBal | rszErr
  | rszSetdmos | rszSetcmos | rszSetsoc | rszReset
  /-- `cmd` is the low byte of the operation word: the command id byte of the frame (40_frame_checksum.md R60). -/
  | build (cmd : Byte)
  | cksum | vlen | vcks | parse
deriving DecidableEq, Repr

end Sys2Proof
end

