-- ==== Sys2Proof/WellFormed.lean ====
section
/-! DEFINITION. Well-formed parameters, operand records and instructions (00_scope.md R6, 10_state.md R19,
44_error_code.md R121, 30_encoding.md R50). -/

namespace Sys2Proof

/-- The constraints of 44_error_code.md R121 the type of an entry does not already carry: 44 entries, no two with the
same position, no two with the same name. -/
def errorTableWellFormed (t : List ErrorEntry) : Bool :=
  t.length == Config.nErrorFlags
    && decide (t.map fun e => (e.byteIndex, e.bit)).Nodup
    && decide (t.map fun e => e.name).Nodup

/-- The parameters of R6: a table as R121 asks. (`RX_CAP >= 1105` holds of every value of the type.) -/
def Params.wellFormed (p : Params) : Bool := errorTableWellFormed p.errorTable

/-- An operand record's received bytes fit RX_CAP: `0 <= L <= RX_CAP` (10_state.md R19), written with
the bound 1105 taken off both sides. The other fields carry their bounds in their types. -/
def Machine.OperandRecord.wellFormed (p : Params) (r : Machine.OperandRecord) : Bool :=
  decide (r.rx.length - 1105 ≤ p.rxCapExtra)

/-- Every term of `Instr` is an operation: the only operand in the word is BUILD's command byte, and "every `cmd` byte
is legal" (30_encoding.md R50 (4)). -/
def Instr.wellFormed (_ : Instr) : Bool := true

end Sys2Proof
end

