-- ==== Sys2Proof/Machine/Ops.lean ====
section
/-! DEFINITION. The shared operations: reads of the received bytes (00_scope.md R10, 20_memory.md R26 to R31), how an
operation ends (10_state.md R21, 60_exceptions.md R128), and the ports' side of a step. -/

namespace Sys2Proof.Machine

/-! ### Reading received bytes -/

/-- `raise E(info)` ends the operation (00_scope.md R10). -/
def raise {α : Type} (e : Info) : Eval α := .error (.raised e)

/-- `rx[i]`, "defined for `0 <= i < L`" (00_scope.md R10); beyond it "it must fault, never return a byte"
(20_memory.md R27). -/
def readByte (rx : List Byte) (i : Nat) : Eval Byte :=
  match rx[i]? with
  | some b => .ok b
  | none => .error (.faulted .rxOutOfRange)

/-- `rx[a .. a+n)` (00_scope.md R12), under the same guard. -/
def readRange (rx : List Byte) (a n : Nat) : Eval (List Byte) :=
  if a + n ≤ rx.length then .ok ((rx.drop a).take n) else .error (.faulted .rxOutOfRange)

/-- The unsigned big-endian value of a byte sequence (00_scope.md R10, 20_memory.md R30). -/
def bigEndian (bs : List Byte) : Nat := bs.foldl (fun acc b => acc * 256 + b.toNat) 0

/-- `MemRead(a, n)` (00_scope.md R10). -/
def memRead (rx : List Byte) (a n : Nat) : Eval Nat := (readRange rx a n).map bigEndian

/-- `be16(a)` (00_scope.md R10). -/
def be16 (rx : List Byte) (a : Nat) : Eval Nat := memRead rx a 2

/-- `be32(a)` (00_scope.md R10). -/
def be32 (rx : List Byte) (a : Nat) : Eval Nat := memRead rx a 4

/-- The byte `MemWrite(a, n, v)` puts at offset `a + k`: `(v >> (8*(n-1-k))) & 0xFF` (00_scope.md R10). -/
def bigEndianByte (n v k : Nat) : Byte := BitVec.ofNat 8 (v >>> (8 * (n - 1 - k)))

/-- `bit(b, p)`: `((b >> p) & 1) != 0` (00_scope.md R8, R10; 20_memory.md R31). -/
def bitOf (b : Byte) (p : Nat) : Bool := ((b >>> p) &&& 1#8) != 0#8

/-! ### How an operation ends -/

/-- Status `OK` and no other field (10_state.md R21: VLEN and VCKS). -/
def ResultRecord.done : ResultRecord := { ResultRecord.absent with status := some .ok }

/-- Status `OK` and `tx`. -/
def ResultRecord.okTx (t : Frame) : ResultRecord := { ResultRecord.done with tx := some t }

/-- Status `OK` and `size`. -/
def ResultRecord.okSize (n : Nat) : ResultRecord := { ResultRecord.done with size := some n }

/-- Status `OK` and `sum`. -/
def ResultRecord.okSum (b : Byte) : ResultRecord := { ResultRecord.done with sum := some b }

/-- Status `OK` and `fields`. -/
def ResultRecord.okFields (f : Fields) : ResultRecord := { ResultRecord.done with fields := some f }

/-- Status `OK` and `value`. -/
def ResultRecord.okValue (v : Decoded) : ResultRecord := { ResultRecord.done with value := some v }

/-- A failed operation's record: "`status` and `info` ... and nothing else" (60_exceptions.md R128). -/
def ResultRecord.failed (e : Info) : ResultRecord :=
  { ResultRecord.absent with status := some e.status, info := some e }

/-- The result port takes a whole new record; everything else stays (10_state.md R20, R21). -/
def State.setResult (s : State) (r : ResultRecord) : State := { s with result := r }

/-- Taking an error or a spec fault: the record of a failed operation is written. "It saves no state, changes no mode
and transfers control nowhere" (60_exceptions.md R128). There is no return from it: "after a failed operation the
block accepts the next operation exactly as after a successful one" (R129), so spec faults are next states too
[DEDUCED, assumption log 4: unsafe for a claim that rests on the particular status]. -/
def takeError (s : State) (e : Info) : State := s.setResult (.failed e)

/-- An operation completes: with the record made from its value, with an error, or, where the machine itself stops,
with the fault. -/
def conclude {α : Type} (s : State) (mk : α → ResultRecord) : Eval α → Host.Outcome State Fault Refusal
  | .ok v => .next (s.setResult (mk v))
  | .error (.raised e) => .next (takeError s e)
  | .error (.faulted f) => .fault f

/-- A word that is no operation ends with `IllegalOperation`; it "writes no field but `status` and `info`, and reads no
operand but `cw`" (30_encoding.md R50). -/
def illegalOperation (s : State) : State := takeError s (.illegalOperation s.op.cw)

/-! ### The ports' side of a step -/

/-- A field of the record holds a value (10_state.md R21). -/
def ResultRecord.has (r : ResultRecord) : ResultField → Bool
  | .status => r.status.isSome
  | .info => r.info.isSome
  | .tx => r.tx.isSome
  | .size => r.size.isSome
  | .sum => r.sum.isSome
  | .fields => r.fields.isSome
  | .value => r.value.isSome

/-- What comes next at the ports becomes `rest`. -/
def State.setMoves (s : State) (rest : List PortMove) : State := { s with moves := rest }

/-- The operand record is taken from the operation port whole, as a snapshot (10_state.md R20), and `rest` comes next. -/
def State.latch (s : State) (r : OperandRecord) (rest : List PortMove) : State := { s.setMoves rest with op := r }

/-- The operand record is one the port can carry: `L <= RX_CAP` (10_state.md R19). -/
def State.admits (s : State) (r : OperandRecord) : Bool := r.wellFormed s.params

/-- The counts of a result that is a Status value. -/
def statusCounts (r : ResultRecord) : Option StatusCounts :=
  match r.value with
  | some (.status v) => some { cells := v.cells, temperatureSensors := v.temperatureSensors }
  | _ => none

/-- The host keeps the counts of the latest successful DEC.STATUS (10_state.md R18, 70_reset_and_hazards.md R141). -/
def hostObserve (s : State) : State :=
  { s with host := { s.host with cache := (statusCounts s.result).or s.host.cache } }

/-- An operation's next state, after the host has looked at its result. -/
def observed : Host.Outcome State Fault Refusal → Host.Outcome State Fault Refusal
  | .next s => .next (hostObserve s)
  | .fault f => .fault f
  | .refused r => .refused r

/-- A field of the result port is read: "a reader of an absent field faults" (10_state.md R21, R25). -/
def portRead (s : State) (f : ResultField) : Host.Outcome State Fault Refusal :=
  if s.result.has f then .next s else .fault (.absentField f)

/-- Reset: the result port is absent again; the block has nothing else to clear (10_state.md R25,
70_reset_and_hazards.md R138). The operation port and the cache are the host's, the parameters are "not changed by
reset" [the operation port staying as it is: DESIGN CHOICE, assumption log 21: safe]. -/
def resetBlock (s : State) : State := s.setResult .absent

/-- What comes next becomes presenting the operands now on the port under the operation word `cw`. -/
def State.presenting (s : State) (cw : Half) : State :=
  s.setMoves (.present { s.op with cw := cw } :: s.moves)

end Sys2Proof.Machine
end

