-- ==== Sys2Proof/Decode.lean ====
section
/-! DEFINITION. The operation word (30_encoding.md R45 to R47, R50): decoder, total on every 16-bit word, rejecting by
name; then the encoder, from the same tables. -/

namespace Sys2Proof

/-- Why a word is no operation (30_encoding.md R50). -/
inductive Reject where
  /-- R50 (1): the op class is not one of the eight codes -/
  | reservedClass
  /-- R50 (2): REQ, DEC or RSZ with a byte that is not one of the 13 command ids -/
  | unknownCommand
  /-- R50 (3): CKSUM, VLEN, VCKS or PARSE with a low byte that is not 0x00 -/
  | nonzeroLowByte
deriving DecidableEq, Repr

/-- The command id of each command (30_encoding.md R45). -/
def Command.id : Command → Byte
  | .soc => 0x90
  | .cvr => 0x91
  | .tr => 0x92
  | .mos => 0x93
  | .status => 0x94
  | .cellv => 0x95
  | .cellt => 0x96
  | .bal => 0x97
  | .err => 0x98
  | .setdmos => 0xD9
  | .setcmos => 0xDA
  | .setsoc => 0x21
  | .reset => 0x00

/-- The rows of the command table, in its order (30_encoding.md R45). -/
def commandTable : List Command :=
  [.soc, .cvr, .tr, .mos, .status, .cellv, .cellt, .bal, .err, .setdmos, .setcmos, .setsoc, .reset]

/-- The command of an id byte; "every other byte value is not a command id of the block" (R45). -/
def commandOfId (b : Byte) : Option Command := commandTable.find? fun c => c.id == b

/-- The code of each op class (30_encoding.md R47). -/
def OpClass.code : OpClass → Byte
  | .req => 0x01
  | .dec => 0x02
  | .rsz => 0x03
  | .build => 0x10
  | .cksum => 0x11
  | .vlen => 0x12
  | .vcks => 0x13
  | .parse => 0x14

/-- The eight op classes (30_encoding.md R47). -/
def opClassTable : List OpClass := [.req, .dec, .rsz, .build, .cksum, .vlen, .vcks, .parse]

/-- The op class of a code (R47). -/
def opClassOfCode (b : Byte) : Option OpClass := opClassTable.find? fun k => k.code == b

/-- `cw[15:8]` (30_encoding.md R46). -/
def opcOf (cw : Half) : Byte := cw.extractLsb' 8 8

/-- `cw[7:0]` (30_encoding.md R46). -/
def cmdOf (cw : Half) : Byte := cw.extractLsb' 0 8

/-- `REQ.<c>`. -/
def reqInstr : Command → Instr
  | .soc => .reqSoc
  | .cvr => .reqCvr
  | .tr => .reqTr
  | .mos => .reqMos
  | .status => .reqStatus
  | .cellv => .reqCellv
  | .cellt => .reqCellt
  | .bal => .reqBal
  | .err => .reqErr
  | .setdmos => .reqSetdmos
  | .setcmos => .reqSetcmos
  | .setsoc => .reqSetsoc
  | .reset => .reqReset

/-- `DEC.<c>`. -/
def decInstr : Command → Instr
  | .soc => .decSoc
  | .cvr => .decCvr
  | .tr => .decTr
  | .mos => .decMos
  | .status => .decStatus
  | .cellv => .decCellv
  | .cellt => .decCellt
  | .bal => .decBal
  | .err => .decErr
  | .setdmos => .decSetdmos
  | .setcmos => .decSetcmos
  | .setsoc => .decSetsoc
  | .reset => .decReset

/-- `RSZ.<c>`. -/
def rszInstr : Command → Instr
  | .soc => .rszSoc
  | .cvr => .rszCvr
  | .tr => .rszTr
  | .mos => .rszMos
  | .status => .rszStatus
  | .cellv => .rszCellv
  | .cellt => .rszCellt
  | .bal => .rszBal
  | .err => .rszErr
  | .setdmos => .rszSetdmos
  | .setcmos => .rszSetcmos
  | .setsoc => .rszSetsoc
  | .reset => .rszReset

/-- A class that combines with each of the 13 command ids (R47, R50 (2)). -/
def withCommand (b : Byte) (f : Command → Instr) : Except Reject Instr :=
  match commandOfId b with
  | some c => .ok (f c)
  | none => .error .unknownCommand

/-- A class whose low byte must be `0x00` (R46, R50 (3)). -/
def withoutCommand (b : Byte) (i : Instr) : Except Reject Instr :=
  if b = 0 then .ok i else .error .nonzeroLowByte

/-- The operation a word selects (30_encoding.md R46, R47, R50). -/
def decode (cw : Half) : Except Reject Instr :=
  match opClassOfCode (opcOf cw) with
  | none => .error .reservedClass
  | some .req => withCommand (cmdOf cw) reqInstr
  | some .dec => withCommand (cmdOf cw) decInstr
  | some .rsz => withCommand (cmdOf cw) rszInstr
  | some .build => .ok (.build (cmdOf cw))
  | some .cksum => withoutCommand (cmdOf cw) .cksum
  | some .vlen => withoutCommand (cmdOf cw) .vlen
  | some .vcks => withoutCommand (cmdOf cw) .vcks
  | some .parse => withoutCommand (cmdOf cw) .parse

/-- The decoder on a table row's bits: one 16-bit word, "every operation is one 16-bit word; there are no other
lengths" (R46). The word is a number on a port, so no byte order enters [DEDUCED, assumption log 26: safe]. -/
def decodeTableWord (nbits w : Nat) : Option Instr :=
  match decode (BitVec.ofNat 16 (w % 2 ^ nbits)) with
  | .ok i => some i
  | .error _ => none

/-! ### The encoder -/

/-- The op class of an instruction (R47). -/
def Instr.opClass : Instr → OpClass
  | .reqSoc | .reqCvr | .reqTr | .reqMos | .reqStatus | .reqCellv | .reqCellt | .reqBal | .reqErr
  | .reqSetdmos | .reqSetcmos | .reqSetsoc | .reqReset => .req
  | .decSoc | .decCvr | .decTr | .decMos | .decStatus | .decCellv | .decCellt | .decBal | .decErr
  | .decSetdmos | .decSetcmos | .decSetsoc | .decReset => .dec
  | .rszSoc | .rszCvr | .rszTr | .rszMos | .rszStatus | .rszCellv | .rszCellt | .rszBal | .rszErr
  | .rszSetdmos | .rszSetcmos | .rszSetsoc | .rszReset => .rsz
  | .build _ => .build
  | .cksum => .cksum
  | .vlen => .vlen
  | .vcks => .vcks
  | .parse => .parse

/-- The low byte of an instruction's word: its command id, BUILD's byte, or `0x00` (R46). -/
def Instr.lowByte : Instr → Byte
  | .reqSoc | .decSoc | .rszSoc => Command.id .soc
  | .reqCvr | .decCvr | .rszCvr => Command.id .cvr
  | .reqTr | .decTr | .rszTr => Command.id .tr
  | .reqMos | .decMos | .rszMos => Command.id .mos
  | .reqStatus | .decStatus | .rszStatus => Command.id .status
  | .reqCellv | .decCellv | .rszCellv => Command.id .cellv
  | .reqCellt | .decCellt | .rszCellt => Command.id .cellt
  | .reqBal | .decBal | .rszBal => Command.id .bal
  | .reqErr | .decErr | .rszErr => Command.id .err
  | .reqSetdmos | .decSetdmos | .rszSetdmos => Command.id .setdmos
  | .reqSetcmos | .decSetcmos | .rszSetcmos => Command.id .setcmos
  | .reqSetsoc | .decSetsoc | .rszSetsoc => Command.id .setsoc
  | .reqReset | .decReset | .rszReset => Command.id .reset
  | .build cmd => cmd
  | .cksum | .vlen | .vcks | .parse => 0

/-- The operation word of an instruction: op class in bits 15..8, low byte in bits 7..0 (30_encoding.md R46). -/
def encode (i : Instr) : Half := i.opClass.code ++ i.lowByte

end Sys2Proof
end

