-- ==== Sys2Proof/Machine/Float.lean ====
section
/-! DEFINITION. Floating point (00_scope.md R11): rounding an exact rational to FLOAT_FMT, to nearest with ties to even,
and reading a pattern back. Every finite value of a format is a whole number of units, a unit being the format's
least positive value `2 ^ -unitExp`, so all of this is arithmetic on naturals. -/

namespace Sys2Proof

/-- Width of the exponent field (IEEE 754 binary32, binary64). -/
def FloatFmt.expBits : FloatFmt → Nat
  | .binary32 => 8
  | .binary64 => 11

/-- Width of the fraction field. -/
def FloatFmt.fracBits : FloatFmt → Nat
  | .binary32 => 23
  | .binary64 => 52

/-- Position of the sign bit. -/
def FloatFmt.signBit (f : FloatFmt) : Nat := f.expBits + f.fracBits

/-- The pattern of positive infinity: exponent field all ones, fraction zero. -/
def FloatFmt.infMag (f : FloatFmt) : Nat := (2 ^ f.expBits - 1) * 2 ^ f.fracBits

/-- The least positive value of the format is `2 ^ -unitExp`: exponent bias plus fraction width less one. -/
def FloatFmt.unitExp (f : FloatFmt) : Nat := (2 ^ (f.expBits - 1) - 1) + f.fracBits - 1

/-- Units in one: `2 ^ unitExp`. -/
def FloatFmt.one (f : FloatFmt) : Nat := 2 ^ f.unitExp

/-- The nearest integer to `a / b`, ties to even. -/
def roundHalfEven (a b : Nat) : Nat :=
  if 2 * (a % b) < b then a / b
  else if b < 2 * (a % b) then a / b + 1
  else a / b + (a / b) % 2

/-- The nearest integer to `a / b`, ties away from zero (41_requests.md R81: `round_half_away` on values of at least 0). -/
def roundHalfAway (a b : Nat) : Nat := (2 * a + b) / (2 * b)

/-- The pattern, without its sign, of the format's value nearest to `num / den`, ties to even, an overflow giving
infinity (00_scope.md R11). In units the value is `num * 2^unitExp / den`; values in the binade of `2^(fracBits + e)`
units are multiples of `2^e`, and adding the rounded multiple to `e * 2^fracBits` carries into the exponent field by
itself. -/
def roundMag (f : FloatFmt) (num den : Nat) : Nat :=
  let e := (num * f.one / den).log2 - f.fracBits
  min (e * 2 ^ f.fracBits + roundHalfEven (num * f.one) (den * 2 ^ e)) f.infMag

/-- The number of units of a finite pattern without its sign. -/
def unitsOf (f : FloatFmt) (mag : Nat) : Nat :=
  let e := mag / 2 ^ f.fracBits
  let m := mag % 2 ^ f.fracBits
  if e = 0 then m else (2 ^ f.fracBits + m) * 2 ^ (e - 1)

/-- What a pattern stands for. -/
inductive FloatVal where
  | nan
  | inf (neg : Bool)
  | finite (neg : Bool) (units : Nat)
deriving DecidableEq, Repr

/-- The value of a pattern; for binary32 the low 32 bits of the container are read
[DESIGN CHOICE, assumption log 8: safe]. -/
def floatVal (f : FloatFmt) (b : FloatBits) : FloatVal :=
  let neg := b.getLsbD f.signBit
  let mag := b.toNat % 2 ^ f.signBit
  if f.infMag < mag then .nan
  else if mag = f.infMag then .inf neg
  else .finite neg (unitsOf f mag)

/-- `toF(num / den)` with the given sign (00_scope.md R11). -/
def toF (f : FloatFmt) (neg : Bool) (num den : Nat) : FloatBits :=
  BitVec.ofNat 64 ((if neg then 2 ^ f.signBit else 0) + roundMag f num den)

/-- `toF(v / den)` for an exact integer `v`. -/
def toFInt (f : FloatFmt) (v : Int) (den : Nat) : FloatBits := toF f (decide (v < 0)) v.natAbs den

end Sys2Proof
end

