-- ==== Sys2Proof/Machine/Frame.lean ====
section
/-! DEFINITION. Frame builder, frame parser, checksum (40_frame_checksum.md R55 to R64) and the operations BUILD, CKSUM,
VLEN, VCKS, PARSE. -/

namespace Sys2Proof.Machine

/-! ### Internal functions -/

/-- `sum8`: the sum of the bytes modulo 256 (R55). -/
def sum8 (s : List Byte) : Byte := BitVec.ofNat 8 (s.map BitVec.toNat).sum

/-- `validate_len` (R56). -/
def validateLen (rx : List Byte) (required : Nat) : Eval Unit :=
  if rx.length < required then raise (.replySize required rx.length) else .ok ()

/-- `validate_cks` (R57); `i` is the frame index it reports. It is called on non-empty sequences only. -/
def validateCks (s : List Byte) (i : Byte) : Eval Unit :=
  match s.getLast? with
  | none => .error (.faulted .rxOutOfRange)
  | some last =>
    let c := sum8 s.dropLast
    if c = last then .ok () else raise (.checksum i c last)

/-- `check_window`: the checksum of one frame, over its own 13 bytes (R58) [the spec's reading of its source,
assumption log 12: unsafe]. -/
def checkWindow (rx : List Byte) (base : Nat) (i : Byte) : Eval Unit := do
  let w ← readRange rx base Config.frameLen
  validateCks w i

/-- `parse` (R59). -/
def parseFrame (rx : List Byte) (base : Nat) : Eval Fields := do
  let start ← readByte rx base
  let address ← readByte rx (base + 1)
  let command ← readByte rx (base + 2)
  let dataLen ← readByte rx (base + 3)
  let p0 ← readByte rx (base + 4)
  let p1 ← readByte rx (base + 5)
  let p2 ← readByte rx (base + 6)
  let p3 ← readByte rx (base + 7)
  let p4 ← readByte rx (base + 8)
  let p5 ← readByte rx (base + 9)
  let p6 ← readByte rx (base + 10)
  let p7 ← readByte rx (base + 11)
  let checksum ← readByte rx (base + 12)
  let body ← readRange rx base 12
  let computed := sum8 body
  return { start, address, command, dataLen, payload := #v[p0, p1, p2, p3, p4, p5, p6, p7], checksum, computed,
           checksumOk := computed == checksum }

/-- The first 12 bytes of a request frame: start byte, host address, command id, data length, payload (R60,
30_encoding.md R41). -/
def frameBody (cmd : Byte) (payload : Payload) : Vector Byte 12 :=
  #v[Config.startByte, Config.hostAddr, cmd, Config.dataLenByte] ++ payload

/-- `BUILD`'s frame: the body and its checksum (R60). -/
def buildFrame (cmd : Byte) (payload : Payload) : Frame :=
  (frameBody cmd payload).push (sum8 (frameBody cmd payload).toList)

/-! ### Operations -/

/-- `BUILD` (R60). -/
def execBuild (cmd : Byte) (s : State) : Host.Outcome State Fault Refusal :=
  conclude s .okTx (.ok (buildFrame cmd s.op.payload))

/-- `CKSUM` (R61) [the empty buffer: assumption log 19: safe]. -/
def execCksum (s : State) : Host.Outcome State Fault Refusal :=
  conclude s .okSum (if s.op.rx.length = 0 then raise .emptyBuffer else .ok (sum8 s.op.rx.dropLast))

/-- `VLEN` (R62). -/
def execVlen (s : State) : Host.Outcome State Fault Refusal :=
  conclude s (fun _ => .done) (validateLen s.op.rx s.op.required.toNat)

/-- `VCKS`, over the whole buffer (R63). -/
def execVcks (s : State) : Host.Outcome State Fault Refusal :=
  conclude s (fun _ => .done) (if s.op.rx.length = 0 then raise .emptyBuffer else validateCks s.op.rx 0)

/-- `PARSE` (R64). -/
def execParse (s : State) : Host.Outcome State Fault Refusal :=
  conclude s .okFields do
    validateLen s.op.rx (s.op.base.toNat + 13)
    parseFrame s.op.rx s.op.base.toNat

end Sys2Proof.Machine
end

