-- ==== Sys2Proof/Machine/Decoders.lean ====
section
/-! DEFINITION. Single-frame response decoders and field decoding (42_decoders.md R95 to R111). Bytes 0 to 3 of a reply
are not examined (30_encoding.md R43; assumption log 11: unsafe), nor bytes a layout marks "not read"
(R51; assumption log 18: unsafe). -/

namespace Sys2Proof.Machine

/-! ### Field decoding -/

/-- `div10(n) = toF(n / 10)` (R96). -/
def div10 (f : FloatFmt) (n : Nat) : FloatBits := toF f false n 10

/-- `div1000(n) = toF(n / 1000)` (R96). -/
def div1000 (f : FloatFmt) (n : Nat) : FloatBits := toF f false n 1000

/-- `current(n) = toF((n - 30000) / 10)`, the subtraction exact (R97). -/
def currentOf (f : FloatFmt) (n : Nat) : FloatBits := toFInt f ((n : Int) - 30000) 10

/-- `toF(toF(n) / 1000)`: converted first, then divided, each step rounded (R104). -/
def capacityOf (f : FloatFmt) (n : Nat) : FloatBits :=
  toF f false (unitsOf f (roundMag f n 1)) (1000 * f.one)

/-- `temp(n, offset)` (R98): `n - 40` exactly, then narrowed to `i8`; a byte of 168 or more wraps or faults as
TEMP_NARROW says [the default wrap: assumption log 9: unsafe]. -/
def tempOf (narrow : TempNarrow) (n : Byte) (offset : Byte) : Eval I8 :=
  let t : Int := (n.toNat : Int) - 40
  if t ≤ 127 then .ok (BitVec.ofInt 8 t)
  else
    match narrow with
    | .wrap => .ok (BitVec.ofInt 8 t)
    | .fault => raise (.fieldOutOfRange offset n)

/-- `bbool(n, offset)` (R99) [the default true: assumption log 10: unsafe]. -/
def byteBool (other : BoolByteOther) (n : Byte) (offset : Byte) : Eval Bool :=
  if n = 0x00 then .ok false
  else if n = 0x01 then .ok true
  else
    match other with
    | .true => .ok true
    | .fault => raise (.fieldOutOfRange offset n)

/-- The mode byte of a MosfetStatus reply (R104, D11). -/
def modeOf (m : Byte) : Eval MosfetMode :=
  if m = 0 then .ok .stationary
  else if m = 1 then .ok .charging
  else if m = 2 then .ok .discharging
  else raise (.fieldOutOfRange 4 m)

/-- The io-state byte, bit p the p-th name (R105, D7) [assumption log 14: unsafe]. -/
def ioStateOf (b : Byte) : IoState where
  di1 := bitOf b 0
  di2 := bitOf b 1
  di3 := bitOf b 2
  di4 := bitOf b 3
  do1 := bitOf b 4
  do2 := bitOf b 5
  do3 := bitOf b 6
  do4 := bitOf b 7

/-- `decode_single` (R95): length, then checksum, then the fields. -/
def decodeSingle (rx : List Byte) (extract : Eval Decoded) : Eval Decoded := do
  validateLen rx 13
  checkWindow rx 0 1
  extract

/-! ### Extraction, each in increasing frame offset (R100) -/

/-- The SOC layout (R101). -/
def extractSoc (p : Params) (rx : List Byte) : Eval Decoded := do
  let v ← be16 rx 4
  let c ← be16 rx 8
  let q ← be16 rx 10
  return .soc { totalVoltage := div10 p.floatFmt v, current := currentOf p.floatFmt c, socPercent := div10 p.floatFmt q }

/-- The CVR layout (R102) [D8: PRESUMED by the spec, assumption log 13: unsafe]. -/
def extractCvr (p : Params) (rx : List Byte) : Eval Decoded := do
  let hv ← be16 rx 4
  let hc ← readByte rx 6
  let lv ← be16 rx 7
  let lc ← readByte rx 9
  return .cellVoltageRange { highestVoltage := div1000 p.floatFmt hv, highestCell := hc,
                             lowestVoltage := div1000 p.floatFmt lv, lowestCell := lc }

/-- The TR layout (R103) [D9: PRESUMED by the spec, assumption log 13: unsafe]. -/
def extractTr (p : Params) (rx : List Byte) : Eval Decoded := do
  let ht ← readByte rx 4
  let highest ← tempOf p.tempNarrow ht 4
  let hs ← readByte rx 5
  let lt ← readByte rx 6
  let lowest ← tempOf p.tempNarrow lt 6
  let ls ← readByte rx 7
  return .temperatureRange { highestTemperature := highest, highestSensor := hs,
                             lowestTemperature := lowest, lowestSensor := ls }

/-- The MOS layout (R104) [D10, D11: PRESUMED by the spec, assumption log 13: unsafe]. -/
def extractMos (p : Params) (rx : List Byte) : Eval Decoded := do
  let m ← readByte rx 4
  let mode ← modeOf m
  let cb ← readByte rx 5
  let charging ← byteBool p.boolByteOther cb 5
  let db ← readByte rx 6
  let discharging ← byteBool p.boolByteOther db 6
  let cycles ← readByte rx 7
  let cap ← be32 rx 8
  return .mosfetStatus { mode := mode, chargingMosfet := charging, dischargingMosfet := discharging,
                         bmsCycles := cycles, capacityAh := capacityOf p.floatFmt cap }

/-- The STATUS layout (R105). -/
def extractStatus (p : Params) (rx : List Byte) : Eval Decoded := do
  let cells ← readByte rx 4
  let sensors ← readByte rx 5
  let cb ← readByte rx 6
  let charger ← byteBool p.boolByteOther cb 6
  let lb ← readByte rx 7
  let load ← byteBool p.boolByteOther lb 7
  let io ← readByte rx 8
  let cycles ← be16 rx 9
  return .status { cells := cells, temperatureSensors := sensors, chargerRunning := charger, loadRunning := load,
                   ioState := ioStateOf io, cycles := BitVec.ofNat 16 cycles }

/-- The balancing bits of cells `k, k+1, ..., k+n-1`: cell k is bit `k mod 8` of byte `4 + floor(k / 8)` (R106, D18)
[assumption log 16: unsafe]. -/
def balancingBits (rx : List Byte) : Nat → Nat → Eval (List Bool)
  | _, 0 => .ok []
  | k, n + 1 => do
    let b ← readByte rx (4 + k / 8)
    let rest ← balancingBits rx (k + 1) n
    return bitOf b (k % 8) :: rest

/-- The BAL layout (R106). -/
def extractBal (rx : List Byte) (count : Nat) : Eval Decoded := do
  let bits ← balancingBits rx 0 count
  return .balancingState bits

/-- The decoders of the four write and reset replies check length and checksum and return `Ack` (R107)
[assumption log 17: unsafe]. -/
def decodeAck (s : State) : Host.Outcome State Fault Refusal :=
  conclude s .okValue (decodeSingle s.op.rx (.ok .ack))

/-! ### Operations -/

/-- `DEC.SOC` (R101). -/
def execDecSoc (s : State) : Host.Outcome State Fault Refusal :=
  conclude s .okValue (decodeSingle s.op.rx (extractSoc s.params s.op.rx))

/-- `DEC.CVR` (R102). -/
def execDecCvr (s : State) : Host.Outcome State Fault Refusal :=
  conclude s .okValue (decodeSingle s.op.rx (extractCvr s.params s.op.rx))

/-- `DEC.TR` (R103). -/
def execDecTr (s : State) : Host.Outcome State Fault Refusal :=
  conclude s .okValue (decodeSingle s.op.rx (extractTr s.params s.op.rx))

/-- `DEC.MOS` (R104). -/
def execDecMos (s : State) : Host.Outcome State Fault Refusal :=
  conclude s .okValue (decodeSingle s.op.rx (extractMos s.params s.op.rx))

/-- `DEC.STATUS` (R105). -/
def execDecStatus (s : State) : Host.Outcome State Fault Refusal :=
  conclude s .okValue (decodeSingle s.op.rx (extractStatus s.params s.op.rx))

/-- `DEC.BAL` (R106): the count is checked before the buffer. -/
def execDecBal (s : State) : Host.Outcome State Fault Refusal :=
  conclude s .okValue
    (if Config.maxBalanceCells < s.op.count.toNat then
      raise (.countOutOfRange s.op.count (BitVec.ofNat 8 Config.maxBalanceCells))
    else decodeSingle s.op.rx (extractBal s.op.rx s.op.count.toNat))

/-- `DEC.SETDMOS` (R108). -/
def execDecSetdmos (s : State) : Host.Outcome State Fault Refusal := decodeAck s
/-- `DEC.SETCMOS` (R109). -/
def execDecSetcmos (s : State) : Host.Outcome State Fault Refusal := decodeAck s
/-- `DEC.SETSOC` (R110). -/
def execDecSetsoc (s : State) : Host.Outcome State Fault Refusal := decodeAck s
/-- `DEC.RESET` (R111). -/
def execDecReset (s : State) : Host.Outcome State Fault Refusal := decodeAck s

end Sys2Proof.Machine
end

