-- ==== Sys2Proof/Machine/ErrorCode.lean ====
section
/-! DEFINITION. Error-code bitmask decoder (44_error_code.md R121 to R123). -/

namespace Sys2Proof.Machine

/-- The frame offset of a table entry, 4 to 10 (R121). -/
def errorByteOffset (e : ErrorEntry) : Nat := 4 + e.byteIndex.val

/-- The names of the entries whose bit is set, in table order (R122, R123). -/
def errorNames (rx : List Byte) : List ErrorEntry → Eval (List String)
  | [] => .ok []
  | e :: es => do
    let b ← readByte rx (errorByteOffset e)
    let rest ← errorNames rx es
    return if bitOf b e.bit.val then e.name :: rest else rest

/-- The ERR layout (R122). -/
def extractErr (p : Params) (rx : List Byte) : Eval Decoded := do
  let names ← errorNames rx p.errorTable
  return .errorCode names

/-- `DEC.ERR` (R122). -/
def execDecErr (s : State) : Host.Outcome State Fault Refusal :=
  conclude s .okValue (decodeSingle s.op.rx (extractErr s.params s.op.rx))

end Sys2Proof.Machine
end

