-- ==== Sys2Proof/Machine/ReplySize.lean ====
section
/-! DEFINITION. Frame count and reply size (43_multiframe.md R112; 40_frame_checksum.md R65 to R77). -/

namespace Sys2Proof.Machine

/-- `ceil(a / b)` for `b > 0` (00_scope.md R9). -/
def ceilDiv (a b : Nat) : Nat := (a + b - 1) / b

/-- `nframes(count, cap)` (43_multiframe.md R112). -/
def nframes (count cap : Nat) : Nat := ceilDiv count cap

/-- Frames of a reply, by command (43_multiframe.md R112; 40_frame_checksum.md section 3). -/
def replyFrames (c : Command) (count : Byte) : Nat :=
  match c with
  | .cellv => nframes count.toNat Config.voltPerFrame
  | .cellt => nframes count.toNat Config.tempPerFrame
  | .soc | .cvr | .tr | .mos | .status | .bal | .err | .setdmos | .setcmos | .setsoc | .reset => 1

/-- The size of a command's reply: 13 bytes times its frames (40_frame_checksum.md section 3). -/
def replyLength (c : Command) (count : Byte) : Nat := Config.frameLen * replyFrames c count

/-- `RSZ.<c>`. -/
def replySize (s : State) (c : Command) : Host.Outcome State Fault Refusal :=
  conclude s .okSize (.ok (replyLength c s.op.count))

/-- `RSZ.SOC` (R65). -/
def execRszSoc (s : State) : Host.Outcome State Fault Refusal := replySize s .soc
/-- `RSZ.CVR` (R66). -/
def execRszCvr (s : State) : Host.Outcome State Fault Refusal := replySize s .cvr
/-- `RSZ.TR` (R67). -/
def execRszTr (s : State) : Host.Outcome State Fault Refusal := replySize s .tr
/-- `RSZ.MOS` (R68). -/
def execRszMos (s : State) : Host.Outcome State Fault Refusal := replySize s .mos
/-- `RSZ.STATUS` (R69). -/
def execRszStatus (s : State) : Host.Outcome State Fault Refusal := replySize s .status
/-- `RSZ.CELLV` (R70). -/
def execRszCellv (s : State) : Host.Outcome State Fault Refusal := replySize s .cellv
/-- `RSZ.CELLT` (R71). -/
def execRszCellt (s : State) : Host.Outcome State Fault Refusal := replySize s .cellt
/-- `RSZ.BAL` (R72): "the count does not enter". -/
def execRszBal (s : State) : Host.Outcome State Fault Refusal := replySize s .bal
/-- `RSZ.ERR` (R73). -/
def execRszErr (s : State) : Host.Outcome State Fault Refusal := replySize s .err
/-- `RSZ.SETDMOS` (R74). -/
def execRszSetdmos (s : State) : Host.Outcome State Fault Refusal := replySize s .setdmos
/-- `RSZ.SETCMOS` (R75). -/
def execRszSetcmos (s : State) : Host.Outcome State Fault Refusal := replySize s .setcmos
/-- `RSZ.SETSOC` (R76). -/
def execRszSetsoc (s : State) : Host.Outcome State Fault Refusal := replySize s .setsoc
/-- `RSZ.RESET` (R77). -/
def execRszReset (s : State) : Host.Outcome State Fault Refusal := replySize s .reset

end Sys2Proof.Machine
end

