-- ==== Sys2Proof/Machine/MultiFrame.lean ====
section
/-! DEFINITION. Multi-frame sequence validator and reassembler (43_multiframe.md R112 to R118). -/

namespace Sys2Proof.Machine

/-- Step 4 of R113: up to `lanes` more values of one frame, the next at address `a`, appended to `out`; stops once
`count` values are out, so the padding of the last frame is not read (R115) [assumption log 18: unsafe]. -/
def takeLanes {α : Type} (conv : Nat → Eval α) (count width : Nat) : Nat → Nat → List α → Eval (List α)
  | 0, _, out => .ok out
  | lanes + 1, a, out =>
    if out.length = count then .ok out
    else do
      let v ← conv a
      takeLanes conv count width lanes (a + width) (out ++ [v])

/-- Steps 2 to 5 of R113 for the frames `i, i+1, ..., i+n-1`, in order: the sequence byte, then the checksum, then the
values; the first failure ends the decode (R113, R114). -/
def takeFrames {α : Type} (rx : List Byte) (conv : Nat → Eval α) (count cap width : Nat) :
    Nat → Nat → List α → Eval (List α)
  | 0, _, out => .ok out
  | n + 1, i, out => do
    let base := 13 * (i - 1)
    let seq ← readByte rx (base + 4)
    if seq.toNat ≠ i then raise (.frameNo (BitVec.ofNat 8 i) seq)
    else do
      checkWindow rx base (BitVec.ofNat 8 i)
      let out' ← takeLanes conv count width cap (base + 5) out
      takeFrames rx conv count cap width n (i + 1) out'

/-- `reassemble(rx, count, cap, width, conv)` (R113). -/
def reassemble {α : Type} (rx : List Byte) (count cap width : Nat) (conv : Nat → Eval α) : Eval (List α) := do
  validateLen rx (13 * nframes count cap)
  takeFrames rx conv count cap width (nframes count cap) 1 []

/-- The value of a CELLV lane: millivolts, big-endian (R117). -/
def cellVoltageAt (p : Params) (rx : List Byte) (a : Nat) : Eval FloatBits := do
  let n ← be16 rx a
  return div1000 p.floatFmt n

/-- The value of a CELLT lane; the offset it reports is frame-relative (R118). -/
def cellTemperatureAt (p : Params) (rx : List Byte) (a : Nat) : Eval I8 := do
  let n ← readByte rx a
  tempOf p.tempNarrow n (BitVec.ofNat 8 (a % 13))

/-- `DEC.CELLV` (R117). -/
def execDecCellv (s : State) : Host.Outcome State Fault Refusal :=
  conclude s (fun vs => .okValue (.cellVoltages vs))
    (reassemble s.op.rx s.op.count.toNat Config.voltPerFrame 2 (cellVoltageAt s.params s.op.rx))

/-- `DEC.CELLT` (R118). -/
def execDecCellt (s : State) : Host.Outcome State Fault Refusal :=
  conclude s (fun ts => .okValue (.cellTemperatures ts))
    (reassemble s.op.rx s.op.count.toNat Config.tempPerFrame 1 (cellTemperatureAt s.params s.op.rx))

end Sys2Proof.Machine
end

