-- ==== Sys2Proof/Machine/Request.lean ====
section
/-! DEFINITION. Request encoders (41_requests.md R80 to R94). -/

namespace Sys2Proof.Machine

/-- A payload of eight zero bytes (30_encoding.md R49, R51). -/
def zeroPayload : Payload := #v[0, 0, 0, 0, 0, 0, 0, 0]

/-- The set-MOSFET payload: byte 4 is `0x01` or `0x00` (R91, R92) [that 1 means on is a label, assumption log 17: safe]. -/
def flagPayload (flag : Bool) : Payload := #v[if flag then 0x01 else 0x00, 0, 0, 0, 0, 0, 0, 0]

/-- The SetSoc payload: bytes 10 and 11 hold the encoded percent, big-endian (R93). -/
def socPayload (e : Nat) : Payload := #v[0, 0, 0, 0, 0, 0, bigEndianByte 2 e 0, bigEndianByte 2 e 1]

/-- The clamped percent `min(max(p, 0.0), 100.0)` in units, none for NaN (R81). -/
def clampPercent (f : FloatFmt) : FloatVal → Option Nat
  | .nan => none
  | .inf true => some 0
  | .inf false => some (100 * f.one)
  | .finite true _ => some 0
  | .finite false u => some (min u (100 * f.one))

/-- `soc_encode(p)`: NaN gives 0; otherwise clamp, multiply by ten in FLOAT_FMT, round half away from zero (R81)
[the spec's reading, assumption log 15: unsafe]. -/
def socEncode (f : FloatFmt) (p : FloatBits) : Nat :=
  match clampPercent f (floatVal f p) with
  | none => 0
  | some q => roundHalfAway (unitsOf f (roundMag f (q * 10) f.one)) f.one

/-- `REQ.<c>` is the frame builder applied to the command's id and payload (R80). -/
def request (s : State) (c : Command) (payload : Payload) : Host.Outcome State Fault Refusal :=
  conclude s .okTx (.ok (buildFrame c.id payload))

/-- `REQ.SOC` (R82). -/
def execReqSoc (s : State) : Host.Outcome State Fault Refusal := request s .soc zeroPayload
/-- `REQ.CVR` (R83). -/
def execReqCvr (s : State) : Host.Outcome State Fault Refusal := request s .cvr zeroPayload
/-- `REQ.TR` (R84). -/
def execReqTr (s : State) : Host.Outcome State Fault Refusal := request s .tr zeroPayload
/-- `REQ.MOS` (R85). -/
def execReqMos (s : State) : Host.Outcome State Fault Refusal := request s .mos zeroPayload
/-- `REQ.STATUS` (R86). -/
def execReqStatus (s : State) : Host.Outcome State Fault Refusal := request s .status zeroPayload
/-- `REQ.CELLV` (R87). -/
def execReqCellv (s : State) : Host.Outcome State Fault Refusal := request s .cellv zeroPayload
/-- `REQ.CELLT` (R88). -/
def execReqCellt (s : State) : Host.Outcome State Fault Refusal := request s .cellt zeroPayload
/-- `REQ.BAL` (R89). -/
def execReqBal (s : State) : Host.Outcome State Fault Refusal := request s .bal zeroPayload
/-- `REQ.ERR` (R90). -/
def execReqErr (s : State) : Host.Outcome State Fault Refusal := request s .err zeroPayload
/-- `REQ.SETDMOS` (R91). -/
def execReqSetdmos (s : State) : Host.Outcome State Fault Refusal := request s .setdmos (flagPayload s.op.flag)
/-- `REQ.SETCMOS` (R92). -/
def execReqSetcmos (s : State) : Host.Outcome State Fault Refusal := request s .setcmos (flagPayload s.op.flag)
/-- `REQ.SETSOC` (R93). -/
def execReqSetsoc (s : State) : Host.Outcome State Fault Refusal :=
  request s .setsoc (socPayload (socEncode s.params.floatFmt s.op.percent))
/-- `REQ.RESET` (R94): a request for the device; "it does not reset this block". -/
def execReqReset (s : State) : Host.Outcome State Fault Refusal := request s .reset zeroPayload

end Sys2Proof.Machine
end

