-- ==== Sys2Proof/Machine/Dispatch.lean ====
section
/-! DEFINITION. One arm per operation: the meaning of each instruction (30_encoding.md R47). -/

namespace Sys2Proof.Machine

/-- Execute an operation: the operands stand on the operation port, `s.op`. -/
def exec (i : Instr) (s : State) : Host.Outcome State Fault Refusal :=
  match i with
  | .reqSoc => Sys2Proof.Machine.execReqSoc s
  | .reqCvr => Sys2Proof.Machine.execReqCvr s
  | .reqTr => Sys2Proof.Machine.execReqTr s
  | .reqMos => Sys2Proof.Machine.execReqMos s
  | .reqStatus => Sys2Proof.Machine.execReqStatus s
  | .reqCellv => Sys2Proof.Machine.execReqCellv s
  | .reqCellt => Sys2Proof.Machine.execReqCellt s
  | .reqBal => Sys2Proof.Machine.execReqBal s
  | .reqErr => Sys2Proof.Machine.execReqErr s
  | .reqSetdmos => Sys2Proof.Machine.execReqSetdmos s
  | .reqSetcmos => Sys2Proof.Machine.execReqSetcmos s
  | .reqSetsoc => Sys2Proof.Machine.execReqSetsoc s
  | .reqReset => Sys2Proof.Machine.execReqReset s
  | .decSoc => Sys2Proof.Machine.execDecSoc s
  | .decCvr => Sys2Proof.Machine.execDecCvr s
  | .decTr => Sys2Proof.Machine.execDecTr s
  | .decMos => Sys2Proof.Machine.execDecMos s
  | .decStatus => Sys2Proof.Machine.execDecStatus s
  | .decCellv => Sys2Proof.Machine.execDecCellv s
  | .decCellt => Sys2Proof.Machine.execDecCellt s
  | .decBal => Sys2Proof.Machine.execDecBal s
  | .decErr => Sys2Proof.Machine.execDecErr s
  | .decSetdmos => Sys2Proof.Machine.execDecSetdmos s
  | .decSetcmos => Sys2Proof.Machine.execDecSetcmos s
  | .decSetsoc => Sys2Proof.Machine.execDecSetsoc s
  | .decReset => Sys2Proof.Machine.execDecReset s
  | .rszSoc => Sys2Proof.Machine.execRszSoc s
  | .rszCvr => Sys2Proof.Machine.execRszCvr s
  | .rszTr => Sys2Proof.Machine.execRszTr s
  | .rszMos => Sys2Proof.Machine.execRszMos s
  | .rszStatus => Sys2Proof.Machine.execRszStatus s
  | .rszCellv => Sys2Proof.Machine.execRszCellv s
  | .rszCellt => Sys2Proof.Machine.execRszCellt s
  | .rszBal => Sys2Proof.Machine.execRszBal s
  | .rszErr => Sys2Proof.Machine.execRszErr s
  | .rszSetdmos => Sys2Proof.Machine.execRszSetdmos s
  | .rszSetcmos => Sys2Proof.Machine.execRszSetcmos s
  | .rszSetsoc => Sys2Proof.Machine.execRszSetsoc s
  | .rszReset => Sys2Proof.Machine.execRszReset s
  | .build cmd => Sys2Proof.Machine.execBuild cmd s
  | .cksum => Sys2Proof.Machine.execCksum s
  | .vlen => Sys2Proof.Machine.execVlen s
  | .vcks => Sys2Proof.Machine.execVcks s
  | .parse => Sys2Proof.Machine.execParse s

end Sys2Proof.Machine
end

