-- ==== Sys2Proof/Machine/HostContract.lean ====
section
/-! DEFINITION. The host that keeps the contract (70_reset_and_hazards.md R140, R141): which records it may present, and its
moves between operations. Each duty is a restriction the log lists: counts (27), whole replies (28), delivery and draining
(29). The duty to leave `rx` unchanged holds of every record, since the block takes it whole (10_state.md R20; log 23). -/

namespace Sys2Proof.Machine

/-- Which of the cached counts an operation takes as its `count` (R140 (3)); none where it takes no count. -/
def countSource : Instr → Option (StatusCounts → Byte)
  | .rszCellv | .decCellv | .decBal => some StatusCounts.cells
  | .rszCellt | .decCellt => some StatusCounts.temperatureSensors
  | .reqSoc | .reqCvr | .reqTr | .reqMos | .reqStatus | .reqCellv | .reqCellt | .reqBal | .reqErr
  | .reqSetdmos | .reqSetcmos | .reqSetsoc | .reqReset => none
  | .decSoc | .decCvr | .decTr | .decMos | .decStatus | .decErr
  | .decSetdmos | .decSetcmos | .decSetsoc | .decReset => none
  | .rszSoc | .rszCvr | .rszTr | .rszMos | .rszStatus | .rszBal | .rszErr
  | .rszSetdmos | .rszSetcmos | .rszSetsoc | .rszReset => none
  | .build _ | .cksum | .vlen | .vcks | .parse => none

/-- The command whose reply an operation decodes. -/
def decodedCommand (i : Instr) : Option Command := commandTable.find? fun c => decInstr c == i

/-- The duty about counts (R140 (2) and (3); R141, row "decode a reply": "pass the count of rule R140"): a counted operation
comes after a Status value and carries its count [assumption log 27]. -/
def HostState.keepsCount (h : HostState) (i : Instr) (count : Byte) : Bool :=
  match countSource i, h.cache with
  | none, _ => true
  | some _, none => false
  | some source, some c => count == source c

/-- The duties about replies (R141, rows "learn a reply's size" and "decode a reply"): at least `size` bytes of the awaited
reply have been read, and `rx` begins with them, from the first byte, complete, in the order received; what follows is
free, "trailing bytes" [assumption log 28]. -/
def HostState.keepsReply (h : HostState) (i : Instr) (r : OperandRecord) : Bool :=
  match decodedCommand i with
  | none => true
  | some c =>
    let size := replyLength c r.count
    h.awaiting == some c && decide (size ≤ h.received.length) && r.rx.take size == h.received.take size

/-- The host may present the record. A word that is no operation has no duty: it ends with `IllegalOperation`. -/
def HostState.mayPresent (h : HostState) (r : OperandRecord) : Bool :=
  match decode r.cw with
  | .ok i => h.keepsCount i r.count && h.keepsReply i r
  | .error _ => true

/-- A write to the device (R141, rows "build a request" and "transport"): stale bytes are drained first, the frame goes
out unchanged as one write, and its command's reply is awaited [assumption log 29]. -/
def HostState.deliver (h : HostState) (f : Frame) : HostState :=
  { h with awaiting := commandOfId f[2], received := [], sent := h.sent ++ [f] }

/-- Bytes are buffered behind those already there (R141, row "transport"). -/
def HostState.receive (h : HostState) (bytes : List Byte) : HostState := { h with received := h.received ++ bytes }

/-- The host's data change; everything else stays. -/
def State.setHost (s : State) (h : HostState) : State := { s with host := h }

/-- The host delivers the `tx` that stands on the result port; "a reader of an absent field faults" (10_state.md R21). The
host keeps no copy: once another operation has completed, a delivery or a retry needs the request presented anew, a point
R141 leaves open [DESIGN CHOICE, assumption log 30: safe]. -/
def hostDeliver (s : State) : Host.Outcome State Fault Refusal :=
  match s.result.tx with
  | some f => .next (s.setHost (s.host.deliver f))
  | none => .fault (.absentField .tx)

end Sys2Proof.Machine
end

