-- ==== Sys2Proof/Machine/Ports.lean ====
section
/-! DEFINITION. What each event at the block's ports does (10_state.md R15, R20, R21; 70_reset_and_hazards.md R138, R141). -/

namespace Sys2Proof.Machine

/-- The operation on the port: its word is decoded and run; a word that is no operation ends with `IllegalOperation`
(30_encoding.md R50). -/
def runOperation (s : State) : Host.Outcome State Fault Refusal :=
  match decode s.op.cw with
  | .ok i => observed (exec i s)
  | .error _ => .next (illegalOperation s)

/-- A presented operation, run whole. An operand record longer than RX_CAP is no operation (D31). -/
def stepPresent (s : State) (r : OperandRecord) (rest : List PortMove) : Host.Outcome State Fault Refusal :=
  if s.admits r then runOperation (s.latch r rest) else .refused .rxOverCap

/-- A presented operation that a reset cuts (70_reset_and_hazards.md R138). -/
def stepCut (s : State) (r : OperandRecord) (rest : List PortMove) : Host.Outcome State Fault Refusal :=
  if s.admits r then .next (resetBlock (s.latch r rest)) else .refused .rxOverCap

/-- A move of the host that keeps the contract: it has none that the contract forbids (R141), and is otherwise what the
same event is when anything else causes it. -/
def stepHost (s : State) (m : HostMove) (rest : List PortMove) : Host.Outcome State Fault Refusal :=
  match m with
  | .present r => if s.host.mayPresent r then stepPresent s r rest else .refused .hostContract
  | .presentCut r => if s.host.mayPresent r then stepCut s r rest else .refused .hostContract
  | .deliver => hostDeliver (s.setMoves rest)
  | .receive bytes => .next ((s.setMoves rest).setHost (s.host.receive bytes))

end Sys2Proof.Machine
end

