-- ==== Sys2Proof/Machine/Step.lean ====
section
/-! DEFINITION. One step: what comes next at the ports, with the operation presented, if any, run whole ("a model takes one
atomic step per operation", 00_scope.md R5). The block has no program counter; "the host's sequence of operations plays
the part a program plays for a processor" (10_state.md R15). -/

namespace Sys2Proof.Machine

/-- One step of the machine. With nothing to come it idles (60_exceptions.md R137)
[DESIGN CHOICE, assumption log 3: safe]. -/
def step (s : State) : Host.Outcome State Fault Refusal :=
  match s.moves with
  | [] => .next s
  | .present r :: rest => stepPresent s r rest
  | .presentCut r :: rest => stepCut s r rest
  | .readResult f :: rest => portRead (s.setMoves rest) f
  | .assertReset :: rest => .next (resetBlock (s.setMoves rest))
  | .host m :: rest => stepHost s m rest

/-- The state whose next step runs the operation word with bits `w`: it is presented next, with the operands that
stand on the port [how a program comes to run: assumption log 1]. -/
def State.withFetchWord (s : State) (nbits w : Nat) : State := s.presenting (BitVec.ofNat 16 (w % 2 ^ nbits))

end Sys2Proof.Machine
end

