-- ==== Sys2Proof/Machine/Operands.lean ====
section
/-! DEFINITION. Operands: which fields of the operand record each operation reads and which result field it writes
(30_encoding.md R48), and the operand forms of the assembler syntax with the record a line stands for (R53). -/

namespace Sys2Proof.Machine

/-- The operands an operation reads beside `cw` (30_encoding.md R48). -/
def operandsRead : Instr → List OperandField
  | .reqSoc | .reqCvr | .reqTr | .reqMos | .reqStatus | .reqCellv | .reqCellt | .reqBal | .reqErr | .reqReset => []
  | .reqSetdmos | .reqSetcmos => [.flag]
  | .reqSetsoc => [.percent]
  | .decSoc | .decCvr | .decTr | .decMos | .decStatus | .decErr
  | .decSetdmos | .decSetcmos | .decSetsoc | .decReset => [.rx]
  | .decCellv | .decCellt | .decBal => [.rx, .count]
  | .rszCellv | .rszCellt => [.count]
  | .rszSoc | .rszCvr | .rszTr | .rszMos | .rszStatus | .rszBal | .rszErr
  | .rszSetdmos | .rszSetcmos | .rszSetsoc | .rszReset => []
  | .build _ => [.payload]
  | .cksum => [.rx]
  | .vlen => [.rxLength, .required]
  | .vcks => [.rx]
  | .parse => [.rx, .base]

/-- The result field an operation writes on success, none for VLEN and VCKS (30_encoding.md R48). -/
def resultFieldOf : Instr → Option ResultField
  | .reqSoc | .reqCvr | .reqTr | .reqMos | .reqStatus | .reqCellv | .reqCellt | .reqBal | .reqErr
  | .reqSetdmos | .reqSetcmos | .reqSetsoc | .reqReset => some .tx
  | .decSoc | .decCvr | .decTr | .decMos | .decStatus | .decCellv | .decCellt | .decBal | .decErr
  | .decSetdmos | .decSetcmos | .decSetsoc | .decReset => some .value
  | .rszSoc | .rszCvr | .rszTr | .rszMos | .rszStatus | .rszCellv | .rszCellt | .rszBal | .rszErr
  | .rszSetdmos | .rszSetcmos | .rszSetsoc | .rszReset => some .size
  | .build _ => some .tx
  | .cksum => some .sum
  | .vlen => none
  | .vcks => none
  | .parse => some .fields

/-- Two operand records agree on a field. -/
def agreeOn (a b : OperandRecord) : OperandField → Prop
  | .count => a.count = b.count
  | .flag => a.flag = b.flag
  | .percent => a.percent = b.percent
  | .payload => a.payload = b.payload
  | .required => a.required = b.required
  | .base => a.base = b.base
  | .rx => a.rx = b.rx
  | .rxLength => a.rx.length = b.rx.length

/-! ### Assembler lines -/

/-- The operand forms of a line (30_encoding.md R53). -/
inductive LineArgs where
  | none
  | flag (f : Bool)
  | percent (p : FloatBits)
  | rx (bytes : List Byte)
  | rxCount (bytes : List Byte) (count : Byte)
  | count (count : Byte)
  | payload (p : Payload)
  | rxRequired (bytes : List Byte) (required : Half)
  | rxBase (bytes : List Byte) (base : Half)
deriving DecidableEq, Repr

/-- The form of operands an operation's line takes (30_encoding.md R53). BUILD's command byte stands in the word. -/
def lineTakes (i : Instr) (a : LineArgs) : Bool :=
  match operandsRead i, a with
  | [], .none => true
  | [.flag], .flag _ => true
  | [.percent], .percent _ => true
  | [.rx], .rx _ => true
  | [.rx, .count], .rxCount _ _ => true
  | [.count], .count _ => true
  | [.payload], .payload _ => true
  | [.rxLength, .required], .rxRequired _ _ => true
  | [.rx, .base], .rxBase _ _ => true
  | _, _ => false

/-- A record with the operand fields a line names. -/
def fillArgs (r : OperandRecord) : LineArgs → OperandRecord
  | .none => r
  | .flag f => { r with flag := f }
  | .percent p => { r with percent := p }
  | .rx l => { r with rx := l }
  | .rxCount l c => { r with rx := l, count := c }
  | .count c => { r with count := c }
  | .payload p => { r with payload := p }
  | .rxRequired l n => { r with rx := l, required := n }
  | .rxBase l n => { r with rx := l, base := n }

/-- The operand record of a line: "its `cw` value ... plus the operand fields it names; operands it does not name are
zero" (30_encoding.md R53). -/
def assemble (i : Instr) (a : LineArgs) : Option OperandRecord :=
  if lineTakes i a then some (fillArgs { OperandRecord.zero with cw := encode i } a) else none

end Sys2Proof.Machine
end

