-- ==== Sys2Proof/Safety.lean ====
section
/-! DEFINITION. What claims about the machine are written in: total reads of a byte list, valid frames and replies, what a
result record may look like, the machine's invariant, and the host's duty. -/

namespace Sys2Proof.Machine

/-! ### Bytes of a buffer, as claims read them -/

/-- The byte of `rx` at index `i`; claims use it only below the length. -/
def byteAt (rx : List Byte) (i : Nat) : Byte := rx.getD i 0

/-- The big-endian 16-bit field at `k`: `rx[k]*256 + rx[k+1]` (20_memory.md R30). -/
def field16 (rx : List Byte) (k : Nat) : Nat := (byteAt rx k).toNat * 256 + (byteAt rx (k + 1)).toNat

/-- The big-endian 32-bit field at `k` (20_memory.md R30). -/
def field32 (rx : List Byte) (k : Nat) : Nat :=
  (byteAt rx k).toNat * 2 ^ 24 + (byteAt rx (k + 1)).toNat * 2 ^ 16
    + (byteAt rx (k + 2)).toNat * 2 ^ 8 + (byteAt rx (k + 3)).toNat

/-- The checksum of the window at `base`: of its bytes 0 to 11 (40_frame_checksum.md R58). -/
def windowSum (rx : List Byte) (base : Nat) : Byte := sum8 ((rx.drop base).take 12)

/-- A whole window stands at `base` and its checksum is right (R58). -/
def ValidWindow (rx : List Byte) (base : Nat) : Prop :=
  base + 13 ≤ rx.length ∧ windowSum rx base = byteAt rx (base + 12)

/-- A reply a single-frame decoder accepts: at least 13 bytes, the first 13 with the right checksum (42_decoders.md R95). -/
def ValidReply (rx : List Byte) : Prop := ValidWindow rx 0

/-- Frame `i` (1-based) of a multi-frame reply carries its own number and a right checksum (43_multiframe.md R113). -/
def GoodFrame (rx : List Byte) (i : Nat) : Prop :=
  (byteAt rx (13 * (i - 1) + 4)).toNat = i ∧ windowSum rx (13 * (i - 1)) = byteAt rx (13 * (i - 1) + 12)

/-- A multi-frame reply of `n` frames that passes every check of R113. -/
def ValidFrames (rx : List Byte) (n : Nat) : Prop :=
  13 * n ≤ rx.length ∧ ∀ i, 1 ≤ i → i ≤ n → GoodFrame rx i

/-! ### Operation words -/

/-- The words 30_encoding.md R50 (1) to (3) calls reserved or illegal, written out from R45 and R47. -/
def IllegalWord (cw : Half) : Prop :=
  opcOf cw ∉ [0x01, 0x02, 0x03, 0x10, 0x11, 0x12, 0x13, 0x14]
    ∨ (opcOf cw ∈ [0x01, 0x02, 0x03]
        ∧ cmdOf cw ∉ [0x90, 0x91, 0x92, 0x93, 0x94, 0x95, 0x96, 0x97, 0x98, 0xD9, 0xDA, 0x21, 0x00])
    ∨ (opcOf cw ∈ [0x11, 0x12, 0x13, 0x14] ∧ cmdOf cw ≠ 0x00)

/-! ### What operations ask of their buffer -/

/-- The eleven single-frame decoders (42_decoders.md R95, 44_error_code.md R122). -/
def singleFrameDecoders : List Instr :=
  [.decSoc, .decCvr, .decTr, .decMos, .decStatus, .decBal, .decErr, .decSetdmos, .decSetcmos, .decSetsoc, .decReset]

/-- The length an operation requires of `rx`, for the operations that validate it (40_frame_checksum.md R62, R64;
42_decoders.md R95; 43_multiframe.md R113). -/
def requiredLength (r : OperandRecord) : Instr → Option Nat
  | .decSoc | .decCvr | .decTr | .decMos | .decStatus | .decBal | .decErr
  | .decSetdmos | .decSetcmos | .decSetsoc | .decReset => some 13
  | .decCellv => some (13 * nframes r.count.toNat 3)
  | .decCellt => some (13 * nframes r.count.toNat 7)
  | .vlen => some r.required.toNat
  | .parse => some (r.base.toNat + 13)
  | .reqSoc | .reqCvr | .reqTr | .reqMos | .reqStatus | .reqCellv | .reqCellt | .reqBal | .reqErr
  | .reqSetdmos | .reqSetcmos | .reqSetsoc | .reqReset => none
  | .rszSoc | .rszCvr | .rszTr | .rszMos | .rszStatus | .rszCellv | .rszCellt | .rszBal | .rszErr
  | .rszSetdmos | .rszSetcmos | .rszSetsoc | .rszReset => none
  | .build _ | .cksum | .vcks => none

/-- The frame offsets whose bytes a single-frame decoder's layout reads (30_encoding.md R49, reply table); every other
byte of a valid reply is "not read". -/
def replyOffsets : Instr → List Nat
  | .decSoc => [4, 5, 8, 9, 10, 11]
  | .decCvr => [4, 5, 6, 7, 8, 9]
  | .decTr => [4, 5, 6, 7]
  | .decMos => [4, 5, 6, 7, 8, 9, 10, 11]
  | .decStatus => [4, 5, 6, 7, 8, 9, 10]
  | .decBal => [4, 5, 6, 7, 8, 9]
  | .decErr => [4, 5, 6, 7, 8, 9, 10]
  | _ => []

/-! ### Result records -/

/-- How many of the five value fields of a record hold a value (10_state.md R21: "at most one of the other fields is
written"). -/
def ResultRecord.valueFields (r : ResultRecord) : Nat :=
  r.tx.isSome.toNat + r.size.isSome.toNat + r.sum.isSome.toNat + r.fields.isSome.toNat + r.value.isSome.toNat

/-- The shapes of a result record (10_state.md R21, R25; 60_exceptions.md R125, R128): all absent; OK with at most one
value field and no information; or a status that is not OK with its own information and nothing else. -/
def ResultRecord.shaped (r : ResultRecord) : Prop :=
  r = .absent
    ∨ (r.status = some .ok ∧ r.info = none ∧ r.valueFields ≤ 1)
    ∨ ∃ e, r = .failed e

/-- What an information record says is so (60_exceptions.md R124, R125). -/
def Info.sound : Info → Prop
  | .replySize required actual => actual < required
  | .checksum _ computed received => computed ≠ received
  | .frameNo frame received => frame ≠ received
  | .illegalOperation cw => ∀ i, decode cw ≠ .ok i
  | .countOutOfRange count max => max = 48 ∧ 48 < count.toNat
  | .fieldOutOfRange offset byte => 4 ≤ offset.toNat ∧ offset.toNat ≤ 11 ∧ 2 ≤ byte.toNat
  | .emptyBuffer => True

/-- A frame as the block builds it: constant start byte, address and length byte, and byte 12 the checksum of bytes 0 to
11 (30_encoding.md R41, R42; 40_frame_checksum.md R78). -/
def frameSound (t : Frame) : Prop :=
  t[0] = 0xA5 ∧ t[1] = 0x40 ∧ t[3] = 0x08 ∧ t[12] = sum8 (t.toList.take 12)

/-- What a decoded value can be (10_state.md R22): a balancing list of at most 48 cells, voltage and temperature lists of
at most 255 values, error names in table order without repetition. -/
def Decoded.sound (p : Params) : Decoded → Prop
  | .cellVoltages v => v.length ≤ 255
  | .cellTemperatures v => v.length ≤ 255
  | .balancingState v => v.length ≤ Config.maxBalanceCells
  | .errorCode v => List.Sublist v (p.errorTable.map fun e => e.name) ∧ v.Nodup
  | _ => True

/-- What the fields of a record hold, where they hold a value. -/
structure ResultRecord.Content (p : Params) (r : ResultRecord) : Prop where
  info : ∀ e, r.info = some e → e.sound
  tx : ∀ t, r.tx = some t → frameSound t
  size : ∀ n, r.size = some n → n ≤ 1105 ∧ n % 13 = 0
  fields : ∀ f, r.fields = some f → (f.checksumOk = true ↔ f.computed = f.checksum)
  value : ∀ v, r.value = some v → v.sound p

/-- The machine's invariant: well-formed parameters, a result port of the shape and content the spec gives it, and no write
to the device but frames as the block builds them (70_reset_and_hazards.md R141: "deliver `tx` to the device unchanged"). -/
structure State.Inv (s : State) : Prop where
  params : s.params.wellFormed = true
  shape : s.result.shaped
  content : s.result.Content s.params
  sent : ∀ f ∈ s.host.sent, frameSound f

/-! ### Safe runs -/

/-- The result port holds a spec fault (60_exceptions.md R126): a claim that an operation returns a value carries, as a
premise on its operands, that this is not so. -/
def State.specFault (s : State) : Bool := s.result.status.any StatusCode.isSpecFault

/-- The statuses each operation can end with, beside OK (60_exceptions.md R124, column "raised by", with the rule of
the operation). -/
def mayRaise : Instr → List StatusCode
  | .decSoc | .decCvr | .decErr | .decSetdmos | .decSetcmos | .decSetsoc | .decReset =>
    [.replySizeError, .checksumError]
  | .decTr | .decMos | .decStatus => [.replySizeError, .checksumError, .fieldOutOfRange]
  | .decBal => [.countOutOfRange, .replySizeError, .checksumError]
  | .decCellv => [.replySizeError, .frameNoError, .checksumError]
  | .decCellt => [.replySizeError, .frameNoError, .checksumError, .fieldOutOfRange]
  | .cksum => [.emptyBuffer]
  | .vlen => [.replySizeError]
  | .vcks => [.emptyBuffer, .checksumError]
  | .parse => [.replySizeError]
  | .reqSoc | .reqCvr | .reqTr | .reqMos | .reqStatus | .reqCellv | .reqCellt | .reqBal | .reqErr
  | .reqSetdmos | .reqSetcmos | .reqSetsoc | .reqReset => []
  | .rszSoc | .rszCvr | .rszTr | .rszMos | .rszStatus | .rszCellv | .rszCellt | .rszBal | .rszErr
  | .rszSetdmos | .rszSetcmos | .rszSetsoc | .rszReset => []
  | .build _ => []

/-- The operations that take the cached `cells`, and those that take the cached `temperature_sensors` (R140 (3)). -/
def countedByCells : List Instr := [.rszCellv, .decCellv, .decBal]
def countedBySensors : List Instr := [.rszCellt, .decCellt]

/-- What the host must keep to when it presents a record (70_reset_and_hazards.md R140, R141): the counts of the latest
Status value, and, for a decoder, the awaited reply: at least as many of its bytes as the decoder requires have been
received, and `rx` begins with those, in the order received [assumption logs 27, 28]. -/
def HostDuty (h : HostState) (r : OperandRecord) : Prop :=
  ∀ i, decode r.cw = .ok i →
    (i ∈ countedByCells → ∃ c, h.cache = some c ∧ r.count = c.cells)
    ∧ (i ∈ countedBySensors → ∃ c, h.cache = some c ∧ r.count = c.temperatureSensors)
    ∧ ∀ c, i = decInstr c → h.awaiting = some c
      ∧ ∃ n, requiredLength r i = some n ∧ n ≤ h.received.length ∧ r.rx.take n = h.received.take n

/-- A record is presented next: by whoever drives the ports, or by the host that keeps the contract. -/
def State.presents (s : State) (r : OperandRecord) (rest : List PortMove) : Prop :=
  s.moves = .present r :: rest ∨ (s.moves = .host (.present r) :: rest ∧ HostDuty s.host r)

end Sys2Proof.Machine
end

