-- ==== Sys2Proof/Certificates/Slice0/Obligations.lean ====
section
/-! DEFINITION. The statements for the provers. Each docstring names the rules of spec/ it formalises. -/

open Sys2Proof Sys2Proof.Machine

/-! ### Operation words -/

/-- 30_encoding.md R46, R47: no bit of an operation word is dropped. -/
def Obligations.EncodedOperationsDecodeBack : Prop :=
  ∀ i : Instr, i.wellFormed = true → decode (encode i) = .ok i

/-- 30_encoding.md R46, R47, R50: a word selects an operation only if it is that operation's word. -/
def Obligations.LegalWordsHaveOneMeaning : Prop :=
  ∀ (cw : Half) (i : Instr), decode cw = .ok i → encode i = cw

/-- 30_encoding.md R50, whole: which words are no operation, that every BUILD word is one, and how a step on a word that
is none ends, whoever presents it. -/
def Obligations.IllegalWordsEndWithIllegalOperation : Prop :=
  (∀ cw : Half, (∀ i, decode cw ≠ .ok i) ↔ IllegalWord cw)
  ∧ (∀ cmd : Byte, decode (0x10#8 ++ cmd) = .ok (.build cmd))
  ∧ ∀ (s : State) (r : OperandRecord) (rest : List PortMove),
      s.presents r rest → r.rx.length ≤ s.params.rxCap → IllegalWord r.cw →
      step s = .next ((s.latch r rest).setResult
        { status := some .illegalOperation, info := some (.illegalOperation r.cw),
          tx := none, size := none, sum := none, fields := none, value := none })

/-- opcode_table.json, one word of each family written bit by bit (30_encoding.md R46, R47). -/
def Obligations.SampleWordsDecode : Prop :=
  decode 0b0000000110010000#16 = .ok .reqSoc
  ∧ decode 0b0000000100100001#16 = .ok .reqSetsoc
  ∧ decode 0b0000001010010101#16 = .ok .decCellv
  ∧ decode 0b0000001000000000#16 = .ok .decReset
  ∧ decode 0b0000001111011010#16 = .ok .rszSetcmos
  ∧ decode 0b0001000010101011#16 = .ok (.build 0b10101011#8)
  ∧ decode 0b0001000100000000#16 = .ok .cksum
  ∧ decode 0b0001001000000000#16 = .ok .vlen
  ∧ decode 0b0001001100000000#16 = .ok .vcks
  ∧ decode 0b0001010000000000#16 = .ok .parse

/-- 30_encoding.md R53: an assembled line carries its operation's word, each operand it names holds the line's value, the
operands it does not name are zero, a line names exactly the operands its operation reads, and every operation has a line
(VLEN's names `rx`, of which it reads the length). -/
def Obligations.AssembledLinesCarryTheirOperation : Prop :=
  (∀ (i : Instr) (a : LineArgs) (r : OperandRecord), assemble i a = some r →
    decode r.cw = .ok i
    ∧ (.count ∉ operandsRead i → r.count = 0) ∧ (.flag ∉ operandsRead i → r.flag = false)
    ∧ (.percent ∉ operandsRead i → r.percent = 0)
    ∧ (.payload ∉ operandsRead i → r.payload = #v[0, 0, 0, 0, 0, 0, 0, 0])
    ∧ (.required ∉ operandsRead i → r.required = 0) ∧ (.base ∉ operandsRead i → r.base = 0)
    ∧ (.rx ∉ operandsRead i → .rxLength ∉ operandsRead i → r.rx = [])
    ∧ (match a with
      | .none => operandsRead i = []
      | .flag f => operandsRead i = [.flag] ∧ r.flag = f
      | .percent p => operandsRead i = [.percent] ∧ r.percent = p
      | .rx l => operandsRead i = [.rx] ∧ r.rx = l
      | .rxCount l c => operandsRead i = [.rx, .count] ∧ r.rx = l ∧ r.count = c
      | .count c => operandsRead i = [.count] ∧ r.count = c
      | .payload p => operandsRead i = [.payload] ∧ r.payload = p
      | .rxRequired l n => operandsRead i = [.rxLength, .required] ∧ r.rx = l ∧ r.required = n
      | .rxBase l n => operandsRead i = [.rx, .base] ∧ r.rx = l ∧ r.base = n))
  ∧ ∀ i : Instr, ∃ (a : LineArgs) (r : OperandRecord), assemble i a = some r

/-! ### Steps -/

/-- 10_state.md R15, R20: a step on a presented operation latches the operand record, decodes its word, executes the
operation, and lets the host look at the result; the same whether the host that keeps the contract presents it or anything
else does. The list of moves is the model's choice (DESIGN CHOICE, assumption log 1), and so is that the host looks at the
result, for its cache, within the step (DEDUCED, assumption log 22). -/
def Obligations.StepRunsTheDecodedOperation : Prop :=
  ∀ (s : State) (r : OperandRecord) (rest : List PortMove) (i : Instr),
    s.presents r rest → r.rx.length ≤ s.params.rxCap → decode r.cw = .ok i →
    step s = observed (exec i { s with op := r, moves := rest })

/-- 10_state.md R15: a step from the state made by withFetchWord executes the operation of the word it is given, and lets the
host look at the result. That a program is the list of moves is the model's choice (DESIGN CHOICE, assumption log 1), and so is
that the host looks at the result, for its cache, within the step (DEDUCED, assumption log 22). -/
def Obligations.FetchWordRunsItsOperation : Prop :=
  ∀ (s : State) (i : Instr), s.op.rx.length ≤ s.params.rxCap →
    step (s.withFetchWord 16 (encode i).toNat)
      = observed (exec i { s with op := { s.op with cw := encode i } })

/-- Assumption log 3, the model's choice (DESIGN CHOICE): with nothing to come nothing changes (60_exceptions.md R137). -/
def Obligations.IdleMachineStaysAsItIs : Prop :=
  ∀ s : State, s.moves = [] → step s = .next s

/-- 10_state.md R21, R25: reading an absent field of the result port faults, in a read of the port and in the host's
delivery of `tx`, and reading one that holds a value does not. That the host reads `tx` from the port when it delivers it,
keeping no copy, is the model's choice (DESIGN CHOICE, assumption log 30), and so is that a read of a field that holds a value
leaves the result port as it was (DEDUCED, assumption log 24: only the next operation's end or a reset changes the port). -/
def Obligations.ReadingAbsentFieldFaults : Prop :=
  (∀ (s : State) (f : ResultField) (rest : List PortMove), s.moves = .readResult f :: rest →
    (s.result.has f = true → step s = .next { s with moves := rest })
    ∧ (s.result.has f = false → step s = .fault (.absentField f)))
  ∧ ∀ (s : State) (rest : List PortMove), s.moves = .host .deliver :: rest →
      (s.result.tx = none → step s = .fault (.absentField .tx))
      ∧ ∀ f, s.result.tx = some f → ∃ t, step s = .next t ∧ t.result = s.result

/-- 70_reset_and_hazards.md R138, R139 and 10_state.md R25: reset leaves the result port absent, an operation it cuts has
no result, and the parameters and the host's cache stay. That the operation port keeps its operands is the model's choice
(DESIGN CHOICE, assumption log 21). -/
def Obligations.ResetLeavesResultAbsent : Prop :=
  (∀ (s : State) (rest : List PortMove), s.moves = .assertReset :: rest →
    step s = .next { s with result := .absent, moves := rest })
  ∧ (∀ (s : State) (r : OperandRecord) (rest : List PortMove),
      (s.moves = .presentCut r :: rest ∨ (s.moves = .host (.presentCut r) :: rest ∧ HostDuty s.host r)) →
      r.rx.length ≤ s.params.rxCap →
      step s = .next { s with op := r, result := .absent, moves := rest })
  ∧ ∀ f : ResultField, ResultRecord.absent.has f = false

/-- 92_eei_decisions.md D31, 93_implementation_defined.md ID17, 70_reset_and_hazards.md R141: a step is refused exactly for
an operand record longer than RX_CAP, and for a record that the host which keeps the contract must not present. What that host
must not present is the model's reading of R140 and R141, and that the step is then refused is its choice (DEDUCED, assumption
logs 22, 27 and 28; log 28 holds the reading that a decoder is presented only for the command delivered last). -/
def Obligations.OnlyOverlongOrForbiddenRecordsAreRefused : Prop :=
  ∀ (s : State) (e : Refusal), step s = .refused e ↔
    ∃ (r : OperandRecord) (rest : List PortMove),
      (e = .rxOverCap ∧ s.params.rxCap < r.rx.length ∧ (s.moves = .present r :: rest ∨ s.moves = .presentCut r :: rest))
      ∨ ((s.moves = .host (.present r) :: rest ∨ s.moves = .host (.presentCut r) :: rest)
        ∧ ((e = .hostContract ∧ ¬ HostDuty s.host r)
          ∨ (e = .rxOverCap ∧ HostDuty s.host r ∧ s.params.rxCap < r.rx.length)))

/-! ### The whole machine -/

/-- 10_state.md R21, R22, R25, 30_encoding.md R41, R42, 60_exceptions.md R125, R128, 44_error_code.md R121,
70_reset_and_hazards.md R141 (what is delivered is a frame the block built): the invariant of
Safety.lean holds after every step from a state where it holds. -/
def Obligations.StepKeepsTheInvariant : Prop :=
  ∀ s t : State, s.Inv → step s = .next t → t.Inv

/-- 10_state.md R25, 44_error_code.md R121: the invariant holds after reset. Its clause that nothing but built frames has been
written to the device holds because nothing has been written at reset, which is the model's choice (DESIGN CHOICE, assumption
log 29). -/
def Obligations.ResetMeetsTheInvariant : Prop :=
  State.reset.Inv

/-- 20_memory.md R27, 70_reset_and_hazards.md R145: every operation presented completes, on every operand and in every
state; no read of `rx` past its end is reached. -/
def Obligations.PresentedOperationsComplete : Prop :=
  ∀ (s : State) (r : OperandRecord) (rest : List PortMove),
    s.presents r rest → r.rx.length ≤ s.params.rxCap → ∃ t, step s = .next t

/-- 10_state.md R13, R17, R20: an operation changes nothing but the result port. -/
def Obligations.OperationsWriteOnlyTheResultPort : Prop :=
  ∀ (i : Instr) (s t : State), exec i s = .next t →
    t.params = s.params ∧ t.op = s.op ∧ t.moves = s.moves ∧ t.host = s.host

/-- 10_state.md R17, R18, 70_reset_and_hazards.md R139, R141: no step changes a parameter. A presented operation changes of
the host's data only the cache, and that only when a DEC.STATUS succeeds, to that value's counts. A delivery writes the
`tx` of the result port to the device unchanged, drains the bytes received before and awaits the reply of that frame's
command; received bytes are put behind those already there; and every other event leaves the host's data as they are. That
a host is modelled at all, with these data, is the model's choice (DEDUCED, assumption logs 22, 28, 29), and so is that it delivers
from the result port, keeping no copy (DESIGN CHOICE, assumption log 30). -/
def Obligations.HostDataChangesOnlyAsItsMovesSay : Prop :=
  (∀ s t : State, step s = .next t → t.params = s.params)
  ∧ (∀ (s t : State) (r : OperandRecord) (rest : List PortMove), s.presents r rest → step s = .next t →
      (∃ cache, t.host = { s.host with cache := cache })
      ∧ (∀ v, t.result.value = some (.status v) → decode r.cw = .ok .decStatus
        ∧ t.host.cache = some { cells := v.cells, temperatureSensors := v.temperatureSensors })
      ∧ ((∀ v, t.result.value ≠ some (.status v)) → t.host = s.host))
  ∧ (∀ (s : State) (rest : List PortMove) (f : Frame), s.moves = .host .deliver :: rest → s.result.tx = some f →
      step s = .next { s with
        moves := rest
        host := { cache := s.host.cache, awaiting := commandOfId f[2], received := [], sent := s.host.sent ++ [f] } })
  ∧ (∀ (s : State) (rest : List PortMove) (bytes : List Byte), s.moves = .host (.receive bytes) :: rest →
      step s = .next { s with moves := rest, host := { s.host with received := s.host.received ++ bytes } })
  ∧ ∀ (s t : State), (∀ r rest, ¬ s.presents r rest) → (∀ rest, s.moves ≠ .host .deliver :: rest) →
      (∀ bytes rest, s.moves ≠ .host (.receive bytes) :: rest) → step s = .next t → t.host = s.host

/-- 20_memory.md R36, 10_state.md R13: what a presented operation results in does not depend on the result port, the host's
data, the operands of earlier operations, who presents it or what comes next: two machines with the same parameters that are presented the same
record end with the same result record. -/
def Obligations.EarlierOperationsLeaveNoTrace : Prop :=
  ∀ (s s' : State) (r : OperandRecord) (rest rest' : List PortMove),
    s.params = s'.params → s.presents r rest → s'.presents r rest' →
    r.rx.length ≤ s.params.rxCap →
    ∃ t t', step s = .next t ∧ step s' = .next t' ∧ t.result = t'.result

/-- 30_encoding.md R48, 10_state.md R19: an operand not listed for an operation does not affect the result. -/
def Obligations.UnlistedOperandsAreIgnored : Prop :=
  ∀ (i : Instr) (s s' : State), s.params = s'.params → (∀ f ∈ operandsRead i, agreeOn s.op s'.op f) →
    ∃ rec, exec i s = .next (s.setResult rec) ∧ exec i s' = .next (s'.setResult rec)

/-- 10_state.md R21, 30_encoding.md R48: a successful operation writes status OK and the one field listed for it, and
nothing else. -/
def Obligations.SuccessWritesTheListedField : Prop :=
  ∀ (i : Instr) (s t : State), exec i s = .next t → t.result.status = some .ok →
    ∀ f : ResultField, t.result.has f = true ↔ (f = .status ∨ resultFieldOf i = some f)

/-- 60_exceptions.md R128: an operation that fails, a word that is no operation among them, writes status and info to its
result record and changes nothing else. -/
def Obligations.FailureWritesOnlyStatusAndInfo : Prop :=
  ∀ (s t : State) (r : OperandRecord) (rest : List PortMove),
    s.presents r rest → step s = .next t → t.result.status ≠ some .ok →
    ∃ e : Info, t = { s with
      op := r
      result :=
        { status := some e.status, info := some e, tx := none, size := none, sum := none, fields := none, value := none }
      moves := rest }

/-- 60_exceptions.md R124, column "raised by": each operation ends with OK or one of its own statuses. -/
def Obligations.OperationsRaiseOnlyTheirStatuses : Prop :=
  ∀ (i : Instr) (s t : State), exec i s = .next t →
    ∃ c, t.result.status = some c ∧ (c = .ok ∨ c ∈ mayRaise i)

/-- 60_exceptions.md R124: the eight codes; R126: which of them are spec faults. -/
def Obligations.StatusCodesAsListed : Prop :=
  StatusCode.code .ok = 0x00 ∧ StatusCode.code .replySizeError = 0x01 ∧ StatusCode.code .checksumError = 0x02
  ∧ StatusCode.code .frameNoError = 0x03 ∧ StatusCode.code .illegalOperation = 0x10
  ∧ StatusCode.code .countOutOfRange = 0x11 ∧ StatusCode.code .fieldOutOfRange = 0x12
  ∧ StatusCode.code .emptyBuffer = 0x13
  ∧ ∀ c : StatusCode, c.isSpecFault = true ↔
      c = .illegalOperation ∨ c = .countOutOfRange ∨ c = .fieldOutOfRange ∨ c = .emptyBuffer

/-! ### Reading received bytes -/

/-- 20_memory.md R27, R30, 00_scope.md R10: multi-byte fields are big-endian, and a read that does not fit in the buffer
faults. -/
def Obligations.FieldsAreBigEndian : Prop :=
  ∀ (rx : List Byte) (a : Nat),
    (a + 2 ≤ rx.length → be16 rx a = .ok ((byteAt rx a).toNat * 256 + (byteAt rx (a + 1)).toNat))
    ∧ (rx.length < a + 2 → be16 rx a = .error (.faulted .rxOutOfRange))
    ∧ (a + 4 ≤ rx.length → be32 rx a = .ok ((byteAt rx a).toNat * 2 ^ 24 + (byteAt rx (a + 1)).toNat * 2 ^ 16
        + (byteAt rx (a + 2)).toNat * 2 ^ 8 + (byteAt rx (a + 3)).toNat))
    ∧ (rx.length < a + 4 → be32 rx a = .error (.faulted .rxOutOfRange))

/-- 20_memory.md R28: bytes at or beyond the length an operation requires are never read. -/
def Obligations.TrailingBytesAreNeverRead : Prop :=
  ∀ (i : Instr) (s : State) (n : Nat) (extra : List Byte), requiredLength s.op i = some n → n ≤ s.op.rx.length →
    ∃ rec, exec i s = .next (s.setResult rec)
      ∧ exec i { s with op := { s.op with rx := s.op.rx ++ extra } }
          = .next ({ s with op := { s.op with rx := s.op.rx ++ extra } }.setResult rec)

/-- 40_frame_checksum.md R56, 60_exceptions.md R127: a buffer shorter than the required length ends with ReplySizeError
before any byte is looked at; only DEC.BAL's count check comes first. -/
def Obligations.ShortBuffersAreRejectedFirst : Prop :=
  ∀ (i : Instr) (s : State) (n : Nat), requiredLength s.op i = some n → s.op.rx.length < n →
    (i = .decBal → s.op.count.toNat ≤ 48) →
    exec i s = .next (s.setResult (.failed (.replySize n s.op.rx.length)))

/-- 30_encoding.md R43, R49, R51, 42_decoders.md R95: a single-frame decoder's result depends, for valid replies, on the
bytes of its layout and on nothing else of the buffer: not the header, not the bytes marked "not read", not the rest. -/
def Obligations.SingleDecodersReadOnlyTheirLayout : Prop :=
  ∀ (i : Instr) (s s' : State), i ∈ singleFrameDecoders → s.params = s'.params → s.op.count = s'.op.count →
    ValidReply s.op.rx → ValidReply s'.op.rx →
    (∀ k ∈ replyOffsets i, byteAt s.op.rx k = byteAt s'.op.rx k) →
    ∃ rec, exec i s = .next (s.setResult rec) ∧ exec i s' = .next (s'.setResult rec)

/-! ### Frame and checksum -/

/-- 40_frame_checksum.md R55: the 8-bit sum, wrapping at the end or at every addition; the empty sum; a frame's checksum is
that of its bytes 0 to 11, in the frames built and in the check of a frame. -/
def Obligations.ChecksumIsSumModulo256 : Prop :=
  (∀ s : List Byte, (sum8 s).toNat = (s.map BitVec.toNat).sum % 256 ∧ sum8 s = s.foldl (fun a b => a + b) 0)
  ∧ sum8 [] = 0
  ∧ (∀ (cmd : Byte) (p : Payload), (buildFrame cmd p)[12] = sum8 ((buildFrame cmd p).toList.take 12))
  ∧ ∀ (f : Frame) (i : Byte), checkWindow f.toList 0 i = .ok () ↔ f[12] = sum8 (f.toList.take 12)

/-- 40_frame_checksum.md R60: the word, the frame byte by byte, and that BUILD never fails. -/
def Obligations.BuildWritesTheFrame : Prop :=
  ∀ (cmd : Byte) (s : State), encode (.build cmd) = 0x10#8 ++ cmd
    ∧ ∃ t : Frame, exec (.build cmd) s = .next (s.setResult (.okTx t))
      ∧ t.toList = [0xA5, 0x40, cmd, 0x08] ++ s.op.payload.toList
          ++ [sum8 ([0xA5, 0x40, cmd, 0x08] ++ s.op.payload.toList)]

/-- 40_frame_checksum.md R78: every frame an operation produces passes the checksum check, as a window and through VCKS. -/
def Obligations.ProducedFramesPassTheCheck : Prop :=
  ∀ (i : Instr) (s t : State) (f : Frame), exec i s = .next t → t.result.tx = some f →
    sum8 (f.toList.take 12) = f[12]
    ∧ checkWindow f.toList 0 1 = .ok ()
    ∧ ∀ u : State, u.op.rx = f.toList → exec .vcks u = .next (u.setResult .done)

/-- 40_frame_checksum.md R79: one changed byte of a valid window is caught; two changes that cancel are not. -/
def Obligations.OneCorruptByteIsCaught : Prop :=
  ∀ (rx : List Byte) (base : Nat) (i : Byte), ValidWindow rx base →
    (∀ (k : Nat) (b : Byte), k < 13 → b ≠ byteAt rx (base + k) →
      ∃ c r, c ≠ r ∧ checkWindow (rx.set (base + k) b) base i = raise (.checksum i c r))
    ∧ ∀ (j k : Nat) (d : Byte), j < 12 → k < 12 → j ≠ k →
      checkWindow ((rx.set (base + j) (byteAt rx (base + j) + d)).set (base + k) (byteAt rx (base + k) - d)) base i = .ok ()

/-- 40_frame_checksum.md R61. -/
def Obligations.CksumSumsAllButTheLastByte : Prop :=
  encode .cksum = 0x1100#16
  ∧ ∀ s : State,
    (s.op.rx.length = 0 → exec .cksum s = .next (s.setResult (.failed .emptyBuffer)))
    ∧ (s.op.rx.length ≠ 0 → exec .cksum s = .next (s.setResult (.okSum (sum8 (s.op.rx.take (s.op.rx.length - 1))))))

/-- 40_frame_checksum.md R62. -/
def Obligations.VlenComparesTheLength : Prop :=
  encode .vlen = 0x1200#16
  ∧ ∀ s : State,
    (s.op.rx.length < s.op.required.toNat →
      exec .vlen s = .next (s.setResult (.failed (.replySize s.op.required.toNat s.op.rx.length))))
    ∧ (s.op.required.toNat ≤ s.op.rx.length → exec .vlen s = .next (s.setResult .done))

/-- 40_frame_checksum.md R63, R57. -/
def Obligations.VcksChecksTheWholeBuffer : Prop :=
  encode .vcks = 0x1300#16
  ∧ ∀ s : State,
    (s.op.rx = [] → exec .vcks s = .next (s.setResult (.failed .emptyBuffer)))
    ∧ ∀ (body : List Byte) (last : Byte), s.op.rx = body ++ [last] →
      (sum8 body = last → exec .vcks s = .next (s.setResult .done))
      ∧ (sum8 body ≠ last → exec .vcks s = .next (s.setResult (.failed (.checksum 0 (sum8 body) last))))

/-- 40_frame_checksum.md R64, R59. -/
def Obligations.ParseSplitsTheWindow : Prop :=
  encode .parse = 0x1400#16
  ∧ ∀ s : State, let rx := s.op.rx; let b := s.op.base.toNat
    (rx.length < b + 13 → exec .parse s = .next (s.setResult (.failed (.replySize (b + 13) rx.length))))
    ∧ (b + 13 ≤ rx.length → exec .parse s = .next (s.setResult (.okFields
        { start := byteAt rx b, address := byteAt rx (b + 1), command := byteAt rx (b + 2), dataLen := byteAt rx (b + 3),
          payload := #v[byteAt rx (b + 4), byteAt rx (b + 5), byteAt rx (b + 6), byteAt rx (b + 7), byteAt rx (b + 8),
            byteAt rx (b + 9), byteAt rx (b + 10), byteAt rx (b + 11)],
          checksum := byteAt rx (b + 12), computed := sum8 ((rx.drop b).take 12),
          checksumOk := decide (sum8 ((rx.drop b).take 12) = byteAt rx (b + 12)) })))

/-! ### Reply sizes -/

/-- 40_frame_checksum.md R65 to R69, R72 to R77: the eleven fixed reply sizes. -/
def Obligations.FixedReplySizesAreThirteen : Prop :=
  ∀ (i : Instr) (cw : Half),
    (i, cw) ∈ [(Instr.rszSoc, 0x0390#16), (.rszCvr, 0x0391#16), (.rszTr, 0x0392#16), (.rszMos, 0x0393#16),
      (.rszStatus, 0x0394#16), (.rszBal, 0x0397#16), (.rszErr, 0x0398#16), (.rszSetdmos, 0x03D9#16),
      (.rszSetcmos, 0x03DA#16), (.rszSetsoc, 0x0321#16), (.rszReset, 0x0300#16)] →
    encode i = cw ∧ ∀ s : State, exec i s = .next (s.setResult (.okSize 13))

/-- 40_frame_checksum.md R70, R71, 43_multiframe.md R112: the counted reply sizes, `n` the least number of frames that holds
`count` values. -/
def Obligations.CountedReplySizes : Prop :=
  encode .rszCellv = 0x0395#16 ∧ encode .rszCellt = 0x0396#16
  ∧ ∀ (s : State) (n : Nat),
    (s.op.count.toNat ≤ 3 * n → 3 * n < s.op.count.toNat + 3 →
      exec .rszCellv s = .next (s.setResult (.okSize (13 * n))))
    ∧ (s.op.count.toNat ≤ 7 * n → 7 * n < s.op.count.toNat + 7 →
      exec .rszCellt s = .next (s.setResult (.okSize (13 * n))))

/-! ### Requests -/

/-- 41_requests.md R82 to R90 and R94: the ten requests with no payload, every byte. -/
def Obligations.PlainRequestFrames : Prop :=
  ∀ (i : Instr) (cw : Half) (f : Frame),
    (i, cw, f) ∈ [
      (Instr.reqSoc, 0x0190#16, (#v[0xA5, 0x40, 0x90, 0x08, 0, 0, 0, 0, 0, 0, 0, 0, 0x7D] : Frame)),
      (.reqCvr, 0x0191#16, #v[0xA5, 0x40, 0x91, 0x08, 0, 0, 0, 0, 0, 0, 0, 0, 0x7E]),
      (.reqTr, 0x0192#16, #v[0xA5, 0x40, 0x92, 0x08, 0, 0, 0, 0, 0, 0, 0, 0, 0x7F]),
      (.reqMos, 0x0193#16, #v[0xA5, 0x40, 0x93, 0x08, 0, 0, 0, 0, 0, 0, 0, 0, 0x80]),
      (.reqStatus, 0x0194#16, #v[0xA5, 0x40, 0x94, 0x08, 0, 0, 0, 0, 0, 0, 0, 0, 0x81]),
      (.reqCellv, 0x0195#16, #v[0xA5, 0x40, 0x95, 0x08, 0, 0, 0, 0, 0, 0, 0, 0, 0x82]),
      (.reqCellt, 0x0196#16, #v[0xA5, 0x40, 0x96, 0x08, 0, 0, 0, 0, 0, 0, 0, 0, 0x83]),
      (.reqBal, 0x0197#16, #v[0xA5, 0x40, 0x97, 0x08, 0, 0, 0, 0, 0, 0, 0, 0, 0x84]),
      (.reqErr, 0x0198#16, #v[0xA5, 0x40, 0x98, 0x08, 0, 0, 0, 0, 0, 0, 0, 0, 0x85]),
      (.reqReset, 0x0100#16, #v[0xA5, 0x40, 0x00, 0x08, 0, 0, 0, 0, 0, 0, 0, 0, 0xED])] →
    encode i = cw ∧ ∀ s : State, exec i s = .next (s.setResult (.okTx f))

/-- 41_requests.md R91, R92: the two set-MOSFET requests, both flag values. -/
def Obligations.SetMosfetRequestFrames : Prop :=
  encode .reqSetdmos = 0x01D9#16 ∧ encode .reqSetcmos = 0x01DA#16
  ∧ ∀ s : State,
    (s.op.flag = true →
      exec .reqSetdmos s = .next (s.setResult (.okTx #v[0xA5, 0x40, 0xD9, 0x08, 0x01, 0, 0, 0, 0, 0, 0, 0, 0xC7]))
      ∧ exec .reqSetcmos s = .next (s.setResult (.okTx #v[0xA5, 0x40, 0xDA, 0x08, 0x01, 0, 0, 0, 0, 0, 0, 0, 0xC8])))
    ∧ (s.op.flag = false →
      exec .reqSetdmos s = .next (s.setResult (.okTx #v[0xA5, 0x40, 0xD9, 0x08, 0x00, 0, 0, 0, 0, 0, 0, 0, 0xC6]))
      ∧ exec .reqSetcmos s = .next (s.setResult (.okTx #v[0xA5, 0x40, 0xDA, 0x08, 0x00, 0, 0, 0, 0, 0, 0, 0, 0xC7])))

/-- 41_requests.md R93: bytes 10 and 11 are the encoded percent, big-endian; the rest of the payload is zero. -/
def Obligations.SetSocRequestFrame : Prop :=
  encode .reqSetsoc = 0x0121#16
  ∧ ∀ s : State, ∃ hi lo : Byte, hi.toNat * 256 + lo.toNat = socEncode s.params.floatFmt s.op.percent
    ∧ exec .reqSetsoc s = .next (s.setResult (.okTx
        #v[0xA5, 0x40, 0x21, 0x08, 0, 0, 0, 0, 0, 0, hi, lo, 0x0E + hi + lo]))

/-- 41_requests.md R81: NaN gives 0; the code lies in 0 to 1000; for every other percent it equals the document's form,
which multiplies and rounds first and clamps the integer after. In units (`f.one` of them make 1.0), a percent below zero
rounds to at most 0. And `roundHalfAway` is R81's rounding: to the nearest integer, a tie upwards, which is away from zero
for what is not negative. -/
def Obligations.SocEncodingEqualsItsClampedForm : Prop :=
  (∀ (f : FloatFmt) (p : FloatBits),
    socEncode f p ≤ 1000
    ∧ (floatVal f p = .nan → socEncode f p = 0)
    ∧ (floatVal f p = .inf false → socEncode f p = 1000)
    ∧ (floatVal f p = .inf true → socEncode f p = 0)
    ∧ (∀ u, floatVal f p = .finite true u → socEncode f p = 0)
    ∧ ∀ u, floatVal f p = .finite false u →
        socEncode f p = min (roundHalfAway (unitsOf f (roundMag f (u * 10) f.one)) f.one) 1000)
  ∧ ∀ a b : Nat, 0 < b →
      2 * roundHalfAway a b * b ≤ 2 * a + b ∧ 2 * a + b < 2 * (roundHalfAway a b + 1) * b

/-- 30_encoding.md R54: the ten plain requests equal BUILD with their id and a zero payload. -/
def Obligations.PlainRequestsEqualBuild : Prop :=
  ∀ (i : Instr) (id : Byte),
    (i, id) ∈ [(Instr.reqSoc, 0x90#8), (.reqCvr, 0x91#8), (.reqTr, 0x92#8), (.reqMos, 0x93#8), (.reqStatus, 0x94#8),
      (.reqCellv, 0x95#8), (.reqCellt, 0x96#8), (.reqBal, 0x97#8), (.reqErr, 0x98#8), (.reqReset, 0x00#8)] →
    ∀ s s' : State, s'.op.payload = #v[0, 0, 0, 0, 0, 0, 0, 0] →
      ∃ f : Frame, exec i s = .next (s.setResult (.okTx f)) ∧ exec (.build id) s' = .next (s'.setResult (.okTx f))

/-! ### Field decoding -/

/-- 00_scope.md R11: `roundMag` gives the pattern of the value nearest to `num / den`: no finite value of the format is
nearer; where another is as near, the pattern chosen is even; and the result is infinity exactly from half a unit in the
last place above the greatest finite value on. Distances are taken in units, times `den`. `toF` gives that value with the
sign it is given; and the patterns that are no number are those IEEE 754 names. That a pattern stands in the low bits of a
64-bit container, which alone are read back, is the model's choice (DESIGN CHOICE, assumption log 8): it is what the clauses
about the width of `toF` and about the bits of a pattern speak of. -/
def Obligations.RoundingIsToNearestEven : Prop :=
  (∀ (f : FloatFmt) (num den : Nat), 0 < den →
    (roundMag f num den < f.infMag → ∀ m, m < f.infMag →
      ((unitsOf f (roundMag f num den) * den : Int) - num * f.one).natAbs
          ≤ ((unitsOf f m * den : Int) - num * f.one).natAbs
      ∧ (m ≠ roundMag f num den →
          ((unitsOf f m * den : Int) - num * f.one).natAbs
            = ((unitsOf f (roundMag f num den) * den : Int) - num * f.one).natAbs →
          roundMag f num den % 2 = 0))
    ∧ (roundMag f num den ≤ f.infMag)
    ∧ (roundMag f num den = f.infMag ↔
        (2 ^ (f.fracBits + 2) - 1) * 2 ^ (2 ^ f.expBits - 4) * den ≤ num * f.one)
    ∧ ∀ neg : Bool,
        (roundMag f num den = f.infMag → floatVal f (toF f neg num den) = .inf neg)
        ∧ (roundMag f num den ≠ f.infMag →
            floatVal f (toF f neg num den) = .finite neg (unitsOf f (roundMag f num den)))
        ∧ (toF f neg num den).toNat < 2 ^ (1 + f.expBits + f.fracBits))
  ∧ ∀ (f : FloatFmt) (b : FloatBits),
      floatVal f b = .nan ↔
        b.toNat / 2 ^ f.fracBits % 2 ^ f.expBits = 2 ^ f.expBits - 1 ∧ b.toNat % 2 ^ f.fracBits ≠ 0

/-- 42_decoders.md R98: the temperature offset, exact up to byte 167; from 168 on TEMP_NARROW decides. -/
def Obligations.TemperatureNarrowing : Prop :=
  ∀ (narrow : TempNarrow) (n offset : Byte),
    (n.toNat ≤ 167 → ∃ t, tempOf narrow n offset = .ok t ∧ t.toInt = (n.toNat : Int) - 40)
    ∧ (168 ≤ n.toNat → narrow = .wrap → ∃ t, tempOf narrow n offset = .ok t ∧ t.toInt = (n.toNat : Int) - 40 - 256)
    ∧ (168 ≤ n.toNat → narrow = .fault → tempOf narrow n offset = raise (.fieldOutOfRange offset n))

/-- 42_decoders.md R99: byte booleans; 20_memory.md R31: bit booleans are least significant bit first. -/
def Obligations.BooleansOfBytesAndBits : Prop :=
  (∀ (other : BoolByteOther) (offset : Byte),
    byteBool other 0x00 offset = .ok false
    ∧ byteBool other 0x01 offset = .ok true
    ∧ ∀ n : Byte, 2 ≤ n.toNat →
      (other = .true → byteBool other n offset = .ok true)
      ∧ (other = .fault → byteBool other n offset = raise (.fieldOutOfRange offset n)))
  ∧ ∀ (b : Byte) (p : Nat), bitOf b p = decide (b.toNat / 2 ^ p % 2 = 1)

/-! ### Single-frame decoders -/

/-- What a single-frame decoder does (42_decoders.md R95): a short buffer, then a wrong checksum, then its fields; `good` is
the record it writes for a valid reply. -/
def Sys2Proof.Machine.decodesFrame (i : Instr) (s : State) (good : ResultRecord) : Prop :=
  (s.op.rx.length < 13 → exec i s = .next (s.setResult (.failed (.replySize 13 s.op.rx.length))))
  ∧ (13 ≤ s.op.rx.length → windowSum s.op.rx 0 ≠ byteAt s.op.rx 12 →
      exec i s = .next (s.setResult (.failed (.checksum 1 (windowSum s.op.rx 0) (byteAt s.op.rx 12)))))
  ∧ (ValidReply s.op.rx → exec i s = .next (s.setResult good))

/-- 42_decoders.md R101, with R95, R96, R97. -/
def Obligations.DecSocValue : Prop :=
  encode .decSoc = 0x0290#16
  ∧ ∀ s : State, decodesFrame .decSoc s (.okValue (.soc
      { totalVoltage := toF s.params.floatFmt false (field16 s.op.rx 4) 10
        current := toF s.params.floatFmt (decide (field16 s.op.rx 8 < 30000))
          ((field16 s.op.rx 8 : Int) - 30000).natAbs 10
        socPercent := toF s.params.floatFmt false (field16 s.op.rx 10) 10 }))

/-- 42_decoders.md R102 (assumption log 13: the layout is the spec's own, D8). -/
def Obligations.DecCvrValue : Prop :=
  encode .decCvr = 0x0291#16
  ∧ ∀ s : State, decodesFrame .decCvr s (.okValue (.cellVoltageRange
      { highestVoltage := toF s.params.floatFmt false (field16 s.op.rx 4) 1000
        highestCell := byteAt s.op.rx 6
        lowestVoltage := toF s.params.floatFmt false (field16 s.op.rx 7) 1000
        lowestCell := byteAt s.op.rx 9 }))

/-- 42_decoders.md R103, R98, R100 (assumption log 13: the layout is the spec's own, D9). Temperatures are `raw - 40` kept to
8 bits. -/
def Obligations.DecTrValue : Prop :=
  encode .decTr = 0x0292#16
  ∧ ∀ s : State, let hi := byteAt s.op.rx 4; let lo := byteAt s.op.rx 6
    decodesFrame .decTr s
      (if s.params.tempNarrow = .fault ∧ 168 ≤ hi.toNat then .failed (.fieldOutOfRange 4 hi)
      else if s.params.tempNarrow = .fault ∧ 168 ≤ lo.toNat then .failed (.fieldOutOfRange 6 lo)
      else .okValue (.temperatureRange
        { highestTemperature := BitVec.ofInt 8 ((hi.toNat : Int) - 40), highestSensor := byteAt s.op.rx 5
          lowestTemperature := BitVec.ofInt 8 ((lo.toNat : Int) - 40), lowestSensor := byteAt s.op.rx 7 }))

/-- 42_decoders.md R104, R99, R100 (assumption log 13: the layout, the mode codes and the unit are the spec's own, D10, D11).
The capacity is rounded to the format, then divided and rounded again. -/
def Obligations.DecMosValue : Prop :=
  encode .decMos = 0x0293#16
  ∧ ∀ s : State, let m := byteAt s.op.rx 4; let c := byteAt s.op.rx 5; let d := byteAt s.op.rx 6
    let f := s.params.floatFmt
    ∀ mode : MosfetMode,
    (3 ≤ m.toNat → decodesFrame .decMos s (.failed (.fieldOutOfRange 4 m)))
    ∧ ((m = 0 ∧ mode = .stationary ∨ m = 1 ∧ mode = .charging ∨ m = 2 ∧ mode = .discharging) →
      decodesFrame .decMos s
        (if s.params.boolByteOther = .fault ∧ 2 ≤ c.toNat then .failed (.fieldOutOfRange 5 c)
        else if s.params.boolByteOther = .fault ∧ 2 ≤ d.toNat then .failed (.fieldOutOfRange 6 d)
        else .okValue (.mosfetStatus
          { mode := mode, chargingMosfet := decide (c ≠ 0), dischargingMosfet := decide (d ≠ 0)
            bmsCycles := byteAt s.op.rx 7
            capacityAh := toF f false (unitsOf f (roundMag f (field32 s.op.rx 8) 1)) (1000 * f.one) })))

/-- 42_decoders.md R105, R99, R100 (the io-state names: assumption log 14, D7). -/
def Obligations.DecStatusValue : Prop :=
  encode .decStatus = 0x0294#16
  ∧ ∀ s : State, let c := byteAt s.op.rx 6; let l := byteAt s.op.rx 7; let io := byteAt s.op.rx 8
    decodesFrame .decStatus s
      (if s.params.boolByteOther = .fault ∧ 2 ≤ c.toNat then .failed (.fieldOutOfRange 6 c)
      else if s.params.boolByteOther = .fault ∧ 2 ≤ l.toNat then .failed (.fieldOutOfRange 7 l)
      else .okValue (.status
        { cells := byteAt s.op.rx 4, temperatureSensors := byteAt s.op.rx 5
          chargerRunning := decide (c ≠ 0), loadRunning := decide (l ≠ 0)
          ioState := { di1 := io.getLsbD 0, di2 := io.getLsbD 1, di3 := io.getLsbD 2, di4 := io.getLsbD 3
                       do1 := io.getLsbD 4, do2 := io.getLsbD 5, do3 := io.getLsbD 6, do4 := io.getLsbD 7 }
          cycles := byteAt s.op.rx 9 ++ byteAt s.op.rx 10 }))

/-- 42_decoders.md R106: the count is checked before the buffer; cell k is bit `k mod 8` of byte `4 + floor(k / 8)`. -/
def Obligations.DecBalValue : Prop :=
  encode .decBal = 0x0297#16
  ∧ ∀ s : State,
    (48 < s.op.count.toNat → exec .decBal s = .next (s.setResult (.failed (.countOutOfRange s.op.count 48))))
    ∧ (s.op.count.toNat ≤ 48 → decodesFrame .decBal s (.okValue (.balancingState
        ((List.range s.op.count.toNat).map fun k => (byteAt s.op.rx (4 + k / 8)).getLsbD (k % 8)))))

/-- 42_decoders.md R107 to R111: the four acknowledgement decoders. -/
def Obligations.AcknowledgementDecoders : Prop :=
  ∀ (i : Instr) (cw : Half),
    (i, cw) ∈ [(Instr.decSetdmos, 0x02D9#16), (.decSetcmos, 0x02DA#16), (.decSetsoc, 0x0221#16), (.decReset, 0x0200#16)] →
    encode i = cw ∧ ∀ s : State, decodesFrame i s (.okValue .ack)

/-! ### Error codes -/

/-- 44_error_code.md R122: the names of the table's entries whose bit is set, in table order. -/
def Obligations.DecErrNamesSetBits : Prop :=
  encode .decErr = 0x0298#16
  ∧ ∀ s : State, decodesFrame .decErr s (.okValue (.errorCode
      ((s.params.errorTable.filter fun e => (byteAt s.op.rx (4 + e.byteIndex.val)).getLsbD e.bit.val).map
        fun e => e.name)))

/-- 44_error_code.md R123: an entry that precedes another in the table precedes it in the output, whatever their offsets and
bits; R121, R122: with a well-formed table no name is given twice. -/
def Obligations.ErrorNamesKeepTableOrder : Prop :=
  ∀ (s t : State) (names : List String), exec .decErr s = .next t → t.result.value = some (.errorCode names) →
    (∀ a b : ErrorEntry, [a, b].Sublist s.params.errorTable →
      (byteAt s.op.rx (4 + a.byteIndex.val)).getLsbD a.bit.val = true →
      (byteAt s.op.rx (4 + b.byteIndex.val)).getLsbD b.bit.val = true → [a.name, b.name].Sublist names)
    ∧ (s.params.wellFormed = true → names.Nodup ∧ names.length ≤ 44)

/-! ### Multi-frame decoders -/

/-- 43_multiframe.md R117, R113, R115: a valid reply gives exactly `count` voltages, value k from lane `k mod 3` of frame
`k / 3` (0-based), millivolts. -/
def Obligations.DecCellvValues : Prop :=
  encode .decCellv = 0x0295#16
  ∧ ∀ (s : State) (n : Nat), s.op.count.toNat ≤ 3 * n → 3 * n < s.op.count.toNat + 3 → ValidFrames s.op.rx n →
    exec .decCellv s = .next (s.setResult (.okValue (.cellVoltages
      ((List.range s.op.count.toNat).map fun k =>
        toF s.params.floatFmt false (field16 s.op.rx (13 * (k / 3) + 5 + 2 * (k % 3))) 1000))))

/-- 43_multiframe.md R118, R113, R115, 42_decoders.md R98: a valid reply gives exactly `count` temperatures, value k from lane
`k mod 7` of frame `k / 7` (0-based). Where TEMP_NARROW is `fault`, the first byte of 168 or more is reported instead, with
its frame-relative offset, as soon as the frames up to its own are good: nothing is asked of the frames after it (R127 (5')). -/
def Obligations.DecCelltValues : Prop :=
  encode .decCellt = 0x0296#16
  ∧ ∀ (s : State) (n : Nat), s.op.count.toNat ≤ 7 * n → 7 * n < s.op.count.toNat + 7 →
    let raw := fun k => byteAt s.op.rx (13 * (k / 7) + 5 + k % 7)
    (ValidFrames s.op.rx n → (s.params.tempNarrow = .wrap ∨ ∀ k, k < s.op.count.toNat → (raw k).toNat ≤ 167) →
      exec .decCellt s = .next (s.setResult (.okValue (.cellTemperatures
        ((List.range s.op.count.toNat).map fun k => BitVec.ofInt 8 (((raw k).toNat : Int) - 40))))))
    ∧ (13 * n ≤ s.op.rx.length → s.params.tempNarrow = .fault →
        ∀ k, k < s.op.count.toNat → (∀ i, 1 ≤ i → i ≤ k / 7 + 1 → GoodFrame s.op.rx i) →
        168 ≤ (raw k).toNat → (∀ j, j < k → (raw j).toNat ≤ 167) →
        exec .decCellt s = .next (s.setResult (.failed (.fieldOutOfRange (BitVec.ofNat 8 (5 + k % 7)) (raw k)))))

/-- 43_multiframe.md R113, R114, 60_exceptions.md R127 (5'): the first frame that is wrong decides, its sequence byte before
its checksum; later frames are not looked at. For CELLT the values of the earlier frames must not fault (where one does,
`DecCelltValues` says that it is reported). -/
def Obligations.FirstWrongFrameDecides : Prop :=
  ∀ (d : Instr) (cap : Nat) (s : State) (n i : Nat),
    (d, cap) ∈ [(Instr.decCellv, 3), (.decCellt, 7)] →
    s.op.count.toNat ≤ cap * n → cap * n < s.op.count.toNat + cap → 13 * n ≤ s.op.rx.length →
    1 ≤ i → i ≤ n → (∀ j, 1 ≤ j → j < i → GoodFrame s.op.rx j) →
    (d = .decCellt → s.params.tempNarrow = .wrap
      ∨ ∀ k, k < 7 * (i - 1) → (byteAt s.op.rx (13 * (k / 7) + 5 + k % 7)).toNat ≤ 167) →
    let base := 13 * (i - 1)
    ((byteAt s.op.rx (base + 4)).toNat ≠ i →
      exec d s = .next (s.setResult (.failed (.frameNo (BitVec.ofNat 8 i) (byteAt s.op.rx (base + 4))))))
    ∧ ((byteAt s.op.rx (base + 4)).toNat = i → windowSum s.op.rx base ≠ byteAt s.op.rx (base + 12) →
      exec d s = .next (s.setResult (.failed
        (.checksum (BitVec.ofNat 8 i) (windowSum s.op.rx base) (byteAt s.op.rx (base + 12))))))

/-- 43_multiframe.md R119: two frames of a valid reply exchanged give FrameNoError at the first of them; for CELLT the values
of the frames before it must not fault. -/
def Obligations.ExchangedFramesAreRejected : Prop :=
  ∀ (d : Instr) (cap : Nat) (s : State) (rx : List Byte) (n i j : Nat),
    (d, cap) ∈ [(Instr.decCellv, 3), (.decCellt, 7)] →
    s.op.count.toNat ≤ cap * n → cap * n < s.op.count.toNat + cap → ValidFrames rx n →
    1 ≤ i → i < j → j ≤ n → s.op.rx.length = rx.length →
    (∀ k, k < 13 → byteAt s.op.rx (13 * (i - 1) + k) = byteAt rx (13 * (j - 1) + k)
      ∧ byteAt s.op.rx (13 * (j - 1) + k) = byteAt rx (13 * (i - 1) + k)) →
    (∀ a, (∀ k, k < 13 → a ≠ 13 * (i - 1) + k ∧ a ≠ 13 * (j - 1) + k) → byteAt s.op.rx a = byteAt rx a) →
    (d = .decCellt → s.params.tempNarrow = .wrap
      ∨ ∀ k, k < 7 * (i - 1) → (byteAt rx (13 * (k / 7) + 5 + k % 7)).toNat ≤ 167) →
    exec d s = .next (s.setResult (.failed (.frameNo (BitVec.ofNat 8 i) (BitVec.ofNat 8 j))))

/-- 43_multiframe.md R116: with count 0 nothing is required or inspected, and the empty sequence results. -/
def Obligations.CountZeroGivesNothing : Prop :=
  ∀ s : State, s.op.count = 0 →
    exec .decCellv s = .next (s.setResult (.okValue (.cellVoltages [])))
    ∧ exec .decCellt s = .next (s.setResult (.okValue (.cellTemperatures [])))

/-- 43_multiframe.md R120: RSZ gives exactly the length the decoder requires: a buffer of that length passes the length
check, a shorter one fails it. 70_reset_and_hazards.md R141: so the host that keeps the contract, which decodes only whole
replies, never gets ReplySizeError from a decoder (the host's restriction: DEDUCED, assumption log 28). -/
def Obligations.ReplySizeIsWhatTheDecoderRequires : Prop :=
  (∀ (z d : Instr) (s : State), (z, d) ∈ [(Instr.rszCellv, Instr.decCellv), (.rszCellt, .decCellt)] →
    ∃ size, exec z s = .next (s.setResult (.okSize size))
      ∧ (s.op.rx.length < size → exec d s = .next (s.setResult (.failed (.replySize size s.op.rx.length))))
      ∧ (size ≤ s.op.rx.length → ∃ t, exec d s = .next t ∧ t.result.status ≠ some .replySizeError))
  ∧ ∀ (s t : State) (r : OperandRecord) (rest : List PortMove) (c : Command),
      s.moves = .host (.present r) :: rest → decode r.cw = .ok (decInstr c) → step s = .next t →
      t.result.status ≠ some .replySizeError

/-! ### The host -/

/-- 10_state.md R18, 70_reset_and_hazards.md R140, R141: a DEC.STATUS of a valid reply leaves its `cells` and
`temperature_sensors` in the cache (whatever its byte booleans, unless BOOL_BYTE_OTHER faults on them). The host that keeps
the contract presents no counted operation without a cached Status value or with another count than its; and a counted
operation it presents gives 13 bytes for every three cells or seven sensors of that value, or as many values as it has cells
or sensors. That the host's cache and its duty stand in the model is the model's choice (DEDUCED, assumption logs 22, 27). -/
def Obligations.StatusGatesTheCountedOperations : Prop :=
  (∀ (s : State) (r : OperandRecord) (rest : List PortMove), s.presents r rest → r.rx.length ≤ s.params.rxCap →
    r.cw = 0x0294#16 → ValidReply r.rx →
    (s.params.boolByteOther = .true ∨ ((byteAt r.rx 6).toNat ≤ 1 ∧ (byteAt r.rx 7).toNat ≤ 1)) →
    ∃ t, step s = .next t
      ∧ t.host.cache = some { cells := byteAt r.rx 4, temperatureSensors := byteAt r.rx 5 })
  ∧ ∀ (s : State) (r : OperandRecord) (rest : List PortMove) (i : Instr),
      s.moves = .host (.present r) :: rest → decode r.cw = .ok i →
      (i ∈ [Instr.rszCellv, .decCellv, .decBal] → (∀ c, s.host.cache = some c → r.count ≠ c.cells) →
        step s = .refused .hostContract)
      ∧ (i ∈ [Instr.rszCellt, .decCellt] → (∀ c, s.host.cache = some c → r.count ≠ c.temperatureSensors) →
        step s = .refused .hostContract)
      ∧ ∀ (c : StatusCounts) (t : State), s.host.cache = some c → step s = .next t →
          (i = .rszCellv → ∀ n, c.cells.toNat ≤ 3 * n → 3 * n < c.cells.toNat + 3 → t.result = .okSize (13 * n))
          ∧ (i = .rszCellt → ∀ n, c.temperatureSensors.toNat ≤ 7 * n → 7 * n < c.temperatureSensors.toNat + 7 →
              t.result = .okSize (13 * n))
          ∧ (i = .decCellv → ∀ v, t.result.value = some v → ∃ l, v = .cellVoltages l ∧ l.length = c.cells.toNat)
          ∧ (i = .decCellt → ∀ v, t.result.value = some v →
              ∃ l, v = .cellTemperatures l ∧ l.length = c.temperatureSensors.toNat)
          ∧ (i = .decBal → ∀ v, t.result.value = some v → ∃ l, v = .balancingState l ∧ l.length = c.cells.toNat)
end

