-- ==== Sys2Proof/Laws/Decode.lean ====
section
/-! SUPPORT. The tables of the operation word read in both directions. -/

namespace Sys2Proof

@[simp] theorem commandOfId_id (c : Command) : commandOfId c.id = some c := by cases c <;> rfl

@[simp] theorem opClassOfCode_code (k : OpClass) : opClassOfCode k.code = some k := by cases k <;> rfl

theorem id_of_commandOfId {b : Byte} {c : Command} (h : commandOfId b = some c) : c.id = b := by
  simpa using List.find?_some h

theorem code_of_opClassOfCode {b : Byte} {k : OpClass} (h : opClassOfCode b = some k) : k.code = b := by
  simpa using List.find?_some h

/-- A byte is no command id exactly when it is none of the table's thirteen (R45). -/
theorem commandOfId_eq_none {b : Byte} : commandOfId b = none ↔ ∀ c : Command, c.id ≠ b := by
  constructor
  · intro h c hc
    rw [← hc, commandOfId_id] at h
    exact absurd h (by simp)
  · intro h
    match hb : commandOfId b with
    | none => rfl
    | some c => exact absurd (id_of_commandOfId hb) (h c)

/-- A byte is no op class code exactly when it is none of the eight (R47). -/
theorem opClassOfCode_eq_none {b : Byte} : opClassOfCode b = none ↔ ∀ k : OpClass, k.code ≠ b := by
  constructor
  · intro h k hk
    rw [← hk, opClassOfCode_code] at h
    exact absurd h (by simp)
  · intro h
    match hb : opClassOfCode b with
    | none => rfl
    | some k => exact absurd (code_of_opClassOfCode hb) (h k)

@[simp] theorem opcOf_append (a b : Byte) : opcOf (a ++ b) = a := by
  apply BitVec.eq_of_getElem_eq
  intro i hi
  simp only [opcOf, BitVec.getElem_extractLsb']
  rw [BitVec.getLsbD_append, if_neg (by omega)]
  simp [BitVec.getLsbD_eq_getElem, hi]

@[simp] theorem cmdOf_append (a b : Byte) : cmdOf (a ++ b) = b := by
  apply BitVec.eq_of_getElem_eq
  intro i hi
  simp only [cmdOf, BitVec.getElem_extractLsb']
  rw [BitVec.getLsbD_append, if_pos (by omega)]
  simp [BitVec.getLsbD_eq_getElem, hi]

@[simp] theorem opcOf_append_cmdOf (cw : Half) : opcOf cw ++ cmdOf cw = cw := by
  apply BitVec.eq_of_getLsbD_eq
  intro i hi
  rw [BitVec.getLsbD_append]
  by_cases h : i < 8
  · simp [cmdOf, h]
  · simp [opcOf, h, show i - 8 < 8 by omega, show 8 + (i - 8) = i by omega]

@[simp] theorem opcOf_encode (i : Instr) : opcOf (encode i) = i.opClass.code := opcOf_append _ _
@[simp] theorem cmdOf_encode (i : Instr) : cmdOf (encode i) = i.lowByte := cmdOf_append _ _

end Sys2Proof
end

