-- ==== Sys2Proof/Laws/State.lean ====
section
/-! SUPPORT. What each update of the state leaves and writes, one lemma per field. -/

namespace Sys2Proof.Machine

@[simp] theorem setResult_params (s : State) (r : ResultRecord) : (s.setResult r).params = s.params := rfl
@[simp] theorem setResult_op (s : State) (r : ResultRecord) : (s.setResult r).op = s.op := rfl
@[simp] theorem setResult_result (s : State) (r : ResultRecord) : (s.setResult r).result = r := rfl
@[simp] theorem setResult_moves (s : State) (r : ResultRecord) : (s.setResult r).moves = s.moves := rfl
@[simp] theorem setResult_host (s : State) (r : ResultRecord) : (s.setResult r).host = s.host := rfl
@[simp] theorem setResult_setResult (s : State) (a b : ResultRecord) :
    (s.setResult a).setResult b = s.setResult b := rfl
@[simp] theorem setResult_self (s : State) : s.setResult s.result = s := rfl

theorem setResult_inj {s : State} {a b : ResultRecord} : s.setResult a = s.setResult b ↔ a = b :=
  ⟨fun h => congrArg State.result h, fun h => h ▸ rfl⟩

@[simp] theorem takeError_eq (s : State) (e : Info) : takeError s e = s.setResult (.failed e) := rfl
@[simp] theorem illegalOperation_eq (s : State) :
    illegalOperation s = s.setResult (.failed (.illegalOperation s.op.cw)) := rfl
@[simp] theorem resetBlock_eq (s : State) : resetBlock s = s.setResult .absent := rfl

@[simp] theorem setMoves_params (s : State) (m : List PortMove) : (s.setMoves m).params = s.params := rfl
@[simp] theorem setMoves_op (s : State) (m : List PortMove) : (s.setMoves m).op = s.op := rfl
@[simp] theorem setMoves_result (s : State) (m : List PortMove) : (s.setMoves m).result = s.result := rfl
@[simp] theorem setMoves_moves (s : State) (m : List PortMove) : (s.setMoves m).moves = m := rfl
@[simp] theorem setMoves_host (s : State) (m : List PortMove) : (s.setMoves m).host = s.host := rfl

@[simp] theorem latch_params (s : State) (r : OperandRecord) (m : List PortMove) : (s.latch r m).params = s.params := rfl
@[simp] theorem latch_op (s : State) (r : OperandRecord) (m : List PortMove) : (s.latch r m).op = r := rfl
@[simp] theorem latch_result (s : State) (r : OperandRecord) (m : List PortMove) : (s.latch r m).result = s.result := rfl
@[simp] theorem latch_moves (s : State) (r : OperandRecord) (m : List PortMove) : (s.latch r m).moves = m := rfl
@[simp] theorem latch_host (s : State) (r : OperandRecord) (m : List PortMove) : (s.latch r m).host = s.host := rfl

@[simp] theorem presenting_op (s : State) (cw : Half) : (s.presenting cw).op = s.op := rfl
@[simp] theorem presenting_moves (s : State) (cw : Half) :
    (s.presenting cw).moves = .present { s.op with cw := cw } :: s.moves := rfl

@[simp] theorem hostObserve_params (s : State) : (hostObserve s).params = s.params := rfl
@[simp] theorem hostObserve_op (s : State) : (hostObserve s).op = s.op := rfl
@[simp] theorem hostObserve_result (s : State) : (hostObserve s).result = s.result := rfl
@[simp] theorem hostObserve_moves (s : State) : (hostObserve s).moves = s.moves := rfl
@[simp] theorem hostObserve_cache (s : State) :
    (hostObserve s).host.cache = (statusCounts s.result).or s.host.cache := rfl
@[simp] theorem hostObserve_awaiting (s : State) : (hostObserve s).host.awaiting = s.host.awaiting := rfl
@[simp] theorem hostObserve_received (s : State) : (hostObserve s).host.received = s.host.received := rfl
@[simp] theorem hostObserve_sent (s : State) : (hostObserve s).host.sent = s.host.sent := rfl

@[simp] theorem setHost_params (s : State) (h : HostState) : (s.setHost h).params = s.params := rfl
@[simp] theorem setHost_op (s : State) (h : HostState) : (s.setHost h).op = s.op := rfl
@[simp] theorem setHost_result (s : State) (h : HostState) : (s.setHost h).result = s.result := rfl
@[simp] theorem setHost_moves (s : State) (h : HostState) : (s.setHost h).moves = s.moves := rfl
@[simp] theorem setHost_host (s : State) (h : HostState) : (s.setHost h).host = h := rfl

@[simp] theorem deliver_cache (h : HostState) (f : Frame) : (h.deliver f).cache = h.cache := rfl
@[simp] theorem deliver_awaiting (h : HostState) (f : Frame) : (h.deliver f).awaiting = commandOfId f[2] := rfl
@[simp] theorem deliver_received (h : HostState) (f : Frame) : (h.deliver f).received = [] := rfl
@[simp] theorem deliver_sent (h : HostState) (f : Frame) : (h.deliver f).sent = h.sent ++ [f] := rfl
@[simp] theorem receive_cache (h : HostState) (b : List Byte) : (h.receive b).cache = h.cache := rfl
@[simp] theorem receive_awaiting (h : HostState) (b : List Byte) : (h.receive b).awaiting = h.awaiting := rfl
@[simp] theorem receive_received (h : HostState) (b : List Byte) : (h.receive b).received = h.received ++ b := rfl
@[simp] theorem receive_sent (h : HostState) (b : List Byte) : (h.receive b).sent = h.sent := rfl

/-- `L <= RX_CAP`, in the spec's own form. -/
theorem admits_iff (s : State) (r : OperandRecord) : s.admits r = true ↔ r.rx.length ≤ s.params.rxCap := by
  unfold State.admits OperandRecord.wellFormed Params.rxCap
  rw [decide_eq_true_iff]
  omega

end Sys2Proof.Machine
end

