-- ==== Sys2Proof/Laws/Ops.lean ====
section
/-! SUPPORT. What the shared operations do: the reads of the received bytes, and how an operation ends. -/

namespace Sys2Proof.Machine

/-! ### Evaluation -/

@[simp] theorem eval_ok_bind {α β : Type} (a : α) (f : α → Eval β) : ((.ok a : Eval α) >>= f) = f a := rfl
@[simp] theorem eval_error_bind {α β : Type} (e : Stop) (f : α → Eval β) :
    ((.error e : Eval α) >>= f) = .error e := rfl
@[simp] theorem eval_raise_bind {α β : Type} (e : Info) (f : α → Eval β) :
    ((raise e : Eval α) >>= f) = raise e := rfl
@[simp] theorem eval_pure {α : Type} (a : α) : (pure a : Eval α) = .ok a := rfl

/-- An evaluation of two parts answers a value exactly when both do. -/
theorem eval_bind_eq_ok {α β : Type} {x : Eval α} {f : α → Eval β} {b : β} :
    (x >>= f) = .ok b ↔ ∃ a, x = .ok a ∧ f a = .ok b := by
  cases x with
  | ok a => simp
  | error e => simp

/-- An evaluation of two parts ends early exactly when its first part does, or its second part does. -/
theorem eval_bind_eq_error {α β : Type} {x : Eval α} {f : α → Eval β} {e : Stop} :
    (x >>= f) = .error e ↔ x = .error e ∨ ∃ a, x = .ok a ∧ f a = .error e := by
  cases x with
  | ok a => simp
  | error e' => simp

/-! ### How an operation ends -/

@[simp] theorem conclude_ok {α : Type} (s : State) (mk : α → ResultRecord) (v : α) :
    conclude s mk (.ok v) = .next (s.setResult (mk v)) := rfl
@[simp] theorem conclude_raise {α : Type} (s : State) (mk : α → ResultRecord) (e : Info) :
    conclude s mk (raise e) = .next (s.setResult (.failed e)) := rfl
@[simp] theorem conclude_raised {α : Type} (s : State) (mk : α → ResultRecord) (e : Info) :
    conclude s mk (.error (.raised e)) = .next (s.setResult (.failed e)) := rfl
@[simp] theorem conclude_faulted {α : Type} (s : State) (mk : α → ResultRecord) (f : Fault) :
    conclude s mk (.error (.faulted f)) = .fault f := rfl

/-- Everything an operation that answers a next state can have done: it writes a record made from its value, or the
record of an error it raised. -/
theorem conclude_next {α : Type} {s t : State} {mk : α → ResultRecord} {x : Eval α}
    (h : conclude s mk x = .next t) :
    (∃ v, x = .ok v ∧ t = s.setResult (mk v)) ∨ ∃ e, x = raise e ∧ t = s.setResult (.failed e) := by
  match x, h with
  | .ok v, h => exact .inl ⟨v, rfl, by simpa using h.symm⟩
  | .error (.raised e), h => exact .inr ⟨e, rfl, by simpa using h.symm⟩

/-- An operation never ends in a refusal. -/
theorem conclude_ne_refused {α : Type} {s : State} {mk : α → ResultRecord} {x : Eval α} {r : Refusal} :
    conclude s mk x ≠ .refused r := by
  match x with
  | .ok v => simp
  | .error (.raised e) => simp
  | .error (.faulted f) => simp

/-! ### Reads -/

theorem byteAt_eq {rx : List Byte} {i : Nat} (h : i < rx.length) : byteAt rx i = rx[i] := by
  simp [byteAt, h]

theorem readByte_of_lt {rx : List Byte} {i : Nat} (h : i < rx.length) : readByte rx i = .ok (byteAt rx i) := by
  simp [readByte, byteAt, h]

theorem readByte_of_le {rx : List Byte} {i : Nat} (h : rx.length ≤ i) :
    readByte rx i = .error (.faulted .rxOutOfRange) := by
  simp [readByte, h]

theorem readRange_of_le {rx : List Byte} {a n : Nat} (h : a + n ≤ rx.length) :
    readRange rx a n = .ok ((rx.drop a).take n) := by
  simp [readRange, h]

/-- The bytes of a range, one by one. -/
theorem take_drop_succ {rx : List Byte} {a n : Nat} (h : a < rx.length) :
    (rx.drop a).take (n + 1) = byteAt rx a :: (rx.drop (a + 1)).take n := by
  rw [List.drop_eq_getElem_cons h, List.take_succ_cons, byteAt_eq h]

/-- `be16` reads a big-endian field (20_memory.md R30). -/
theorem be16_of_le {rx : List Byte} {a : Nat} (h : a + 2 ≤ rx.length) : be16 rx a = .ok (field16 rx a) := by
  rw [be16, memRead, readRange_of_le h, take_drop_succ (by omega), take_drop_succ (by omega)]
  simp [Except.map, bigEndian, field16]

/-- `be32` reads a big-endian field (20_memory.md R30). -/
theorem be32_of_le {rx : List Byte} {a : Nat} (h : a + 4 ≤ rx.length) : be32 rx a = .ok (field32 rx a) := by
  rw [be32, memRead, readRange_of_le h, take_drop_succ (by omega), take_drop_succ (by omega),
    take_drop_succ (by omega), take_drop_succ (by omega)]
  simp [Except.map, bigEndian, field32]
  ring

theorem field16_lt (rx : List Byte) (a : Nat) : field16 rx a < 65536 := by
  have h1 := (byteAt rx a).isLt
  have h2 := (byteAt rx (a + 1)).isLt
  unfold field16
  omega

theorem field32_lt (rx : List Byte) (a : Nat) : field32 rx a < 2 ^ 32 := by
  have h1 := (byteAt rx a).isLt
  have h2 := (byteAt rx (a + 1)).isLt
  have h3 := (byteAt rx (a + 2)).isLt
  have h4 := (byteAt rx (a + 3)).isLt
  unfold field32
  omega

/-- `bit(b, p)` is bit `p`, least significant first (20_memory.md R31). -/
theorem bitOf_eq (b : Byte) (p : Nat) : bitOf b p = b.getLsbD p := by
  unfold bitOf
  by_cases h : p < 8
  · interval_cases p <;> revert b <;> decide
  · have : b >>> p = 0#8 := by
      ext i hi
      simpa using BitVec.getLsbD_of_ge b (p + i) (by omega)
    rw [this, BitVec.getLsbD_of_ge b p (by omega)]
    decide

end Sys2Proof.Machine
end

