-- ==== Sys2Proof/Laws/Frame.lean ====
section
/-! SUPPORT. The checksum, the validators, the frame builder and the frame parser. -/

namespace Sys2Proof.Machine

/-! ### sum8 -/

@[simp] theorem sum8_nil : sum8 [] = 0 := rfl

theorem sum8_toNat (s : List Byte) : (sum8 s).toNat = (s.map BitVec.toNat).sum % 256 := by
  simp [sum8]

theorem sum8_cons (b : Byte) (s : List Byte) : sum8 (b :: s) = b + sum8 s := by
  apply BitVec.eq_of_toNat_eq
  rw [BitVec.toNat_add, sum8_toNat, sum8_toNat, List.map_cons, List.sum_cons]
  omega

theorem sum8_append (s t : List Byte) : sum8 (s ++ t) = sum8 s + sum8 t := by
  induction s with
  | nil => simp
  | cons b s ih => rw [List.cons_append, sum8_cons, ih, sum8_cons, BitVec.add_assoc]

/-! ### Validators -/

theorem validateLen_of_le {rx : List Byte} {n : Nat} (h : n ≤ rx.length) : validateLen rx n = .ok () := by
  simp [validateLen, Nat.not_lt.mpr h]

theorem validateLen_of_lt {rx : List Byte} {n : Nat} (h : rx.length < n) :
    validateLen rx n = raise (.replySize n rx.length) := by
  simp [validateLen, h]

/-- The checksum validator on a sequence and its last byte (R57). -/
theorem validateCks_concat (s : List Byte) (b i : Byte) :
    validateCks (s ++ [b]) i = if sum8 s = b then .ok () else raise (.checksum i (sum8 s) b) := by
  simp [validateCks]

/-- Everything the window check does on a window that stands in the buffer (R58). -/
theorem checkWindow_eq {rx : List Byte} {base : Nat} (i : Byte) (h : base + 13 ≤ rx.length) :
    checkWindow rx base i =
      if windowSum rx base = byteAt rx (base + 12) then .ok ()
      else raise (.checksum i (windowSum rx base) (byteAt rx (base + 12))) := by
  have hw : (rx.drop base).take 13 = (rx.drop base).take 12 ++ [byteAt rx (base + 12)] := by
    rw [show (13 : Nat) = 12 + 1 from rfl, List.take_add_one, byteAt_eq (by omega)]
    simp [show base + 12 < rx.length by omega]
  unfold checkWindow
  rw [show Config.frameLen = 13 from rfl, readRange_of_le h, eval_ok_bind, hw, validateCks_concat]
  rfl

theorem checkWindow_of_valid {rx : List Byte} {base : Nat} (i : Byte) (h : ValidWindow rx base) :
    checkWindow rx base i = .ok () := by
  rw [checkWindow_eq i h.1, if_pos h.2]

theorem checkWindow_of_bad {rx : List Byte} {base : Nat} (i : Byte) (h : base + 13 ≤ rx.length)
    (hs : windowSum rx base ≠ byteAt rx (base + 12)) :
    checkWindow rx base i = raise (.checksum i (windowSum rx base) (byteAt rx (base + 12))) := by
  rw [checkWindow_eq i h, if_neg hs]

/-! ### Builder and parser -/

/-- The bytes of a built frame (R60). -/
theorem buildFrame_toList (cmd : Byte) (p : Payload) :
    (buildFrame cmd p).toList =
      [0xA5, 0x40, cmd, 0x08] ++ p.toList ++ [sum8 ([0xA5, 0x40, cmd, 0x08] ++ p.toList)] := by
  simp only [buildFrame, Vector.toList_push, frameBody, Vector.toList_append]
  rfl

/-- A built frame has the constant header and its own checksum (30_encoding.md R41, R42; R78). -/
theorem buildFrame_sound (cmd : Byte) (p : Payload) : frameSound (buildFrame cmd p) := by
  have h := buildFrame_toList cmd p
  have hl : p.toList.length = 8 := by simp
  have hget : ∀ (k : Nat) (hk : k < 13), (buildFrame cmd p)[k] = (buildFrame cmd p).toList[k]'(by simpa using hk) := by
    intro k hk; simp
  refine ⟨?_, ?_, ?_, ?_⟩
  · rw [hget 0 (by omega)]; simp [h]
  · rw [hget 1 (by omega)]; simp [h]
  · rw [hget 3 (by omega)]; simp [h]
  · rw [hget 12 (by omega)]
    have h12 : (buildFrame cmd p).toList.take 12 = [0xA5, 0x40, cmd, 0x08] ++ p.toList := by
      rw [h, List.take_append_of_le_length (by simp)]
      apply List.take_of_length_le
      simp
    rw [h12]
    simp [h, hl]

/-- Everything the parser does on a window that stands in the buffer (R59). -/
theorem parseFrame_eq {rx : List Byte} {base : Nat} (h : base + 13 ≤ rx.length) :
    parseFrame rx base = .ok
      { start := byteAt rx base, address := byteAt rx (base + 1), command := byteAt rx (base + 2),
        dataLen := byteAt rx (base + 3),
        payload := #v[byteAt rx (base + 4), byteAt rx (base + 5), byteAt rx (base + 6), byteAt rx (base + 7),
          byteAt rx (base + 8), byteAt rx (base + 9), byteAt rx (base + 10), byteAt rx (base + 11)],
        checksum := byteAt rx (base + 12), computed := windowSum rx base,
        checksumOk := windowSum rx base == byteAt rx (base + 12) } := by
  unfold parseFrame
  rw [readByte_of_lt (by omega), readByte_of_lt (by omega), readByte_of_lt (by omega), readByte_of_lt (by omega),
    readByte_of_lt (by omega), readByte_of_lt (by omega), readByte_of_lt (by omega), readByte_of_lt (by omega),
    readByte_of_lt (by omega), readByte_of_lt (by omega), readByte_of_lt (by omega), readByte_of_lt (by omega),
    readByte_of_lt (by omega), readRange_of_le (by omega)]
  rfl

/-! ### Bytes and windows of a changed buffer -/

/-- The window's checksum as the sum of its twelve bytes. -/
theorem windowSum_eq {rx : List Byte} {base : Nat} (h : base + 13 ≤ rx.length) :
    windowSum rx base =
      byteAt rx base + byteAt rx (base + 1) + byteAt rx (base + 2) + byteAt rx (base + 3) + byteAt rx (base + 4)
        + byteAt rx (base + 5) + byteAt rx (base + 6) + byteAt rx (base + 7) + byteAt rx (base + 8)
        + byteAt rx (base + 9) + byteAt rx (base + 10) + byteAt rx (base + 11) := by
  unfold windowSum
  iterate 12 rw [take_drop_succ (by omega)]
  simp only [sum8_cons, List.take_zero, sum8_nil, Nat.add_assoc]
  ring

theorem byteAt_set {rx : List Byte} {k : Nat} {b : Byte} (h : k < rx.length) (j : Nat) :
    byteAt (rx.set k b) j = if j = k then b else byteAt rx j := by
  simp only [byteAt, List.getD_eq_getElem?_getD, List.getElem?_set]
  by_cases e : k = j
  · subst e
    simp [h]
  · have : ¬ j = k := fun h => e h.symm
    simp [e, this]

theorem byteAt_append {rx extra : List Byte} {k : Nat} (h : k < rx.length) : byteAt (rx ++ extra) k = byteAt rx k := by
  rw [byteAt_eq h, byteAt_eq (by simp; omega), List.getElem_append_left h]

theorem windowSum_append {rx extra : List Byte} {k : Nat} (h : k + 12 ≤ rx.length) :
    windowSum (rx ++ extra) k = windowSum rx k := by
  unfold windowSum
  rw [List.drop_append_of_le_length (by omega), List.take_append_of_le_length (by simp; omega)]

end Sys2Proof.Machine
end

