-- ==== Sys2Proof/Laws/Decoders.lean ====
section
/-! SUPPORT. The single-frame decoders: the three steps of R95, the field functions, and the layouts. -/

namespace Sys2Proof.Machine

/-! ### The three steps -/

theorem decodeSingle_short {rx : List Byte} {x : Eval Decoded} (h : rx.length < 13) :
    decodeSingle rx x = raise (.replySize 13 rx.length) := by
  rw [decodeSingle, validateLen_of_lt h, eval_raise_bind]

theorem decodeSingle_bad {rx : List Byte} {x : Eval Decoded} (h : 13 ≤ rx.length)
    (hs : windowSum rx 0 ≠ byteAt rx 12) :
    decodeSingle rx x = raise (.checksum 1 (windowSum rx 0) (byteAt rx 12)) := by
  rw [decodeSingle, validateLen_of_le h, eval_ok_bind, checkWindow_of_bad 1 (by omega) (by simpa using hs),
    eval_raise_bind, Nat.zero_add]

theorem decodeSingle_valid {rx : List Byte} {x : Eval Decoded} (h : ValidReply rx) : decodeSingle rx x = x := by
  rw [decodeSingle, validateLen_of_le (by have := h.1; omega), eval_ok_bind, checkWindow_of_valid 1 h, eval_ok_bind]

/-- A single-frame decode that does not fault in its fields does not fault at all. -/
theorem decodeSingle_ne_faulted {rx : List Byte} {x : Eval Decoded} {f : Fault}
    (h : 13 ≤ rx.length → x ≠ .error (.faulted f)) : decodeSingle rx x ≠ .error (.faulted f) := by
  by_cases hl : rx.length < 13
  · rw [decodeSingle_short hl]; simp [raise]
  · by_cases hs : windowSum rx 0 = byteAt rx 12
    · rw [decodeSingle_valid ⟨by omega, hs⟩]
      exact h (by omega)
    · rw [decodeSingle_bad (by omega) hs]; simp [raise]

/-! ### Field functions -/

theorem tempOf_of_le {narrow : TempNarrow} {n offset : Byte} (h : n.toNat ≤ 167) :
    tempOf narrow n offset = .ok (BitVec.ofInt 8 ((n.toNat : Int) - 40)) := by
  simp only [tempOf]
  rw [if_pos (by omega)]

theorem tempOf_wrap (n offset : Byte) :
    tempOf .wrap n offset = .ok (BitVec.ofInt 8 ((n.toNat : Int) - 40)) := by
  simp only [tempOf]
  split <;> rfl

theorem tempOf_fault {n offset : Byte} (h : 168 ≤ n.toNat) :
    tempOf .fault n offset = raise (.fieldOutOfRange offset n) := by
  simp only [tempOf]
  rw [if_neg (by omega)]

/-- All that a temperature field can do. -/
theorem tempOf_eq (narrow : TempNarrow) (n offset : Byte) :
    tempOf narrow n offset =
      if narrow = .fault ∧ 168 ≤ n.toNat then raise (.fieldOutOfRange offset n)
      else .ok (BitVec.ofInt 8 ((n.toNat : Int) - 40)) := by
  by_cases h : n.toNat ≤ 167
  · rw [tempOf_of_le h, if_neg (by omega)]
  · cases narrow with
    | wrap => rw [tempOf_wrap, if_neg (by simp)]
    | fault => rw [tempOf_fault (by omega), if_pos ⟨rfl, by omega⟩]

/-- All that a byte boolean can do. -/
theorem byteBool_eq (other : BoolByteOther) (n offset : Byte) :
    byteBool other n offset =
      if other = .fault ∧ 2 ≤ n.toNat then raise (.fieldOutOfRange offset n) else .ok (decide (n ≠ 0)) := by
  by_cases h0 : n = 0
  · subst h0; rw [if_neg (by simp)]; rfl
  by_cases h1 : n = 1
  · subst h1; rw [if_neg (by simp)]; rfl
  have h2 : 2 ≤ n.toNat := by
    have a : n.toNat ≠ 0 := fun h => h0 (BitVec.eq_of_toNat_eq (by simpa using h))
    have b : n.toNat ≠ 1 := fun h => h1 (BitVec.eq_of_toNat_eq (by simpa using h))
    omega
  unfold byteBool
  rw [if_neg h0, if_neg h1]
  cases other with
  | true => rw [if_neg (by simp), decide_eq_true h0]
  | fault => rw [if_pos ⟨rfl, h2⟩]

/-- The mode byte (R104). -/
theorem modeOf_raise {m : Byte} (h : 3 ≤ m.toNat) : modeOf m = raise (.fieldOutOfRange 4 m) := by
  have h0 : m ≠ 0 := fun e => by subst e; simp at h
  have h1 : m ≠ 1 := fun e => by subst e; simp at h
  have h2 : m ≠ 2 := fun e => by subst e; simp at h
  rw [modeOf, if_neg h0, if_neg h1, if_neg h2]

/-! ### Bit fields -/

/-- The balancing bits, all at once (R106). -/
theorem balancingBits_eq {rx : List Byte} (n k : Nat) (h : ∀ j, j < n → 4 + (k + j) / 8 < rx.length) :
    balancingBits rx k n =
      .ok ((List.range n).map fun j => bitOf (byteAt rx (4 + (k + j) / 8)) ((k + j) % 8)) := by
  induction n generalizing k with
  | zero => rfl
  | succ n ih =>
    have h0 := h 0 (by omega)
    simp only [Nat.add_zero] at h0
    have hk : ∀ j, j < n → 4 + (k + 1 + j) / 8 < rx.length := fun j hj => by
      have := h (j + 1) (by omega)
      rwa [show k + (j + 1) = k + 1 + j by omega] at this
    rw [balancingBits, readByte_of_lt h0, eval_ok_bind, ih (k + 1) hk, eval_ok_bind, List.range_succ_eq_map]
    simp [Function.comp_def, Nat.add_assoc, Nat.add_comm 1]

/-- The names of the set bits, all at once (R122). -/
theorem errorNames_eq {rx : List Byte} (h : 11 ≤ rx.length) (t : List ErrorEntry) :
    errorNames rx t =
      .ok ((t.filter fun e => bitOf (byteAt rx (4 + e.byteIndex.val)) e.bit.val).map fun e => e.name) := by
  induction t with
  | nil => rfl
  | cons e es ih =>
    have hlt : errorByteOffset e < rx.length := by have := e.byteIndex.isLt; unfold errorByteOffset; omega
    rw [errorNames, readByte_of_lt hlt, eval_ok_bind, ih, eval_ok_bind, eval_pure]
    by_cases hb : bitOf (byteAt rx (4 + e.byteIndex.val)) e.bit.val = true
    · simp [errorByteOffset, hb]
    · simp [errorByteOffset, hb]

/-! ### Layouts, for a buffer that holds a frame -/

theorem extractSoc_eq {rx : List Byte} (p : Params) (h : 13 ≤ rx.length) :
    extractSoc p rx = .ok (.soc { totalVoltage := div10 p.floatFmt (field16 rx 4),
                                  current := currentOf p.floatFmt (field16 rx 8),
                                  socPercent := div10 p.floatFmt (field16 rx 10) }) := by
  rw [extractSoc, be16_of_le (by omega), be16_of_le (by omega), be16_of_le (by omega)]
  rfl

theorem extractCvr_eq {rx : List Byte} (p : Params) (h : 13 ≤ rx.length) :
    extractCvr p rx = .ok (.cellVoltageRange
      { highestVoltage := div1000 p.floatFmt (field16 rx 4), highestCell := byteAt rx 6,
        lowestVoltage := div1000 p.floatFmt (field16 rx 7), lowestCell := byteAt rx 9 }) := by
  rw [extractCvr, be16_of_le (by omega), be16_of_le (by omega), readByte_of_lt (by omega), readByte_of_lt (by omega)]
  rfl

theorem extractTr_eq {rx : List Byte} (p : Params) (h : 13 ≤ rx.length) :
    extractTr p rx = (do
      let highest ← tempOf p.tempNarrow (byteAt rx 4) 4
      let lowest ← tempOf p.tempNarrow (byteAt rx 6) 6
      return .temperatureRange { highestTemperature := highest, highestSensor := byteAt rx 5,
                                 lowestTemperature := lowest, lowestSensor := byteAt rx 7 }) := by
  rw [extractTr, readByte_of_lt (by omega), readByte_of_lt (by omega), readByte_of_lt (by omega),
    readByte_of_lt (by omega)]
  rfl

theorem extractMos_eq {rx : List Byte} (p : Params) (h : 13 ≤ rx.length) :
    extractMos p rx = (do
      let mode ← modeOf (byteAt rx 4)
      let charging ← byteBool p.boolByteOther (byteAt rx 5) 5
      let discharging ← byteBool p.boolByteOther (byteAt rx 6) 6
      return .mosfetStatus { mode := mode, chargingMosfet := charging, dischargingMosfet := discharging,
                             bmsCycles := byteAt rx 7, capacityAh := capacityOf p.floatFmt (field32 rx 8) }) := by
  rw [extractMos, readByte_of_lt (by omega), readByte_of_lt (by omega), readByte_of_lt (by omega),
    readByte_of_lt (by omega), be32_of_le (by omega)]
  rfl

theorem extractStatus_eq {rx : List Byte} (p : Params) (h : 13 ≤ rx.length) :
    extractStatus p rx = (do
      let charger ← byteBool p.boolByteOther (byteAt rx 6) 6
      let load ← byteBool p.boolByteOther (byteAt rx 7) 7
      return .status { cells := byteAt rx 4, temperatureSensors := byteAt rx 5, chargerRunning := charger,
                       loadRunning := load, ioState := ioStateOf (byteAt rx 8),
                       cycles := BitVec.ofNat 16 (field16 rx 9) }) := by
  rw [extractStatus, readByte_of_lt (by omega), readByte_of_lt (by omega), readByte_of_lt (by omega),
    readByte_of_lt (by omega), readByte_of_lt (by omega), be16_of_le (by omega)]
  rfl

theorem extractBal_eq {rx : List Byte} {count : Nat} (h : 13 ≤ rx.length) (hc : count ≤ 48) :
    extractBal rx count = .ok (.balancingState
      ((List.range count).map fun k => bitOf (byteAt rx (4 + k / 8)) (k % 8))) := by
  rw [extractBal, balancingBits_eq count 0 (fun j hj => by omega)]
  simp

theorem extractErr_eq {rx : List Byte} (p : Params) (h : 13 ≤ rx.length) :
    extractErr p rx = .ok (.errorCode
      ((p.errorTable.filter fun e => bitOf (byteAt rx (4 + e.byteIndex.val)) e.bit.val).map fun e => e.name)) := by
  rw [extractErr, errorNames_eq (by omega)]
  rfl

/-! ### All cases at once -/

/-- All that the mode byte can do (R104). -/
theorem modeOf_cases (m : Byte) :
    (m = 0 ∧ modeOf m = .ok .stationary) ∨ (m = 1 ∧ modeOf m = .ok .charging)
      ∨ (m = 2 ∧ modeOf m = .ok .discharging) ∨ (3 ≤ m.toNat ∧ modeOf m = raise (.fieldOutOfRange 4 m)) := by
  by_cases h : 3 ≤ m.toNat
  · exact .inr (.inr (.inr ⟨h, modeOf_raise h⟩))
  · have : m.toNat = 0 ∨ m.toNat = 1 ∨ m.toNat = 2 := by omega
    rcases this with h | h | h
    · obtain rfl : m = 0 := BitVec.eq_of_toNat_eq (by simpa using h)
      exact .inl ⟨rfl, rfl⟩
    · obtain rfl : m = 1 := BitVec.eq_of_toNat_eq (by simpa using h)
      exact .inr (.inl ⟨rfl, rfl⟩)
    · obtain rfl : m = 2 := BitVec.eq_of_toNat_eq (by simpa using h)
      exact .inr (.inr (.inl ⟨rfl, rfl⟩))

/-- A single-frame decode that answers a value had a whole frame, and the value is its fields'. -/
theorem decodeSingle_eq_ok {rx : List Byte} {x : Eval Decoded} {v : Decoded} (h : decodeSingle rx x = .ok v) :
    13 ≤ rx.length ∧ x = .ok v := by
  by_cases hl : rx.length < 13
  · rw [decodeSingle_short hl] at h
    simp [raise] at h
  · by_cases hs : windowSum rx 0 = byteAt rx 12
    · rw [decodeSingle_valid ⟨by omega, hs⟩] at h
      exact ⟨by omega, h⟩
    · rw [decodeSingle_bad (by omega) hs] at h
      simp [raise] at h

end Sys2Proof.Machine
end

