-- ==== Sys2Proof/Laws/HostContract.lean ====
section
/-! SUPPORT. The host that keeps the contract: what may be presented is exactly what the duties allow. -/

namespace Sys2Proof.Machine

theorem decodedCommand_decInstr (c : Command) : decodedCommand (decInstr c) = some c := by cases c <;> rfl

/-- An operation decodes a reply exactly when it is a decoder. -/
theorem decodedCommand_eq_some {i : Instr} {c : Command} : decodedCommand i = some c ↔ i = decInstr c := by
  constructor
  · intro h
    have := List.find?_some h
    simpa using (beq_iff_eq.mp this).symm
  · rintro rfl
    exact decodedCommand_decInstr c

/-- RSZ answers the length of the awaited reply (40_frame_checksum.md R65 to R77). -/
theorem exec_rszInstr (c : Command) (s : State) :
    exec (rszInstr c) s = .next (s.setResult (.okSize (replyLength c s.op.count))) := by cases c <;> rfl

/-- A decoder requires as many bytes as its command's reply size. -/
theorem requiredLength_decInstr (c : Command) (r : OperandRecord) :
    requiredLength r (decInstr c) = some (replyLength c r.count) := by cases c <;> rfl

theorem keepsCount_iff (h : HostState) (i : Instr) (count : Byte) :
    h.keepsCount i count = true ↔
      (i ∈ countedByCells → ∃ c, h.cache = some c ∧ count = c.cells)
      ∧ (i ∈ countedBySensors → ∃ c, h.cache = some c ∧ count = c.temperatureSensors) := by
  unfold HostState.keepsCount
  cases hc : h.cache <;> cases i <;> simp [countSource, countedByCells, countedBySensors]

theorem keepsReply_iff (h : HostState) (i : Instr) (r : OperandRecord) :
    h.keepsReply i r = true ↔
      ∀ c, i = decInstr c → h.awaiting = some c
        ∧ ∃ n, requiredLength r i = some n ∧ n ≤ h.received.length ∧ r.rx.take n = h.received.take n := by
  unfold HostState.keepsReply
  cases hd : decodedCommand i with
  | none =>
    simp only [true_iff]
    intro c hc
    rw [hc, decodedCommand_decInstr] at hd
    cases hd
  | some c =>
    have hi := decodedCommand_eq_some.mp hd
    have hu : ∀ c', i = decInstr c' → c' = c := fun c' h' => by
      rw [h', decodedCommand_decInstr] at hd
      exact Option.some.inj hd
    constructor
    · intro hk c' hc'
      rw [hu c' hc', hi, requiredLength_decInstr]
      simp only [Bool.and_eq_true, beq_iff_eq, decide_eq_true_eq] at hk
      exact ⟨hk.1.1, _, rfl, hk.1.2, hk.2⟩
    · intro hk
      obtain ⟨ha, n, hn, hl, ht⟩ := hk c hi
      rw [hi, requiredLength_decInstr] at hn
      cases hn
      simp [ha, hl, ht]

/-- The host may present exactly the records its duties allow. -/
theorem mayPresent_iff (h : HostState) (r : OperandRecord) : h.mayPresent r = true ↔ HostDuty h r := by
  unfold HostState.mayPresent HostDuty
  cases hd : decode r.cw with
  | error e => simp
  | ok i =>
    simp only [Bool.and_eq_true, keepsCount_iff, keepsReply_iff, Except.ok.injEq, forall_eq']
    exact and_assoc

end Sys2Proof.Machine
end

