-- ==== Sys2Proof/Laws/MultiFrame.lean ====
section
/-! SUPPORT. The reassembler (43_multiframe.md R113): one frame's lanes, the frames in order, and the first failure. -/

namespace Sys2Proof.Machine

/-- `nframes` is the least number of frames that holds `count` values (R112). -/
theorem nframes_spec {count cap : Nat} (h : 0 < cap) :
    count ≤ cap * nframes count cap ∧ cap * nframes count cap < count + cap := by
  unfold nframes ceilDiv
  have h1 := Nat.div_add_mod (count + cap - 1) cap
  have h2 := Nat.mod_lt (count + cap - 1) h
  omega

theorem nframes_unique {count cap n : Nat} (h : 0 < cap) (h1 : count ≤ cap * n) (h2 : cap * n < count + cap) :
    nframes count cap = n := by
  obtain ⟨a, b⟩ := nframes_spec (count := count) h
  have hl : cap * nframes count cap < cap * (n + 1) := by rw [Nat.mul_add]; omega
  have hr : cap * n < cap * (nframes count cap + 1) := by rw [Nat.mul_add]; omega
  have := Nat.lt_of_mul_lt_mul_left hl
  have := Nat.lt_of_mul_lt_mul_left hr
  omega

/-! ### One frame's lanes -/

/-- Once `count` values are out, no lane is read. -/
theorem takeLanes_full {α : Type} (conv : Nat → Eval α) {count : Nat} (width lanes a : Nat) {out : List α}
    (h : out.length = count) : takeLanes conv count width lanes a out = .ok out := by
  cases lanes <;> simp [takeLanes, h]

/-- The lanes of one frame, where the `m` that are read all convert. -/
theorem takeLanes_ok {α : Type} (conv : Nat → Eval α) (g : Nat → α) (count width : Nat) :
    ∀ (lanes m a : Nat) (out : List α), m ≤ lanes → (m = lanes ∨ out.length + m = count) →
      out.length + m ≤ count → (∀ j, j < m → conv (a + width * j) = .ok (g (a + width * j))) →
      takeLanes conv count width lanes a out = .ok (out ++ (List.range m).map fun j => g (a + width * j)) := by
  intro lanes
  induction lanes with
  | zero =>
    intro m a out hm _ _ _
    obtain rfl : m = 0 := by omega
    simp [takeLanes]
  | succ lanes ih =>
    intro m a out hm hend hle hc
    cases m with
    | zero =>
      rw [takeLanes_full conv width _ a (by omega)]
      simp
    | succ m =>
      have h0 := hc 0 (by omega)
      rw [Nat.mul_zero, Nat.add_zero] at h0
      have hs : ∀ j, j < m → conv (a + width + width * j) = .ok (g (a + width + width * j)) := fun j hj => by
        have := hc (j + 1) (by omega)
        rwa [show a + width * (j + 1) = a + width + width * j by ring] at this
      rw [takeLanes, if_neg (by omega), h0, eval_ok_bind,
        ih m (a + width) (out ++ [g a]) (by omega) (by simp; omega) (by simp; omega) hs, List.range_succ_eq_map]
      simp [Function.comp_def, Nat.mul_add, Nat.add_assoc, Nat.add_comm width]

/-- The lanes of one frame, where lane `m` is the first that raises. -/
theorem takeLanes_error {α : Type} (conv : Nat → Eval α) (g : Nat → α) (count width : Nat) (e : Stop) :
    ∀ (lanes m a : Nat) (out : List α), m < lanes → out.length + m < count →
      (∀ j, j < m → conv (a + width * j) = .ok (g (a + width * j))) → conv (a + width * m) = .error e →
      takeLanes conv count width lanes a out = .error e := by
  intro lanes
  induction lanes with
  | zero => intro m a out hm; omega
  | succ lanes ih =>
    intro m a out hm hle hc he
    rw [takeLanes, if_neg (by omega)]
    cases m with
    | zero =>
      rw [Nat.mul_zero, Nat.add_zero] at he
      rw [he, eval_error_bind]
    | succ m =>
      have h0 := hc 0 (by omega)
      rw [Nat.mul_zero, Nat.add_zero] at h0
      rw [h0, eval_ok_bind]
      refine ih m (a + width) (out ++ [g a]) (by omega) (by simp; omega) (fun j hj => ?_) ?_
      · have := hc (j + 1) (by omega)
        rwa [show a + width * (j + 1) = a + width + width * j by ring] at this
      · rwa [show a + width * (m + 1) = a + width + width * m by ring] at he

/-- A property of addresses at which no lane faults carries over to the frame. -/
theorem takeLanes_ne_faulted {α : Type} (conv : Nat → Eval α) (count width : Nat) (f : Fault) :
    ∀ (lanes a : Nat) (out : List α), (∀ j, j < lanes → conv (a + width * j) ≠ .error (.faulted f)) →
      takeLanes conv count width lanes a out ≠ .error (.faulted f) := by
  intro lanes
  induction lanes with
  | zero => intro a out _; simp [takeLanes]
  | succ lanes ih =>
    intro a out hc
    rw [takeLanes]
    split
    · simp
    · intro h
      rcases eval_bind_eq_error.mp h with h | ⟨v, _, h⟩
      · exact hc 0 (by omega) (by simpa using h)
      · refine ih (a + width) (out ++ [v]) (fun j hj => ?_) h
        have := hc (j + 1) (by omega)
        rwa [show a + width * (j + 1) = a + width + width * j by ring] at this

/-- Never more than `count` values are out, and a frame adds at most its lanes. -/
theorem takeLanes_length {α : Type} (conv : Nat → Eval α) (count width : Nat) :
    ∀ (lanes a : Nat) (out out' : List α), out.length ≤ count → takeLanes conv count width lanes a out = .ok out' →
      out'.length = min count (out.length + lanes) := by
  intro lanes
  induction lanes with
  | zero =>
    intro a out out' hl h
    simp only [takeLanes, Except.ok.injEq] at h
    subst h; omega
  | succ lanes ih =>
    intro a out out' hl h
    rw [takeLanes] at h
    split at h
    · simp only [Except.ok.injEq] at h
      subst h; omega
    · obtain ⟨v, _, h⟩ := eval_bind_eq_ok.mp h
      have := ih _ _ _ (by simp; omega) h
      simp at this
      omega

/-! ### The frames in order -/

/-- The frames `i .. i+m+n-1` are the frames `i .. i+m-1` and then the rest. -/
theorem takeFrames_add {α : Type} (rx : List Byte) (conv : Nat → Eval α) (count cap width : Nat) :
    ∀ (m n i : Nat) (out : List α),
      takeFrames rx conv count cap width (m + n) i out =
        (takeFrames rx conv count cap width m i out >>= takeFrames rx conv count cap width n (i + m)) := by
  intro m
  induction m with
  | zero => intro n i out; simp [takeFrames]
  | succ m ih =>
    intro n i out
    rw [show m + 1 + n = (m + n) + 1 by omega]
    simp only [takeFrames]
    cases readByte rx (13 * (i - 1) + 4) with
    | error e => simp
    | ok b =>
      simp only [eval_ok_bind]
      split
      · simp
      · cases checkWindow rx (13 * (i - 1)) (BitVec.ofNat 8 i) with
        | error e => simp
        | ok _ =>
          simp only [eval_ok_bind]
          cases takeLanes conv count width cap (13 * (i - 1) + 5) out with
          | error e => simp
          | ok out' => simp only [eval_ok_bind]; rw [ih, show i + 1 + m = i + (m + 1) by omega]

/-- A frame that passes its checks goes on to its lanes. -/
theorem takeFrames_good {α : Type} {rx : List Byte} (conv : Nat → Eval α) (count cap width n : Nat) {i : Nat}
    (out : List α) (hi : 1 ≤ i) (hl : 13 * i ≤ rx.length) (hg : GoodFrame rx i) :
    takeFrames rx conv count cap width (n + 1) i out =
      (takeLanes conv count width cap (13 * (i - 1) + 5) out >>= takeFrames rx conv count cap width n (i + 1)) := by
  rw [takeFrames, readByte_of_lt (by omega), eval_ok_bind, if_neg (by simpa using hg.1),
    checkWindow_of_valid _ ⟨by omega, hg.2⟩, eval_ok_bind]

/-- A frame with another sequence byte ends the decode (R113 step 2). -/
theorem takeFrames_badSeq {α : Type} {rx : List Byte} (conv : Nat → Eval α) (count cap width n : Nat) {i : Nat}
    (out : List α) (hi : 1 ≤ i) (hl : 13 * i ≤ rx.length) (hs : (byteAt rx (13 * (i - 1) + 4)).toNat ≠ i) :
    takeFrames rx conv count cap width (n + 1) i out =
      raise (.frameNo (BitVec.ofNat 8 i) (byteAt rx (13 * (i - 1) + 4))) := by
  rw [takeFrames, readByte_of_lt (by omega), eval_ok_bind, if_pos hs]

/-- A frame with its own sequence byte and a wrong checksum ends the decode (R113 step 3). -/
theorem takeFrames_badSum {α : Type} {rx : List Byte} (conv : Nat → Eval α) (count cap width n : Nat) {i : Nat}
    (out : List α) (hi : 1 ≤ i) (hl : 13 * i ≤ rx.length) (hs : (byteAt rx (13 * (i - 1) + 4)).toNat = i)
    (hw : windowSum rx (13 * (i - 1)) ≠ byteAt rx (13 * (i - 1) + 12)) :
    takeFrames rx conv count cap width (n + 1) i out =
      raise (.checksum (BitVec.ofNat 8 i) (windowSum rx (13 * (i - 1))) (byteAt rx (13 * (i - 1) + 12))) := by
  rw [takeFrames, readByte_of_lt (by omega), eval_ok_bind, if_neg (by simpa using hs),
    checkWindow_of_bad _ (by omega) hw, eval_raise_bind]

/-- The address of value `k`: lane `k mod cap` of frame `k / cap`, 0-based. -/
def laneAddress (cap width k : Nat) : Nat := 13 * (k / cap) + 5 + width * (k % cap)

theorem laneAddress_add {cap width m j : Nat} (hj : j < cap) :
    laneAddress cap width (cap * m + j) = 13 * m + 5 + width * j := by
  unfold laneAddress
  rw [Nat.mul_add_div (by omega), Nat.mul_add_mod, Nat.div_eq_of_lt hj, Nat.mod_eq_of_lt hj]
  simp

/-- Good frames whose read lanes all convert give their values in order. -/
theorem takeFrames_ok {α : Type} {rx : List Byte} (conv : Nat → Eval α) (g : Nat → α) (count cap width : Nat) :
    ∀ (n i : Nat), 1 ≤ i → 13 * (i + n - 1) ≤ rx.length → (∀ j, i ≤ j → j < i + n → GoodFrame rx j) →
      (∀ k, k < min count (cap * (i + n - 1)) → conv (laneAddress cap width k) = .ok (g (laneAddress cap width k))) →
      takeFrames rx conv count cap width n i
          ((List.range (min count (cap * (i - 1)))).map fun k => g (laneAddress cap width k)) =
        .ok ((List.range (min count (cap * (i + n - 1)))).map fun k => g (laneAddress cap width k)) := by
  intro n
  induction n with
  | zero => intro i _ _ _ _; simp [takeFrames]
  | succ n ih =>
    intro i hi hl hg hc
    obtain ⟨m, rfl⟩ : ∃ m, i = m + 1 := ⟨i - 1, by omega⟩
    have hmul : cap * (m + 1) = cap * m + cap := by ring
    have hmono : cap * (m + 1) ≤ cap * (m + 1 + (n + 1) - 1) := Nat.mul_le_mul_left _ (by omega)
    rw [takeFrames_good _ _ _ _ _ _ hi (by omega) (hg _ (by omega) (by omega)), Nat.add_sub_cancel]
    have hlanes : takeLanes conv count width cap (13 * m + 5)
        ((List.range (min count (cap * m))).map fun k => g (laneAddress cap width k)) =
        .ok ((List.range (min count (cap * (m + 1)))).map fun k => g (laneAddress cap width k)) := by
      by_cases hfull : count ≤ cap * m
      · rw [takeLanes_full _ _ _ _ (by simp; omega), show min count (cap * m) = count by omega,
          show min count (cap * (m + 1)) = count by omega]
      · have hlen : min count (cap * m) = cap * m := by omega
        have hd : ∀ j, j < min cap (count - cap * m) →
            laneAddress cap width (cap * m + j) = 13 * m + 5 + width * j :=
          fun j hj => laneAddress_add (by omega)
        rw [takeLanes_ok conv g count width cap (min cap (count - cap * m)) _ _ (by omega)
          (by simp only [List.length_map, List.length_range]; omega)
          (by simp only [List.length_map, List.length_range]; omega)
          (fun j hj => by rw [← hd j hj]; exact hc _ (by omega))]
        rw [hlen, show min count (cap * (m + 1)) = cap * m + min cap (count - cap * m) by omega, List.range_add,
          List.map_append, List.map_map]
        congr 2
        apply List.map_congr_left
        intro j hj
        rw [Function.comp_apply, hd j (by simpa using hj)]
    rw [hlanes, eval_ok_bind]
    have := ih (m + 1 + 1) (by omega) (by rw [show m + 1 + 1 + n - 1 = m + 1 + (n + 1) - 1 by omega]; exact hl)
      (fun j h1 h2 => hg j (by omega) (by omega))
      (by rw [show m + 1 + 1 + n - 1 = m + 1 + (n + 1) - 1 by omega]; exact hc)
    rwa [show m + 1 + 1 + n - 1 = m + 1 + (n + 1) - 1 by omega, show m + 1 + 1 - 1 = m + 1 by omega] at this

/-- With the buffer long enough and no lane that faults, the frames do not fault. -/
theorem takeFrames_ne_faulted {α : Type} {rx : List Byte} (conv : Nat → Eval α) (count cap width : Nat) (f : Fault)
    (hc : ∀ m j, j < cap → 13 * (m + 1) ≤ rx.length → conv (13 * m + 5 + width * j) ≠ .error (.faulted f)) :
    ∀ (n i : Nat) (out : List α), 1 ≤ i → 13 * (i + n - 1) ≤ rx.length →
      takeFrames rx conv count cap width n i out ≠ .error (.faulted f) := by
  intro n
  induction n with
  | zero => intro i out _ _; simp [takeFrames]
  | succ n ih =>
    intro i out hi hl
    by_cases hs : (byteAt rx (13 * (i - 1) + 4)).toNat = i
    · by_cases hw : windowSum rx (13 * (i - 1)) = byteAt rx (13 * (i - 1) + 12)
      · rw [takeFrames_good _ _ _ _ _ _ hi (by omega) ⟨hs, hw⟩]
        intro h
        rcases eval_bind_eq_error.mp h with h | ⟨o, _, h⟩
        · exact takeLanes_ne_faulted conv count width f cap _ out (fun j hj => hc (i - 1) j hj (by omega)) h
        · exact ih (i + 1) o (by omega) (by rwa [show i + 1 + n - 1 = i + (n + 1) - 1 by omega]) h
      · rw [takeFrames_badSum _ _ _ _ _ _ hi (by omega) hs hw]; simp [raise]
    · rw [takeFrames_badSeq _ _ _ _ _ _ hi (by omega) hs]; simp [raise]

/-! ### The reassembler -/

theorem reassemble_short {α : Type} {rx : List Byte} {count cap : Nat} (width : Nat) (conv : Nat → Eval α)
    (h : rx.length < 13 * nframes count cap) :
    reassemble rx count cap width conv = raise (.replySize (13 * nframes count cap) rx.length) := by
  rw [reassemble, validateLen_of_lt h, eval_raise_bind]

theorem reassemble_long {α : Type} {rx : List Byte} {count cap : Nat} (width : Nat) (conv : Nat → Eval α)
    (h : 13 * nframes count cap ≤ rx.length) :
    reassemble rx count cap width conv = takeFrames rx conv count cap width (nframes count cap) 1 [] := by
  rw [reassemble, validateLen_of_le h, eval_ok_bind]

/-- A valid reply whose values all convert is reassembled to exactly `count` values in frame order (R113). -/
theorem reassemble_ok {α : Type} {rx : List Byte} {count cap : Nat} (width : Nat) (conv : Nat → Eval α) (g : Nat → α)
    (hcap : 0 < cap) (hv : ValidFrames rx (nframes count cap))
    (hc : ∀ k, k < count → conv (laneAddress cap width k) = .ok (g (laneAddress cap width k))) :
    reassemble rx count cap width conv = .ok ((List.range count).map fun k => g (laneAddress cap width k)) := by
  have hn := (nframes_spec (count := count) hcap).1
  rw [reassemble_long width conv hv.1]
  have := takeFrames_ok conv g count cap width (nframes count cap) 1 (by omega)
    (by rw [Nat.add_sub_cancel_left]; exact hv.1) (fun j h1 h2 => hv.2 j h1 (by omega))
    (fun k hk => hc k (by omega))
  rw [Nat.add_sub_cancel_left, show min count (cap * nframes count cap) = count by omega] at this
  simpa using this

/-! ### Two buffers, the first failure, and lengths -/

theorem takeLanes_congr {α : Type} {conv conv' : Nat → Eval α} (count width : Nat) :
    ∀ (lanes a : Nat) (out : List α), (∀ j, j < lanes → conv (a + width * j) = conv' (a + width * j)) →
      takeLanes conv count width lanes a out = takeLanes conv' count width lanes a out := by
  intro lanes
  induction lanes with
  | zero => intro a out _; rfl
  | succ lanes ih =>
    intro a out h
    have h0 := h 0 (by omega)
    simp only [Nat.mul_zero, Nat.add_zero] at h0
    rw [takeLanes, takeLanes, h0]
    split
    · rfl
    · congr 1
      funext v
      apply ih
      intro j hj
      have := h (j + 1) (by omega)
      rwa [show a + width * (j + 1) = a + width + width * j by ring] at this

/-- Two buffers whose bytes, windows and lanes agree inside the first are reassembled alike. -/
theorem takeFrames_congr {α : Type} {rx rx' : List Byte} {conv conv' : Nat → Eval α} (count cap width : Nat)
    (hc : ∀ m j, j < cap → 13 * (m + 1) ≤ rx.length → conv (13 * m + 5 + width * j) = conv' (13 * m + 5 + width * j))
    (hl : rx.length ≤ rx'.length) (hb : ∀ k, k < rx.length → byteAt rx k = byteAt rx' k)
    (hw : ∀ k, k + 13 ≤ rx.length → windowSum rx k = windowSum rx' k) :
    ∀ (n i : Nat) (out : List α), 1 ≤ i → 13 * (i + n - 1) ≤ rx.length →
      takeFrames rx conv count cap width n i out = takeFrames rx' conv' count cap width n i out := by
  intro n
  induction n with
  | zero => intro i out _ _; rfl
  | succ n ih =>
    intro i out hi h
    have e1 := hb (13 * (i - 1) + 4) (by omega)
    have e2 := hw (13 * (i - 1)) (by omega)
    have e3 := hb (13 * (i - 1) + 12) (by omega)
    by_cases hs : (byteAt rx (13 * (i - 1) + 4)).toNat = i
    · have hs' : (byteAt rx' (13 * (i - 1) + 4)).toNat = i := e1 ▸ hs
      by_cases hw' : windowSum rx (13 * (i - 1)) = byteAt rx (13 * (i - 1) + 12)
      · rw [takeFrames_good _ _ _ _ _ _ hi (by omega) ⟨hs, hw'⟩,
          takeFrames_good _ _ _ _ _ _ hi (by omega) ⟨hs', by rw [← e2, ← e3]; exact hw'⟩,
          takeLanes_congr count width cap _ _ fun j hj => hc (i - 1) j hj (by omega)]
        congr 1
        funext o
        apply ih <;> omega
      · rw [takeFrames_badSum _ _ _ _ _ _ hi (by omega) hs hw',
          takeFrames_badSum _ _ _ _ _ _ hi (by omega) hs' (by rw [← e2, ← e3]; exact hw'), e2, e3]
    · rw [takeFrames_badSeq _ _ _ _ _ _ hi (by omega) hs,
        takeFrames_badSeq _ _ _ _ _ _ hi (by omega) (e1 ▸ hs), e1]

/-- The frames up to that of value `k` pass every check, and value `k` is the first whose conversion ends early: the decode
ends so, whatever the later frames hold. -/
theorem takeFrames_error {α : Type} {rx : List Byte} (conv : Nat → Eval α) (g : Nat → α) {count cap N k : Nat}
    (width : Nat) {e : Stop} (hcap : 0 < cap) (hk : k < count) (hN : count ≤ cap * N) (hl : 13 * N ≤ rx.length)
    (hg : ∀ i, 1 ≤ i → i ≤ k / cap + 1 → GoodFrame rx i)
    (h1 : ∀ j, j < k → conv (laneAddress cap width j) = .ok (g (laneAddress cap width j)))
    (h2 : conv (laneAddress cap width k) = .error e) : takeFrames rx conv count cap width N 1 [] = .error e := by
  have hd := Nat.div_add_mod k cap
  have hm := Nat.mod_lt k hcap
  have hlt : k / cap < N := by
    rw [Nat.div_lt_iff_lt_mul hcap, Nat.mul_comm]
    omega
  obtain ⟨q, hq⟩ : ∃ q, q = k / cap := ⟨_, rfl⟩
  obtain ⟨p, hp⟩ : ∃ p, p = k % cap := ⟨_, rfl⟩
  rw [← hq] at hlt hd hg
  rw [← hp] at hm hd
  obtain ⟨r, hr⟩ : ∃ r, N = q + (r + 1) := ⟨N - q - 1, by omega⟩
  have hpre := takeFrames_ok conv g count cap width (rx := rx) q 1 (by omega) (by omega)
    (fun j _ _ => hg j (by omega) (by omega))
    (fun j hj => h1 j (by rw [Nat.add_sub_cancel_left] at hj; omega))
  rw [Nat.sub_self, Nat.mul_zero, Nat.min_zero, List.range_zero, List.map_nil, Nat.add_sub_cancel_left] at hpre
  have hadd : ∀ j, j < cap → laneAddress cap width (cap * q + j) = 13 * q + 5 + width * j :=
    fun j hj => laneAddress_add hj
  have hlow : ∀ j, j < p → conv (13 * q + 5 + width * j) = .ok (g (13 * q + 5 + width * j)) := fun j hj => by
    rw [← hadd j (by omega)]
    exact h1 _ (by omega)
  have hat : conv (13 * q + 5 + width * p) = .error e := by
    rw [← hadd p hm, hd]
    exact h2
  rw [hr, takeFrames_add, hpre, eval_ok_bind,
    takeFrames_good _ _ _ _ _ _ (by omega) (by omega) (hg (1 + q) (by omega) (by omega)), Nat.add_sub_cancel_left,
    takeLanes_error conv g count width e cap p _ _ hm (by simp; omega) hlow hat]
  rfl

/-- With the frames before frame `i` good and their values converting, the decode goes on at frame `i`. -/
theorem takeFrames_upto {α : Type} {rx : List Byte} (conv : Nat → Eval α) (g : Nat → α) (count cap width n i : Nat)
    (hi : 1 ≤ i) (hn : i ≤ n) (hl : 13 * n ≤ rx.length) (hg : ∀ j, 1 ≤ j → j < i → GoodFrame rx j)
    (hc : ∀ k, k < min count (cap * (i - 1)) → conv (laneAddress cap width k) = .ok (g (laneAddress cap width k))) :
    ∃ out, takeFrames rx conv count cap width n 1 [] = takeFrames rx conv count cap width (n - i + 1) i out := by
  obtain ⟨m, rfl⟩ : ∃ m, i = m + 1 := ⟨i - 1, by omega⟩
  have e : n = m + (n - (m + 1) + 1) := by omega
  rw [Nat.add_sub_cancel] at hc
  have hpre := takeFrames_ok conv g count cap width (rx := rx) m 1 (by omega) (by omega)
    (fun j _ _ => hg j (by omega) (by omega)) (fun j hj => hc j (by rwa [Nat.add_sub_cancel_left] at hj))
  rw [Nat.sub_self, Nat.mul_zero, Nat.min_zero, List.range_zero, List.map_nil] at hpre
  refine ⟨(List.range (min count (cap * (1 + m - 1)))).map fun k => g (laneAddress cap width k), ?_⟩
  obtain ⟨r, hr⟩ : ∃ r, r = n - (m + 1) + 1 := ⟨_, rfl⟩
  rw [← hr] at e ⊢
  rw [e, takeFrames_add, hpre, eval_ok_bind, Nat.add_comm 1 m]

/-- Frames that decode put out all their lanes, up to `count`. -/
theorem takeFrames_length {α : Type} (rx : List Byte) (conv : Nat → Eval α) (count cap width : Nat) :
    ∀ (n i : Nat) (out out' : List α), out.length ≤ count →
      takeFrames rx conv count cap width n i out = .ok out' → out'.length = min count (out.length + cap * n) := by
  intro n
  induction n with
  | zero =>
    intro i out out' h h'
    simp only [takeFrames, Except.ok.injEq] at h'
    subst h'
    omega
  | succ n ih =>
    intro i out out' h h'
    rw [takeFrames] at h'
    obtain ⟨b, _, h'⟩ := eval_bind_eq_ok.mp h'
    split at h'
    · simp [raise] at h'
    · obtain ⟨_, _, h'⟩ := eval_bind_eq_ok.mp h'
      obtain ⟨o, ho, h'⟩ := eval_bind_eq_ok.mp h'
      have h1 := takeLanes_length conv count width _ _ _ _ h ho
      have h2 := ih _ _ _ (by omega) h'
      rw [Nat.mul_succ]
      omega

/-- A reply that decodes gives exactly `count` values (R115). -/
theorem reassemble_length {α : Type} {rx : List Byte} {count cap width : Nat} {conv : Nat → Eval α} {out : List α}
    (hcap : 0 < cap) (h : reassemble rx count cap width conv = .ok out) : out.length = count := by
  unfold reassemble at h
  obtain ⟨_, _, h⟩ := eval_bind_eq_ok.mp h
  have h1 := takeFrames_length _ _ _ _ _ _ _ _ _ (by simp) h
  have h2 := (nframes_spec (count := count) hcap).1
  rw [h1, List.length_nil]
  omega

end Sys2Proof.Machine
end

