-- ==== Sys2Proof/Laws/Exec.lean ====
section
/-! SUPPORT. How an evaluation can end, part by part: its reads stay inside the buffer, and it raises only the errors of
its rule. -/

namespace Sys2Proof.Machine

/-- An evaluation that reads only inside the buffer. -/
def NoFault {α : Type} (x : Eval α) : Prop := ∀ f, x ≠ .error (.faulted f)

/-- An evaluation that raises only errors of which `P` holds. -/
def RaisesOnly {α : Type} (P : Info → Prop) (x : Eval α) : Prop := ∀ e, x = raise e → P e

/-! ### Reads stay inside the buffer -/

theorem NoFault.bind {α β : Type} {x : Eval α} {g : α → Eval β} (h : NoFault x)
    (hg : ∀ a, x = .ok a → NoFault (g a)) : NoFault (x >>= g) := by
  intro f hf
  rcases eval_bind_eq_error.mp hf with h1 | ⟨a, ha, h1⟩
  · exact h f h1
  · exact hg a ha f h1

theorem NoFault.ok {α : Type} (a : α) : NoFault (.ok a : Eval α) := by intro f; simp

theorem NoFault.of_raise {α : Type} (e : Info) : NoFault (raise e : Eval α) := by intro f; simp [raise]

theorem NoFault.of_tempOf (narrow : TempNarrow) (n offset : Byte) : NoFault (tempOf narrow n offset) := by
  rw [tempOf_eq]
  split
  · exact .of_raise _
  · exact .ok _

theorem NoFault.of_byteBool (other : BoolByteOther) (n offset : Byte) : NoFault (byteBool other n offset) := by
  rw [byteBool_eq]
  split
  · exact .of_raise _
  · exact .ok _

theorem NoFault.of_modeOf (m : Byte) : NoFault (modeOf m) := by
  rcases modeOf_cases m with ⟨_, h⟩ | ⟨_, h⟩ | ⟨_, h⟩ | ⟨_, h⟩ <;> rw [h]
  · exact .ok _
  · exact .ok _
  · exact .ok _
  · exact .of_raise _

theorem NoFault.of_validateLen (rx : List Byte) (n : Nat) : NoFault (validateLen rx n) := by
  unfold validateLen
  split
  · exact .of_raise _
  · exact .ok _

theorem NoFault.of_validateCks {rx : List Byte} (i : Byte) (h : rx.length ≠ 0) : NoFault (validateCks rx i) := by
  unfold validateCks
  split
  · rename_i h'
    simp only [List.getLast?_eq_none_iff] at h'
    simp [h'] at h
  · simp only
    split
    · exact .ok _
    · exact .of_raise _

theorem NoFault.of_decodeSingle {rx : List Byte} {x : Eval Decoded} (h : 13 ≤ rx.length → NoFault x) :
    NoFault (decodeSingle rx x) :=
  fun f => decodeSingle_ne_faulted (fun hl => h hl f)

theorem NoFault.of_extractSoc (p : Params) {rx : List Byte} (h : 13 ≤ rx.length) : NoFault (extractSoc p rx) := by
  rw [extractSoc_eq p h]
  exact .ok _

theorem NoFault.of_extractCvr (p : Params) {rx : List Byte} (h : 13 ≤ rx.length) : NoFault (extractCvr p rx) := by
  rw [extractCvr_eq p h]
  exact .ok _

theorem NoFault.of_extractTr (p : Params) {rx : List Byte} (h : 13 ≤ rx.length) : NoFault (extractTr p rx) := by
  rw [extractTr_eq p h]
  exact .bind (.of_tempOf _ _ _) fun _ _ => .bind (.of_tempOf _ _ _) fun _ _ => .ok _

theorem NoFault.of_extractMos (p : Params) {rx : List Byte} (h : 13 ≤ rx.length) : NoFault (extractMos p rx) := by
  rw [extractMos_eq p h]
  exact .bind (.of_modeOf _) fun _ _ => .bind (.of_byteBool _ _ _) fun _ _ => .bind (.of_byteBool _ _ _) fun _ _ => .ok _

theorem NoFault.of_extractStatus (p : Params) {rx : List Byte} (h : 13 ≤ rx.length) : NoFault (extractStatus p rx) := by
  rw [extractStatus_eq p h]
  exact .bind (.of_byteBool _ _ _) fun _ _ => .bind (.of_byteBool _ _ _) fun _ _ => .ok _

theorem NoFault.of_extractBal {rx : List Byte} {count : Nat} (hc : count ≤ 48) (h : 13 ≤ rx.length) :
    NoFault (extractBal rx count) := by
  rw [extractBal_eq h hc]
  exact .ok _

theorem NoFault.of_extractErr (p : Params) {rx : List Byte} (h : 13 ≤ rx.length) : NoFault (extractErr p rx) := by
  rw [extractErr_eq p h]
  exact .ok _

theorem NoFault.of_cellVoltageAt (p : Params) {rx : List Byte} {m j : Nat} (hj : j < 3) (h : 13 * (m + 1) ≤ rx.length) :
    NoFault (cellVoltageAt p rx (13 * m + 5 + 2 * j)) := by
  rw [cellVoltageAt, be16_of_le (by omega), eval_ok_bind]
  exact .ok _

theorem NoFault.of_cellTemperatureAt (p : Params) {rx : List Byte} {m j : Nat} (hj : j < 7)
    (h : 13 * (m + 1) ≤ rx.length) : NoFault (cellTemperatureAt p rx (13 * m + 5 + 1 * j)) := by
  rw [cellTemperatureAt, readByte_of_lt (by omega), eval_ok_bind]
  exact .of_tempOf _ _ _

theorem NoFault.of_reassemble {α : Type} {rx : List Byte} {count cap width : Nat} {conv : Nat → Eval α}
    (hc : ∀ m j, j < cap → 13 * (m + 1) ≤ rx.length → NoFault (conv (13 * m + 5 + width * j))) :
    NoFault (reassemble rx count cap width conv) := by
  intro f
  by_cases h : rx.length < 13 * nframes count cap
  · rw [reassemble_short _ _ h]
    exact NoFault.of_raise _ f
  · rw [reassemble_long _ _ (by omega)]
    exact takeFrames_ne_faulted conv count cap width f (fun m j hj hl => hc m j hj hl f) _ 1 [] (by omega) (by omega)

/-- An operation whose evaluation does not fault writes one and the same record in every state. -/
theorem conclude_of_noFault {α : Type} (mk : α → ResultRecord) {x : Eval α} (h : NoFault x) :
    ∃ r, ∀ s : State, conclude s mk x = .next (s.setResult r) := by
  match x, h with
  | .ok v, _ => exact ⟨_, fun _ => rfl⟩
  | .error (.raised e), _ => exact ⟨_, fun _ => rfl⟩
  | .error (.faulted f), h => exact absurd rfl (h f)

/-! ### Which errors are raised -/

theorem RaisesOnly.bind {P : Info → Prop} {α β : Type} {x : Eval α} {g : α → Eval β} (h : RaisesOnly P x)
    (hg : ∀ a, x = .ok a → RaisesOnly P (g a)) : RaisesOnly P (x >>= g) := by
  intro e he
  rcases eval_bind_eq_error.mp he with h1 | ⟨a, ha, h1⟩
  · exact h e h1
  · exact hg a ha e h1

theorem RaisesOnly.ok {P : Info → Prop} {α : Type} (a : α) : RaisesOnly P (.ok a : Eval α) := by
  intro e h
  simp [raise] at h

theorem RaisesOnly.of_raise {P : Info → Prop} {α : Type} {e : Info} (h : P e) : RaisesOnly P (raise e : Eval α) := by
  intro e' he
  simp only [raise, Except.error.injEq, Stop.raised.injEq] at he
  exact he ▸ h

theorem RaisesOnly.of_tempOf {P : Info → Prop} (narrow : TempNarrow) (n offset : Byte)
    (h : 168 ≤ n.toNat → P (.fieldOutOfRange offset n)) : RaisesOnly P (tempOf narrow n offset) := by
  rw [tempOf_eq]
  split
  · rename_i hh
    exact .of_raise (h hh.2)
  · exact .ok _

theorem RaisesOnly.of_byteBool {P : Info → Prop} (other : BoolByteOther) (n offset : Byte)
    (h : 2 ≤ n.toNat → P (.fieldOutOfRange offset n)) : RaisesOnly P (byteBool other n offset) := by
  rw [byteBool_eq]
  split
  · rename_i hh
    exact .of_raise (h hh.2)
  · exact .ok _

theorem RaisesOnly.of_modeOf {P : Info → Prop} (m : Byte) (h : 3 ≤ m.toNat → P (.fieldOutOfRange 4 m)) :
    RaisesOnly P (modeOf m) := by
  rcases modeOf_cases m with ⟨_, h'⟩ | ⟨_, h'⟩ | ⟨_, h'⟩ | ⟨hh, h'⟩ <;> rw [h']
  · exact .ok _
  · exact .ok _
  · exact .ok _
  · exact .of_raise (h hh)

theorem RaisesOnly.of_validateLen {P : Info → Prop} {rx : List Byte} {n : Nat}
    (h : rx.length < n → P (.replySize n rx.length)) : RaisesOnly P (validateLen rx n) := by
  unfold validateLen
  split
  · exact .of_raise (h ‹_›)
  · exact .ok _

theorem RaisesOnly.of_validateCks {P : Info → Prop} {rx : List Byte} {i : Byte}
    (h : ∀ c r, c ≠ r → P (.checksum i c r)) : RaisesOnly P (validateCks rx i) := by
  unfold validateCks
  split
  · intro e he
    simp [raise] at he
  · simp only
    split
    · exact .ok _
    · exact .of_raise (h _ _ ‹_›)

theorem RaisesOnly.of_checkWindow {P : Info → Prop} {rx : List Byte} {base : Nat} {i : Byte}
    (hl : base + 13 ≤ rx.length) (h : ∀ c r, c ≠ r → P (.checksum i c r)) : RaisesOnly P (checkWindow rx base i) := by
  rw [checkWindow_eq i hl]
  split
  · exact .ok _
  · exact .of_raise (h _ _ ‹_›)

theorem RaisesOnly.of_decodeSingle {P : Info → Prop} {rx : List Byte} {x : Eval Decoded}
    (h1 : rx.length < 13 → P (.replySize 13 rx.length)) (h2 : ∀ c r, c ≠ r → P (.checksum 1 c r))
    (h : 13 ≤ rx.length → RaisesOnly P x) : RaisesOnly P (decodeSingle rx x) := by
  by_cases hl : rx.length < 13
  · rw [decodeSingle_short hl]
    exact .of_raise (h1 hl)
  · rw [decodeSingle, validateLen_of_le (by omega), eval_ok_bind]
    exact .bind (.of_checkWindow (by omega) h2) fun _ _ => h (by omega)

theorem RaisesOnly.of_takeLanes {P : Info → Prop} {α : Type} (conv : Nat → Eval α) (count width : Nat) :
    ∀ (lanes a : Nat) (out : List α), (∀ j, j < lanes → RaisesOnly P (conv (a + width * j))) →
      RaisesOnly P (takeLanes conv count width lanes a out) := by
  intro lanes
  induction lanes with
  | zero => intro a out _; exact .ok _
  | succ lanes ih =>
    intro a out h
    rw [takeLanes]
    split
    · exact .ok _
    · refine .bind (by simpa using h 0 (by omega)) fun v _ => ih _ _ fun j hj => ?_
      have := h (j + 1) (by omega)
      rwa [show a + width * (j + 1) = a + width + width * j by ring] at this

theorem RaisesOnly.of_takeFrames {P : Info → Prop} {α : Type} {rx : List Byte} (conv : Nat → Eval α)
    (count cap width : Nat)
    (hc : ∀ m j, j < cap → 13 * (m + 1) ≤ rx.length → RaisesOnly P (conv (13 * m + 5 + width * j)))
    (h2 : ∀ i c r, c ≠ r → P (.checksum i c r)) (h3 : ∀ i r, i ≠ r → P (.frameNo i r)) :
    ∀ (n i : Nat) (out : List α), 1 ≤ i → i + n ≤ 256 → 13 * (i + n - 1) ≤ rx.length →
      RaisesOnly P (takeFrames rx conv count cap width n i out) := by
  intro n
  induction n with
  | zero => intro i out _ _ _; exact .ok _
  | succ n ih =>
    intro i out hi h256 hl
    by_cases hs : (byteAt rx (13 * (i - 1) + 4)).toNat = i
    · by_cases hw : windowSum rx (13 * (i - 1)) = byteAt rx (13 * (i - 1) + 12)
      · rw [takeFrames_good _ _ _ _ _ _ hi (by omega) ⟨hs, hw⟩]
        exact .bind (.of_takeLanes _ _ _ _ _ _ fun j hj => hc (i - 1) j hj (by omega)) fun o _ =>
          ih _ _ (by omega) (by omega) (by rwa [show i + 1 + n - 1 = i + (n + 1) - 1 by omega])
      · rw [takeFrames_badSum _ _ _ _ _ _ hi (by omega) hs hw]
        exact .of_raise (h2 _ _ _ hw)
    · rw [takeFrames_badSeq _ _ _ _ _ _ hi (by omega) hs]
      refine .of_raise (h3 _ _ fun h => hs ?_)
      rw [← h]
      simp
      omega

/-- A byte count of values needs at most 85 frames. -/
theorem nframes_le (c : Byte) {cap : Nat} (h : 3 ≤ cap) : nframes c.toNat cap ≤ 85 := by
  have hc := c.isLt
  obtain ⟨_, h2⟩ := nframes_spec (count := c.toNat) (cap := cap) (by omega)
  by_contra hh
  have : cap * 86 ≤ cap * nframes c.toNat cap := Nat.mul_le_mul_left _ (by omega)
  omega

theorem RaisesOnly.of_reassemble {P : Info → Prop} {α : Type} {rx : List Byte} {count cap width : Nat}
    {conv : Nat → Eval α}
    (hc : ∀ m j, j < cap → 13 * (m + 1) ≤ rx.length → RaisesOnly P (conv (13 * m + 5 + width * j)))
    (h1 : rx.length < 13 * nframes count cap → P (.replySize (13 * nframes count cap) rx.length))
    (h2 : ∀ i c r, c ≠ r → P (.checksum i c r)) (h3 : ∀ i r, i ≠ r → P (.frameNo i r))
    (hn : nframes count cap ≤ 255) : RaisesOnly P (reassemble rx count cap width conv) := by
  by_cases h : rx.length < 13 * nframes count cap
  · rw [reassemble_short _ _ h]
    exact .of_raise (h1 h)
  · rw [reassemble_long _ _ (by omega)]
    exact .of_takeFrames _ _ _ _ hc h2 h3 _ _ _ (by omega) (by omega) (by omega)

/-- How an operation ends, from what is known of its evaluation: the record of its value, or the record of an error. -/
theorem conclude_cases {α : Type} {P : Info → Prop} {Q : ResultRecord → Prop} (s : State) (mk : α → ResultRecord)
    {x : Eval α} (h1 : NoFault x) (h2 : RaisesOnly P x) (h3 : ∀ v, x = .ok v → Q (mk v)) :
    ∃ r, conclude s mk x = .next (s.setResult r) ∧ (Q r ∨ ∃ e, r = .failed e ∧ P e) := by
  match x, h1, h2, h3 with
  | .ok v, _, _, h3 => exact ⟨_, rfl, .inl (h3 v rfl)⟩
  | .error (.raised e), _, h2, _ => exact ⟨_, rfl, .inr ⟨e, rfl, h2 e rfl⟩⟩
  | .error (.faulted f), h, _, _ => exact absurd rfl (h f)

/-! ### Steps and PARSE, in one equation each -/

theorem stepPresent_of_le {s : State} {r : OperandRecord} (rest : List PortMove) (hl : r.rx.length ≤ s.params.rxCap) :
    stepPresent s r rest = runOperation (s.latch r rest) := if_pos ((admits_iff s r).mpr hl)

theorem stepPresent_of_gt {s : State} {r : OperandRecord} (rest : List PortMove) (hl : s.params.rxCap < r.rx.length) :
    stepPresent s r rest = .refused .rxOverCap :=
  if_neg fun h => absurd ((admits_iff s r).mp h) (Nat.not_le.mpr hl)

theorem stepCut_of_le {s : State} {r : OperandRecord} (rest : List PortMove) (hl : r.rx.length ≤ s.params.rxCap) :
    stepCut s r rest = .next ((s.latch r rest).setResult .absent) := if_pos ((admits_iff s r).mpr hl)

theorem stepCut_of_gt {s : State} {r : OperandRecord} (rest : List PortMove) (hl : s.params.rxCap < r.rx.length) :
    stepCut s r rest = .refused .rxOverCap :=
  if_neg fun h => absurd ((admits_iff s r).mp h) (Nat.not_le.mpr hl)

/-- A step on a presented record, whoever presents it. -/
theorem step_present {s : State} {r : OperandRecord} {rest : List PortMove} (h : s.presents r rest) :
    step s = stepPresent s r rest := by
  rcases h with h | ⟨h, hd⟩
  · unfold step
    rw [h]
  · unfold step
    rw [h]
    simp only [stepHost]
    rw [if_pos ((mayPresent_iff s.host r).mpr hd)]

/-- A step on a presented record that answers a next state has run its operation. -/
theorem stepPresent_next {s t : State} {r : OperandRecord} {rest : List PortMove} (h : stepPresent s r rest = .next t) :
    r.rx.length ≤ s.params.rxCap ∧ runOperation (s.latch r rest) = .next t := by
  by_cases hl : r.rx.length ≤ s.params.rxCap
  · exact ⟨hl, by rwa [stepPresent_of_le rest hl] at h⟩
  · rw [stepPresent_of_gt rest (by omega)] at h
    cases h

/-- A step on an operation cut by a reset that answers a next state leaves the result port absent. -/
theorem stepCut_next {s t : State} {r : OperandRecord} {rest : List PortMove} (h : stepCut s r rest = .next t) :
    t = (s.latch r rest).setResult .absent := by
  by_cases hl : r.rx.length ≤ s.params.rxCap
  · rw [stepCut_of_le rest hl] at h
    cases h
    rfl
  · rw [stepCut_of_gt rest (by omega)] at h
    cases h

/-- Everything a step can have done when it answers a next state. -/
theorem step_next {s t : State} (h : step s = .next t) :
    (∃ r rest, s.presents r rest ∧ r.rx.length ≤ s.params.rxCap ∧ runOperation (s.latch r rest) = .next t)
    ∨ (∃ r rest, (s.moves = .presentCut r :: rest ∨ s.moves = .host (.presentCut r) :: rest)
        ∧ t = (s.latch r rest).setResult .absent)
    ∨ (∃ f rest, s.moves = .host .deliver :: rest ∧ s.result.tx = some f ∧ t = (s.setMoves rest).setHost (s.host.deliver f))
    ∨ (∃ bytes rest, s.moves = .host (.receive bytes) :: rest ∧ t = (s.setMoves rest).setHost (s.host.receive bytes))
    ∨ (∃ rest, s.moves = .assertReset :: rest ∧ t = (s.setMoves rest).setResult .absent)
    ∨ (∃ f rest, s.moves = .readResult f :: rest ∧ s.result.has f = true ∧ t = s.setMoves rest)
    ∨ (s.moves = [] ∧ t = s) := by
  unfold step at h
  split at h
  · rename_i hm
    cases h
    exact .inr (.inr (.inr (.inr (.inr (.inr ⟨hm, rfl⟩)))))
  · rename_i r rest hm
    exact .inl ⟨r, rest, .inl hm, stepPresent_next h⟩
  · rename_i r rest hm
    exact .inr (.inl ⟨r, rest, .inl hm, stepCut_next h⟩)
  · rename_i f rest hm
    unfold portRead at h
    split at h
    · rename_i hf
      cases h
      exact .inr (.inr (.inr (.inr (.inr (.inl ⟨f, rest, hm, hf, rfl⟩)))))
    · cases h
  · rename_i rest hm
    cases h
    exact .inr (.inr (.inr (.inr (.inl ⟨rest, hm, rfl⟩))))
  · rename_i m rest hm
    cases m with
    | present r =>
      simp only [stepHost] at h
      split at h
      · rename_i hd
        exact .inl ⟨r, rest, .inr ⟨hm, (mayPresent_iff _ _).mp hd⟩, stepPresent_next h⟩
      · cases h
    | presentCut r =>
      simp only [stepHost] at h
      split at h
      · exact .inr (.inl ⟨r, rest, .inr hm, stepCut_next h⟩)
      · cases h
    | deliver =>
      simp only [stepHost, hostDeliver] at h
      split at h
      · rename_i f hf
        cases h
        exact .inr (.inr (.inl ⟨f, rest, hm, hf, rfl⟩))
      · cases h
    | receive bytes =>
      cases h
      exact .inr (.inr (.inr (.inl ⟨bytes, rest, hm, rfl⟩)))

/-- A record that the host presents and that runs was one it may present. -/
theorem step_host_present {s t : State} {r : OperandRecord} {rest : List PortMove}
    (hm : s.moves = .host (.present r) :: rest) (h : step s = .next t) :
    HostDuty s.host r ∧ runOperation (s.latch r rest) = .next t := by
  unfold step at h
  rw [hm] at h
  simp only [stepHost] at h
  split at h
  · rename_i hd
    exact ⟨(mayPresent_iff _ _).mp hd, (stepPresent_next h).2⟩
  · cases h

theorem withFetchWord_sixteen (s : State) (cw : Half) : s.withFetchWord 16 cw.toNat = s.presenting cw := by
  unfold State.withFetchWord
  congr 1
  apply BitVec.eq_of_toNat_eq
  have := cw.isLt
  simp
  exact this

/-- Everything PARSE does (40_frame_checksum.md R64). -/
theorem exec_parse (s : State) :
    exec .parse s =
      if s.op.rx.length < s.op.base.toNat + 13 then
        .next (s.setResult (.failed (.replySize (s.op.base.toNat + 13) s.op.rx.length)))
      else
        conclude s .okFields (parseFrame s.op.rx s.op.base.toNat) := by
  simp only [exec, execParse]
  split
  · rename_i h
    rw [validateLen_of_lt h]
    rfl
  · rw [validateLen_of_le (by omega), eval_ok_bind]

end Sys2Proof.Machine
end

