-- ==== Sys2Proof/Laws/Float.lean ====
section
/-! SUPPORT. Rounding to the format (00_scope.md R11): the integer rounding, the grid of finite values in units, and the
rounding itself. -/

namespace Sys2Proof

/-! ### Rounding to an integer -/

/-- No integer is nearer to `a / b` than the rounded one, and where another is as near the rounded one is even. -/
theorem roundHalfEven_near {a b : Nat} (hb : 0 < b) (k : Nat) :
    ((roundHalfEven a b * b : Int) - a).natAbs ≤ ((k * b : Int) - a).natAbs
    ∧ (k ≠ roundHalfEven a b →
        ((k * b : Int) - a).natAbs = ((roundHalfEven a b * b : Int) - a).natAbs → roundHalfEven a b % 2 = 0) := by
  have hdiv := Nat.div_add_mod a b
  have hmod := Nat.mod_lt a hb
  set q := a / b with hq
  set r := a % b with hr
  have hk1 : k < q → k * b + b ≤ b * q := fun h => by
    have := Nat.mul_le_mul_right b (show k + 1 ≤ q from h); rw [Nat.add_mul] at this; rw [Nat.mul_comm b q]; omega
  have hk2 : k = q → k * b = b * q := fun h => by rw [h, Nat.mul_comm]
  have hk3 : k = q + 1 → k * b = b * q + b := fun h => by rw [h, Nat.add_mul, Nat.mul_comm b q]; omega
  have hk4 : q + 1 < k → b * q + 2 * b ≤ k * b := fun h => by
    have := Nat.mul_le_mul_right b (show q + 2 ≤ k from h); rw [Nat.add_mul] at this; rw [Nat.mul_comm b q]; omega
  have hz : roundHalfEven a b = q ∧ (2 * r < b ∨ (2 * r = b ∧ q % 2 = 0))
      ∨ roundHalfEven a b = q + 1 ∧ (b < 2 * r ∨ (2 * r = b ∧ q % 2 = 1)) := by
    unfold roundHalfEven
    rw [← hq, ← hr]
    split
    · exact .inl ⟨rfl, .inl ‹_›⟩
    · split
      · exact .inr ⟨rfl, .inl ‹_›⟩
      · rcases Nat.mod_two_eq_zero_or_one q with h | h
        · exact .inl ⟨by omega, .inr ⟨by omega, h⟩⟩
        · exact .inr ⟨by omega, .inr ⟨by omega, h⟩⟩
  have hK : ((k * b : Int)) = ((k * b : Nat) : Int) := by push_cast; rfl
  rcases hz with ⟨hz, hc⟩ | ⟨hz, hc⟩
  · have hR : ((roundHalfEven a b * b : Int)) = ((b * q : Nat) : Int) := by rw [hz]; push_cast; ring
    rw [hR, hK, hz]
    rcases Nat.lt_trichotomy k q with h | h | h
    · have := hk1 h; omega
    · have := hk2 h; omega
    · rcases Nat.lt_or_ge (q + 1) k with h' | h'
      · have := hk4 h'; omega
      · have := hk3 (by omega); omega
  · have hR : ((roundHalfEven a b * b : Int)) = ((b * q + b : Nat) : Int) := by rw [hz]; push_cast; ring
    rw [hR, hK, hz]
    rcases Nat.lt_trichotomy k q with h | h | h
    · have := hk1 h; omega
    · have := hk2 h; omega
    · rcases Nat.lt_or_ge (q + 1) k with h' | h'
      · have := hk4 h'; omega
      · have := hk3 (by omega); omega

/-- A value of at least `k` rounds to at least `k`. -/
theorem le_roundHalfEven {a b k : Nat} (hb : 0 < b) (h : k * b ≤ a) : k ≤ roundHalfEven a b := by
  have : k ≤ a / b := (Nat.le_div_iff_mul_le hb).mpr h
  unfold roundHalfEven
  split
  · exact this
  · split <;> omega

/-- A value of at most `k` rounds to at most `k`. -/
theorem roundHalfEven_le {a b k : Nat} (hb : 0 < b) (h : a ≤ k * b) : roundHalfEven a b ≤ k := by
  have hdiv := Nat.div_add_mod a b
  have hmod := Nat.mod_lt a hb
  have hle : a / b ≤ k := by
    have := Nat.div_le_div_right (c := b) h
    rwa [Nat.mul_div_cancel _ hb] at this
  rcases Nat.lt_or_ge (a / b) k with hlt | hge
  · unfold roundHalfEven
    split
    · omega
    · split
      · omega
      · omega
  · have hk : a / b = k := by omega
    rw [hk] at hdiv
    have hr : a % b = 0 := by rw [Nat.mul_comm] at h; omega
    unfold roundHalfEven
    rw [hr, if_pos (by omega), hk]

theorem roundHalfEven_mono {a a' b : Nat} (_hb : 0 < b) (h : a ≤ a') : roundHalfEven a b ≤ roundHalfEven a' b := by
  by_cases hq : a / b = a' / b
  · have h1 := Nat.div_add_mod a b
    have h2 := Nat.div_add_mod a' b
    rw [hq] at h1
    unfold roundHalfEven
    rw [hq]
    split <;> split <;> (try split) <;> (try split) <;> omega
  · have hlt : a / b < a' / b := by
      have := Nat.div_le_div_right (c := b) h
      omega
    have h1 : roundHalfEven a b ≤ a / b + 1 := by
      unfold roundHalfEven
      split
      · omega
      · split <;> omega
    have h2 : a' / b ≤ roundHalfEven a' b := by
      unfold roundHalfEven
      split
      · omega
      · split <;> omega
    omega

/-! ### The grid of finite values -/

/-- The units of the pattern `e * 2^fracBits + m`, where `m` is a rounded multiple of `2^e` (00_scope.md R11). -/
theorem unitsOf_grid (f : FloatFmt) {e m : Nat} (hm : m ≤ 2 * 2 ^ f.fracBits) (he : e = 0 ∨ 2 ^ f.fracBits ≤ m) :
    unitsOf f (e * 2 ^ f.fracBits + m) = m * 2 ^ e := by
  have hP : 0 < 2 ^ f.fracBits := Nat.two_pow_pos _
  set P := 2 ^ f.fracBits with hPdef
  unfold unitsOf
  rw [← hPdef]
  rcases Nat.lt_or_ge m P with h | h
  · obtain rfl : e = 0 := by omega
    simp [Nat.div_eq_of_lt h, Nat.mod_eq_of_lt h]
  · rcases Nat.lt_or_ge m (2 * P) with h2 | h2
    · have hd : (e * P + m) / P = e + 1 := by
        rw [show e * P + m = (m - P) + (e + 1) * P by rw [Nat.add_mul]; omega, Nat.add_mul_div_right _ _ hP,
          Nat.div_eq_of_lt (by omega), Nat.zero_add]
      have hr : (e * P + m) % P = m - P := by
        rw [show e * P + m = (m - P) + (e + 1) * P by rw [Nat.add_mul]; omega, Nat.add_mul_mod_self_right,
          Nat.mod_eq_of_lt (by omega)]
      simp only [hd, hr]
      rw [if_neg (by omega), Nat.add_sub_cancel, show P + (m - P) = m by omega]
    · obtain rfl : m = 2 * P := by omega
      have hd : (e * P + 2 * P) / P = e + 2 := by
        rw [show e * P + 2 * P = (e + 2) * P by ring, Nat.mul_div_cancel _ hP]
      have hr : (e * P + 2 * P) % P = 0 := by
        rw [show e * P + 2 * P = (e + 2) * P by ring, Nat.mul_mod_left]
      simp only [hd, hr]
      rw [if_neg (by omega), Nat.add_zero, show e + 2 - 1 = e + 1 by omega, Nat.pow_succ]
      ring

/-- Every pattern is of that form, with the exponent its own. -/
theorem unitsOf_form (f : FloatFmt) (mag : Nat) :
    ∃ e m, mag = e * 2 ^ f.fracBits + m ∧ m < 2 * 2 ^ f.fracBits ∧ (e = 0 ∨ 2 ^ f.fracBits ≤ m)
      ∧ unitsOf f mag = m * 2 ^ e := by
  have hP : 0 < 2 ^ f.fracBits := Nat.two_pow_pos _
  have h1 := Nat.div_add_mod mag (2 ^ f.fracBits)
  have h2 := Nat.mod_lt mag hP
  by_cases h0 : mag / 2 ^ f.fracBits = 0
  · refine ⟨0, mag, by omega, ?_, .inl rfl, ?_⟩
    · rw [h0] at h1; omega
    · unfold unitsOf
      simp only [h0, if_true]
      rw [h0] at h1
      omega
  · refine ⟨mag / 2 ^ f.fracBits - 1, 2 ^ f.fracBits + mag % 2 ^ f.fracBits, ?_, by omega, .inr (by omega), ?_⟩
    · obtain ⟨k, hk⟩ : ∃ k, mag / 2 ^ f.fracBits = k + 1 := ⟨_, (Nat.succ_pred h0).symm⟩
      rw [hk] at h1 ⊢
      rw [Nat.add_sub_cancel]
      rw [Nat.mul_add, Nat.mul_comm] at h1
      omega
    · unfold unitsOf
      simp only [h0, if_false]

theorem unitsOf_lt_succ (f : FloatFmt) (mag : Nat) : unitsOf f mag < unitsOf f (mag + 1) := by
  obtain ⟨e, m, rfl, hm, he, hu⟩ := unitsOf_form f mag
  have h := unitsOf_grid f (e := e) (m := m + 1) (by omega) (by omega)
  rw [Nat.add_assoc, h, hu]
  exact Nat.mul_lt_mul_of_pos_right (by omega) (Nat.two_pow_pos _)

theorem unitsOf_strictMono (f : FloatFmt) : StrictMono (unitsOf f) := strictMono_nat_of_lt_succ (unitsOf_lt_succ f)

/-! ### Rounding to the format -/

theorem one_pos (f : FloatFmt) : 0 < f.one := Nat.two_pow_pos _

/-- Where the rounding looks: the exponent of the binade, the rounded multiple, and the bounds that make the pattern one of
the grid. -/
theorem roundMag_form (f : FloatFmt) (num : Nat) {den : Nat} (hd : 0 < den) :
    ∃ e m, roundMag f num den = min (e * 2 ^ f.fracBits + m) f.infMag
      ∧ m = roundHalfEven (num * f.one) (den * 2 ^ e)
      ∧ m ≤ 2 * 2 ^ f.fracBits ∧ (e = 0 ∨ 2 ^ f.fracBits ≤ m)
      ∧ num * f.one < 2 * 2 ^ f.fracBits * (den * 2 ^ e)
      ∧ (e = 0 ∨ 2 ^ f.fracBits * (den * 2 ^ e) ≤ num * f.one) := by
  set A := num * f.one with hA
  set e := (A / den).log2 - f.fracBits with he
  have hb : 0 < den * 2 ^ e := Nat.mul_pos hd (Nat.two_pow_pos _)
  have hup : A < 2 * 2 ^ f.fracBits * (den * 2 ^ e) := by
    have h1 : A / den < 2 ^ ((A / den).log2 + 1) := Nat.lt_log2_self
    have h2 : 2 ^ ((A / den).log2 + 1) ≤ 2 ^ (f.fracBits + e + 1) := Nat.pow_le_pow_right (by omega) (by omega)
    have h3 : A < 2 ^ (f.fracBits + e + 1) * den := (Nat.div_lt_iff_lt_mul hd).mp (Nat.lt_of_lt_of_le h1 h2)
    calc A < _ := h3
      _ = _ := by rw [Nat.pow_succ, Nat.pow_add]; ring
  have hlow : e = 0 ∨ 2 ^ f.fracBits * (den * 2 ^ e) ≤ A := by
    by_cases h0 : e = 0
    · exact .inl h0
    · right
      have hne : A / den ≠ 0 := by
        intro h
        rw [h] at he
        simp at he
        exact h0 he
      have h1 : 2 ^ (A / den).log2 ≤ A / den := Nat.log2_self_le hne
      have h2 : (A / den).log2 = f.fracBits + e := by omega
      rw [h2] at h1
      have h3 := (Nat.le_div_iff_mul_le hd).mp h1
      calc 2 ^ f.fracBits * (den * 2 ^ e) = 2 ^ (f.fracBits + e) * den := by rw [Nat.pow_add]; ring
        _ ≤ A := h3
  exact ⟨e, roundHalfEven A (den * 2 ^ e), rfl, rfl, roundHalfEven_le hb (by omega),
    hlow.imp id (fun h => le_roundHalfEven hb h), hup, hlow⟩

theorem roundMag_le_infMag (f : FloatFmt) (num den : Nat) : roundMag f num den ≤ f.infMag := Nat.min_le_right _ _

/-- Rounding keeps the order. -/
theorem roundMag_mono (f : FloatFmt) {a b den : Nat} (hd : 0 < den) (h : a ≤ b) :
    roundMag f a den ≤ roundMag f b den := by
  obtain ⟨e, m, h1, h2, h3, h4, h5, h6⟩ := roundMag_form f a hd
  obtain ⟨e', m', h1', h2', h3', h4', h5', h6'⟩ := roundMag_form f b hd
  have hab : a * f.one ≤ b * f.one := Nat.mul_le_mul_right _ h
  have hP : 0 < 2 ^ f.fracBits := Nat.two_pow_pos _
  rw [h1, h1']
  apply min_le_min_right
  rcases Nat.lt_trichotomy e e' with hlt | heq | hgt
  · have hP' : 2 ^ f.fracBits ≤ m' := by omega
    have : (e + 1) * 2 ^ f.fracBits ≤ e' * 2 ^ f.fracBits := Nat.mul_le_mul_right _ hlt
    rw [Nat.add_mul] at this
    omega
  · subst heq
    have := roundHalfEven_mono (b := den * 2 ^ e) (Nat.mul_pos hd (Nat.two_pow_pos _)) hab
    omega
  · exfalso
    have hlow : 2 ^ f.fracBits * (den * 2 ^ e) ≤ a * f.one := by omega
    have : 2 * 2 ^ f.fracBits * (den * 2 ^ e') ≤ 2 ^ f.fracBits * (den * 2 ^ e) := by
      have hp : 2 ^ (e' + 1) ≤ 2 ^ e := Nat.pow_le_pow_right (by omega) hgt
      calc 2 * 2 ^ f.fracBits * (den * 2 ^ e') = 2 ^ f.fracBits * (den * 2 ^ (e' + 1)) := by rw [Nat.pow_succ]; ring
        _ ≤ _ := Nat.mul_le_mul_left _ (Nat.mul_le_mul_left _ hp)
    omega

/-! ### Patterns with a sign -/

theorem infMag_lt (f : FloatFmt) : f.infMag < 2 ^ f.signBit := by cases f <;> decide

/-- A rounded value's pattern: its sign above its magnitude; the container loses nothing. -/
theorem toF_toNat (f : FloatFmt) (neg : Bool) (num den : Nat) :
    (toF f neg num den).toNat = (if neg then 2 ^ f.signBit else 0) + roundMag f num den := by
  have h1 := roundMag_le_infMag f num den
  have h2 := infMag_lt f
  have h3 : 2 * 2 ^ f.signBit ≤ 2 ^ 64 := by cases f <;> decide
  unfold toF
  rw [BitVec.toNat_ofNat, Nat.mod_eq_of_lt]
  split <;> omega

/-- A pattern reads back as the rounded value with its sign. -/
theorem floatVal_toF (f : FloatFmt) (neg : Bool) (num den : Nat) :
    floatVal f (toF f neg num den) =
      if roundMag f num den = f.infMag then .inf neg else .finite neg (unitsOf f (roundMag f num den)) := by
  have h1 := roundMag_le_infMag f num den
  have h2 := infMag_lt f
  have hn := toF_toNat f neg num den
  have hlt : roundMag f num den < 2 ^ f.signBit := by omega
  have hm : (toF f neg num den).toNat % 2 ^ f.signBit = roundMag f num den := by
    rw [hn]
    cases neg
    · rw [if_neg (by simp), Nat.zero_add, Nat.mod_eq_of_lt hlt]
    · rw [if_pos rfl, Nat.add_mod_left, Nat.mod_eq_of_lt hlt]
  have hs : (toF f neg num den).getLsbD f.signBit = neg := by
    rw [← BitVec.testBit_toNat, hn, Nat.testBit_eq_decide_div_mod_eq]
    cases neg
    · simp [Nat.div_eq_of_lt hlt]
    · rw [if_pos rfl, Nat.add_div_left _ (Nat.two_pow_pos _), Nat.div_eq_of_lt hlt]
      rfl
  unfold floatVal
  simp only [hm, hs]
  rw [if_neg (by omega)]

end Sys2Proof
end

