-- ==== Sys2Proof/Laws/PerInstr.lean ====
section
/-! SUPPORT. Per instruction: the fields of its operation word (30_encoding.md R46, opcode_table.json `source_fields`). -/

namespace Sys2Proof.Laws.OpWordFields

/-- The word's two bytes are the instruction's op class code and low byte. -/
def Statement (i : Instr) : Prop := opcOf (encode i) = i.opClass.code ∧ cmdOf (encode i) = i.lowByte

theorem reqSoc : Statement .reqSoc := ⟨opcOf_encode _, cmdOf_encode _⟩
theorem reqCvr : Statement .reqCvr := ⟨opcOf_encode _, cmdOf_encode _⟩
theorem reqTr : Statement .reqTr := ⟨opcOf_encode _, cmdOf_encode _⟩
theorem reqMos : Statement .reqMos := ⟨opcOf_encode _, cmdOf_encode _⟩
theorem reqStatus : Statement .reqStatus := ⟨opcOf_encode _, cmdOf_encode _⟩
theorem reqCellv : Statement .reqCellv := ⟨opcOf_encode _, cmdOf_encode _⟩
theorem reqCellt : Statement .reqCellt := ⟨opcOf_encode _, cmdOf_encode _⟩
theorem reqBal : Statement .reqBal := ⟨opcOf_encode _, cmdOf_encode _⟩
theorem reqErr : Statement .reqErr := ⟨opcOf_encode _, cmdOf_encode _⟩
theorem reqSetdmos : Statement .reqSetdmos := ⟨opcOf_encode _, cmdOf_encode _⟩
theorem reqSetcmos : Statement .reqSetcmos := ⟨opcOf_encode _, cmdOf_encode _⟩
theorem reqSetsoc : Statement .reqSetsoc := ⟨opcOf_encode _, cmdOf_encode _⟩
theorem reqReset : Statement .reqReset := ⟨opcOf_encode _, cmdOf_encode _⟩
theorem decSoc : Statement .decSoc := ⟨opcOf_encode _, cmdOf_encode _⟩
theorem decCvr : Statement .decCvr := ⟨opcOf_encode _, cmdOf_encode _⟩
theorem decTr : Statement .decTr := ⟨opcOf_encode _, cmdOf_encode _⟩
theorem decMos : Statement .decMos := ⟨opcOf_encode _, cmdOf_encode _⟩
theorem decStatus : Statement .decStatus := ⟨opcOf_encode _, cmdOf_encode _⟩
theorem decCellv : Statement .decCellv := ⟨opcOf_encode _, cmdOf_encode _⟩
theorem decCellt : Statement .decCellt := ⟨opcOf_encode _, cmdOf_encode _⟩
theorem decBal : Statement .decBal := ⟨opcOf_encode _, cmdOf_encode _⟩
theorem decErr : Statement .decErr := ⟨opcOf_encode _, cmdOf_encode _⟩
theorem decSetdmos : Statement .decSetdmos := ⟨opcOf_encode _, cmdOf_encode _⟩
theorem decSetcmos : Statement .decSetcmos := ⟨opcOf_encode _, cmdOf_encode _⟩
theorem decSetsoc : Statement .decSetsoc := ⟨opcOf_encode _, cmdOf_encode _⟩
theorem decReset : Statement .decReset := ⟨opcOf_encode _, cmdOf_encode _⟩
theorem rszSoc : Statement .rszSoc := ⟨opcOf_encode _, cmdOf_encode _⟩
theorem rszCvr : Statement .rszCvr := ⟨opcOf_encode _, cmdOf_encode _⟩
theorem rszTr : Statement .rszTr := ⟨opcOf_encode _, cmdOf_encode _⟩
theorem rszMos : Statement .rszMos := ⟨opcOf_encode _, cmdOf_encode _⟩
theorem rszStatus : Statement .rszStatus := ⟨opcOf_encode _, cmdOf_encode _⟩
theorem rszCellv : Statement .rszCellv := ⟨opcOf_encode _, cmdOf_encode _⟩
theorem rszCellt : Statement .rszCellt := ⟨opcOf_encode _, cmdOf_encode _⟩
theorem rszBal : Statement .rszBal := ⟨opcOf_encode _, cmdOf_encode _⟩
theorem rszErr : Statement .rszErr := ⟨opcOf_encode _, cmdOf_encode _⟩
theorem rszSetdmos : Statement .rszSetdmos := ⟨opcOf_encode _, cmdOf_encode _⟩
theorem rszSetcmos : Statement .rszSetcmos := ⟨opcOf_encode _, cmdOf_encode _⟩
theorem rszSetsoc : Statement .rszSetsoc := ⟨opcOf_encode _, cmdOf_encode _⟩
theorem rszReset : Statement .rszReset := ⟨opcOf_encode _, cmdOf_encode _⟩
theorem build (cmd : Byte) : Statement (.build cmd) := ⟨opcOf_encode _, cmdOf_encode _⟩
theorem cksum : Statement .cksum := ⟨opcOf_encode _, cmdOf_encode _⟩
theorem vlen : Statement .vlen := ⟨opcOf_encode _, cmdOf_encode _⟩
theorem vcks : Statement .vcks := ⟨opcOf_encode _, cmdOf_encode _⟩
theorem parse : Statement .parse := ⟨opcOf_encode _, cmdOf_encode _⟩

end Sys2Proof.Laws.OpWordFields
end

