-- ==== Sys2Proof/Tests/Slice0.lean ====
section
/-! SUPPORT. Tests. Expected results come from 30_encoding.md's tables (decoding), from 95_test_vectors.md (W and V numbers)
or from the rule named; then a witness for the hypotheses of each obligation that has some. -/

open Sys2Proof Sys2Proof.Machine

namespace Sys2Proof.Tests

/-! ### Decoding: words written bit by bit, op class then command id (30_encoding.md R45 to R47) -/

theorem test_decode_req :
    [0b0000000110010000#16, 0b0000000110010001#16, 0b0000000110010010#16, 0b0000000110010011#16, 0b0000000110010100#16,
     0b0000000110010101#16, 0b0000000110010110#16, 0b0000000110010111#16, 0b0000000110011000#16, 0b0000000111011001#16,
     0b0000000111011010#16, 0b0000000100100001#16, 0b0000000100000000#16].map decode =
    [.ok .reqSoc, .ok .reqCvr, .ok .reqTr, .ok .reqMos, .ok .reqStatus, .ok .reqCellv, .ok .reqCellt, .ok .reqBal,
     .ok .reqErr, .ok .reqSetdmos, .ok .reqSetcmos, .ok .reqSetsoc, .ok .reqReset] := by decide

theorem test_decode_dec :
    [0b0000001010010000#16, 0b0000001010010001#16, 0b0000001010010010#16, 0b0000001010010011#16, 0b0000001010010100#16,
     0b0000001010010101#16, 0b0000001010010110#16, 0b0000001010010111#16, 0b0000001010011000#16, 0b0000001011011001#16,
     0b0000001011011010#16, 0b0000001000100001#16, 0b0000001000000000#16].map decode =
    [.ok .decSoc, .ok .decCvr, .ok .decTr, .ok .decMos, .ok .decStatus, .ok .decCellv, .ok .decCellt, .ok .decBal,
     .ok .decErr, .ok .decSetdmos, .ok .decSetcmos, .ok .decSetsoc, .ok .decReset] := by decide

theorem test_decode_rsz :
    [0b0000001110010000#16, 0b0000001110010001#16, 0b0000001110010010#16, 0b0000001110010011#16, 0b0000001110010100#16,
     0b0000001110010101#16, 0b0000001110010110#16, 0b0000001110010111#16, 0b0000001110011000#16, 0b0000001111011001#16,
     0b0000001111011010#16, 0b0000001100100001#16, 0b0000001100000000#16].map decode =
    [.ok .rszSoc, .ok .rszCvr, .ok .rszTr, .ok .rszMos, .ok .rszStatus, .ok .rszCellv, .ok .rszCellt, .ok .rszBal,
     .ok .rszErr, .ok .rszSetdmos, .ok .rszSetcmos, .ok .rszSetsoc, .ok .rszReset] := by decide

theorem test_decode_frame_family :
    [0b0001000010101011#16, 0b0001000000000000#16, 0b0001000011111111#16, 0b0001000100000000#16, 0b0001001000000000#16,
     0b0001001100000000#16, 0b0001010000000000#16].map decode =
    [.ok (.build 0xAB), .ok (.build 0x00), .ok (.build 0xFF), .ok .cksum, .ok .vlen, .ok .vcks, .ok .parse] := by decide

/-- 30_encoding.md R50: a reserved op class, an unknown command, a low byte that is not zero. -/
theorem test_decode_rejects :
    [0x0000#16, 0x0400#16, 0x1500#16, 0x0299#16, 0x0101#16, 0x1101#16, 0x14FF#16].map decode =
    [.error .reservedClass, .error .reservedClass, .error .reservedClass, .error .unknownCommand,
     .error .unknownCommand, .error .nonzeroLowByte, .error .nonzeroLowByte] := by decide

theorem test_decodeTableWord :
    decodeTableWord 16 0x0298 = some .decErr ∧ decodeTableWord 16 0x10AB = some (.build 0xAB)
      ∧ decodeTableWord 16 0x0299 = none := by decide

/-! ### Well-formedness: each check refuses an ill-formed term (44_error_code.md R121, 10_state.md R19) -/

/-- A table of R121's kind: 44 entries by offset, then bit. -/
def table : List ErrorEntry :=
  (List.finRange 44).map fun k => ⟨⟨k.val / 8, by omega⟩, ⟨k.val % 8, by omega⟩, toString k.val⟩

/-- Two table entries at one position, under two names. -/
def samePosition : List ErrorEntry := table.take 43 ++ [⟨0, 0, "43"⟩]

/-- Two table entries with one name, at two positions. -/
def sameName : List ErrorEntry := table.take 43 ++ [⟨6, 7, "0"⟩]

theorem test_table_well_formed : errorTableWellFormed table = true := by decide
theorem test_short_table_refused : errorTableWellFormed (table.take 43) = false := by decide
theorem test_same_position_refused : errorTableWellFormed samePosition = false := by decide
theorem test_same_name_refused : errorTableWellFormed sameName = false := by decide

/-- The default parameters, with a definite table and RX_CAP 1105. -/
def params : Params := ⟨.binary32, .wrap, .true, table, 0⟩

/-- The same with TEMP_NARROW and BOOL_BYTE_OTHER `fault`. -/
def faultParams : Params := ⟨.binary32, .fault, .fault, table, 0⟩

/-- An operand record with the given word, bytes and count. -/
def record (cw : Half) (rx : List Byte) (count : Byte) : OperandRecord :=
  { OperandRecord.zero with cw := cw, rx := rx, count := count }

theorem test_params_refused : ({ params with errorTable := [] } : Params).wellFormed = false := by decide
theorem test_record_at_cap : (record 0 (List.replicate 1105 0) 0).wellFormed params = true := by
  unfold OperandRecord.wellFormed
  rw [show (record 0 (List.replicate 1105 0) 0).rx.length = 1105 from List.length_replicate]
  rfl
theorem test_record_over_cap_refused : (record 0 (List.replicate 1106 0) 0).wellFormed params = false := by
  unfold OperandRecord.wellFormed
  rw [show (record 0 (List.replicate 1106 0) 0).rx.length = 1106 from List.length_replicate]
  rfl

/-! ### One step -/

/-- A machine with the given moves to come. -/
def machine (p : Params) (moves : List PortMove) : State :=
  { params := p, op := .zero, result := .absent, moves := moves, host := .start }

/-- A machine with a record on its port and nothing to come. -/
def onPort (p : Params) (r : OperandRecord) : State := { machine p [] with op := r }

/-- The state after one step. -/
def after (s : State) : Option State :=
  match step s with
  | .next t => some t
  | .fault _ => none
  | .refused _ => none

/-- The result of one step on an assembled line. -/
def run (p : Params) (i : Instr) (a : LineArgs) : Option ResultRecord :=
  (assemble i a).bind fun r => (after (machine p [.present r])).map fun t => t.result

/-- The result of one step on an operation word with all other operands zero. -/
def runWord (cw : Half) : Option ResultRecord :=
  (after (machine params [.present (record cw [] 0)])).map fun t => t.result

/-! #### Frame and checksum (V1) -/

/-- The reply of W1. -/
def w1 : List Byte := [0xA5, 0x40, 0x90, 0x08, 0x02, 0x1F, 0x00, 0x00, 0x75, 0x49, 0x02, 0xF3, 0x51]

/-- V1.2: the sum 0x9E4 wraps. -/
theorem test_build_wraps :
    run params (.build 0xFF) (.payload #v[0xFF, 0xFF, 0xFF, 0xFF, 0xFF, 0xFF, 0xFF, 0xFF]) =
      some (.okTx #v[0xA5, 0x40, 0xFF, 0x08, 0xFF, 0xFF, 0xFF, 0xFF, 0xFF, 0xFF, 0xFF, 0xFF, 0xE4]) := by decide
/-- V6.5. -/
theorem test_build_any_byte :
    runWord 0x10AB = some (.okTx #v[0xA5, 0x40, 0xAB, 0x08, 0, 0, 0, 0, 0, 0, 0, 0, 0x98]) := by decide
/-- V1.8. -/
theorem test_cksum_leaves_out_last : run params .cksum (.rx (w1 ++ [0x00])) = some (.okSum 0xA2) := by decide
/-- V1.6, V1.7. -/
theorem test_cksum_edges :
    run params .cksum (.rx [0x7F]) = some (.okSum 0x00)
      ∧ run params .cksum (.rx []) = some (.failed .emptyBuffer) := by decide
/-- V1.9. -/
theorem test_vlen_short : run params .vlen (.rxRequired [0xA5, 0x40, 0x90] 13) = some (.failed (.replySize 13 3)) := by
  decide
/-- V1.10, V1.11. -/
theorem test_vlen_boundary :
    run params .vlen (.rxRequired [] 0) = some .done ∧ run params .vlen (.rxRequired w1 13) = some .done := by decide
/-- V1.14. -/
theorem test_vcks_one_byte :
    run params .vcks (.rx [0x00]) = some .done
      ∧ run params .vcks (.rx [0x01]) = some (.failed (.checksum 0 0x00 0x01)) := by decide
/-- V1.15, V1.16. -/
theorem test_vcks_whole_buffer :
    run params .vcks (.rx []) = some (.failed .emptyBuffer)
      ∧ run params .vcks (.rx (w1 ++ [0x00])) = some (.failed (.checksum 0 0xA2 0x00)) := by decide

/-- The frames F1 and F2 of V4. -/
def f1 : List Byte := [0xA5, 0x40, 0x95, 0x08, 0x01, 0x0C, 0xE4, 0x0C, 0xE5, 0x0C, 0xE6, 0x00, 0x56]
def f2 : List Byte := [0xA5, 0x40, 0x95, 0x08, 0x02, 0x0C, 0xE7, 0x00, 0x00, 0x00, 0x00, 0x00, 0x77]

/-- V1.18, V1.20. -/
theorem test_parse_second_frame :
    run params .parse (.rxBase (f1 ++ f2) 13) = some (.okFields
        ⟨0xA5, 0x40, 0x95, 0x08, #v[0x02, 0x0C, 0xE7, 0, 0, 0, 0, 0], 0x77, 0x77, true⟩)
      ∧ run params .parse (.rxBase (f1 ++ f2) 14) = some (.failed (.replySize 27 26)) := by decide
/-- V1.19. -/
theorem test_parse_reports_bad_sum :
    run params .parse (.rxBase [0xA5, 0x01, 0x90, 0x08, 0x02, 0x1F, 0x00, 0x00, 0x75, 0x49, 0x02, 0xF3, 0x51] 0) =
      some (.okFields
        ⟨0xA5, 0x01, 0x90, 0x08, #v[0x02, 0x1F, 0x00, 0x00, 0x75, 0x49, 0x02, 0xF3], 0x51, 0x12, false⟩) := by decide
/-- V1.21. -/
theorem test_rsz_fixed :
    [Instr.rszSoc, .rszCvr, .rszTr, .rszMos, .rszStatus, .rszBal, .rszErr, .rszSetdmos, .rszSetcmos, .rszSetsoc,
      .rszReset].map (fun i => run params i .none) = List.replicate 11 (some (.okSize 13)) := by decide
/-- V1.22. -/
theorem test_rsz_cellv :
    [0, 1, 3, 4, 16, 255].map (fun n => run params .rszCellv (.count n)) =
      [0, 13, 13, 26, 78, 1105].map (fun n => some (.okSize n)) := by decide
/-- V1.23. -/
theorem test_rsz_cellt :
    [0, 1, 7, 8, 255].map (fun n => run params .rszCellt (.count n)) =
      [0, 13, 13, 26, 481].map (fun n => some (.okSize n)) := by decide

/-! #### Requests (V2) -/

/-- V2.1 to V2.5. -/
theorem test_req_first :
    [Instr.reqSoc, .reqCvr, .reqTr, .reqMos, .reqStatus].map (fun i => run params i .none) =
    [some (.okTx #v[0xA5, 0x40, 0x90, 0x08, 0, 0, 0, 0, 0, 0, 0, 0, 0x7D]),
     some (.okTx #v[0xA5, 0x40, 0x91, 0x08, 0, 0, 0, 0, 0, 0, 0, 0, 0x7E]),
     some (.okTx #v[0xA5, 0x40, 0x92, 0x08, 0, 0, 0, 0, 0, 0, 0, 0, 0x7F]),
     some (.okTx #v[0xA5, 0x40, 0x93, 0x08, 0, 0, 0, 0, 0, 0, 0, 0, 0x80]),
     some (.okTx #v[0xA5, 0x40, 0x94, 0x08, 0, 0, 0, 0, 0, 0, 0, 0, 0x81])] := by decide
/-- V2.6 to V2.9, V2.14. -/
theorem test_req_second :
    [Instr.reqCellv, .reqCellt, .reqBal, .reqErr, .reqReset].map (fun i => run params i .none) =
    [some (.okTx #v[0xA5, 0x40, 0x95, 0x08, 0, 0, 0, 0, 0, 0, 0, 0, 0x82]),
     some (.okTx #v[0xA5, 0x40, 0x96, 0x08, 0, 0, 0, 0, 0, 0, 0, 0, 0x83]),
     some (.okTx #v[0xA5, 0x40, 0x97, 0x08, 0, 0, 0, 0, 0, 0, 0, 0, 0x84]),
     some (.okTx #v[0xA5, 0x40, 0x98, 0x08, 0, 0, 0, 0, 0, 0, 0, 0, 0x85]),
     some (.okTx #v[0xA5, 0x40, 0x00, 0x08, 0, 0, 0, 0, 0, 0, 0, 0, 0xED])] := by decide
/-- V2.11, V2.10. -/
theorem test_req_setdmos :
    run params .reqSetdmos (.flag true) = some (.okTx #v[0xA5, 0x40, 0xD9, 0x08, 1, 0, 0, 0, 0, 0, 0, 0, 0xC7])
      ∧ run params .reqSetdmos (.flag false) = some (.okTx #v[0xA5, 0x40, 0xD9, 0x08, 0, 0, 0, 0, 0, 0, 0, 0, 0xC6]) := by
  decide
/-- V2.13, V2.12. -/
theorem test_req_setcmos :
    run params .reqSetcmos (.flag true) = some (.okTx #v[0xA5, 0x40, 0xDA, 0x08, 1, 0, 0, 0, 0, 0, 0, 0, 0xC8])
      ∧ run params .reqSetcmos (.flag false) = some (.okTx #v[0xA5, 0x40, 0xDA, 0x08, 0, 0, 0, 0, 0, 0, 0, 0, 0xC7]) := by
  decide
/-- V2.21: 75.5 is 0x42970000. -/
theorem test_req_setsoc :
    run params .reqSetsoc (.percent 0x42970000) =
      some (.okTx #v[0xA5, 0x40, 0x21, 0x08, 0, 0, 0, 0, 0, 0, 0x02, 0xF3, 0x03]) := by decide
/-- V2.15, V2.17, V2.18 (tie after rounding), V2.20, V2.25 (tie), V2.27, V2.29, V2.31, V2.32. -/
theorem test_soc_encode :
    [0x43160000, 0x7F800000, 0x42C7E666, 0x42C7E5E3, 0x3E800000, 0x3D4CCCCD, 0xBD23D70A, 0xFF800000, 0x7FC00000].map
      (socEncode .binary32) = [1000, 1000, 1000, 999, 3, 1, 0, 0, 0] := by decide

/-! #### Single-frame decoders (V3) -/

/-- W1: 54.3, 2.5, 75.5. -/
theorem test_dec_soc :
    run params .decSoc (.rx w1) = some (.okValue (.soc ⟨0x42593333, 0x40200000, 0x42970000⟩)) := by decide
/-- V3.1: a current below zero. -/
theorem test_dec_soc_charging :
    run params .decSoc (.rx [0xA5, 0x40, 0x90, 0x08, 0x02, 0x1F, 0, 0, 0x74, 0xE5, 0x03, 0xE8, 0xE2]) =
      some (.okValue (.soc ⟨0x42593333, 0xC0F00000, 0x42C80000⟩)) := by decide
/-- V3.7: 3.456 and 3.123. -/
theorem test_dec_cvr :
    run params .decCvr (.rx [0xA5, 0x40, 0x91, 0x08, 0x0D, 0x80, 0x07, 0x0C, 0x33, 0x0C, 0, 0, 0x5D]) =
      some (.okValue (.cellVoltageRange ⟨0x405D2F1B, 7, 0x4047DF3B, 12⟩)) := by decide

/-- The reply of V3.10 and V3.11. -/
def tr10 : List Byte := [0xA5, 0x40, 0x92, 0x08, 0xA8, 0x01, 0xA7, 0x02, 0, 0, 0, 0, 0xD1]

/-- V3.10. -/
theorem test_dec_tr_wraps :
    run params .decTr (.rx tr10) = some (.okValue (.temperatureRange ⟨-128, 1, 127, 2⟩)) := by decide
/-- V3.11. -/
theorem test_dec_tr_faults : run faultParams .decTr (.rx tr10) = some (.failed (.fieldOutOfRange 4 0xA8)) := by decide
/-- V3.13: 4294967295 rounds to 4294967296 first. -/
theorem test_dec_mos :
    run params .decMos (.rx [0xA5, 0x40, 0x93, 0x08, 2, 0, 1, 0xFF, 0xFF, 0xFF, 0xFF, 0xFF, 0x7E]) =
      some (.okValue (.mosfetStatus ⟨.discharging, false, true, 255, 0x4A83126F⟩)) := by decide
/-- V6.10: the lowest offset first. -/
theorem test_dec_mos_mode :
    run faultParams .decMos (.rx [0xA5, 0x40, 0x93, 0x08, 7, 5, 0, 0, 0, 0, 0, 0, 0x8C]) =
      some (.failed (.fieldOutOfRange 4 7)) := by decide

/-- The reply of W2. -/
def w2 : List Byte := [0xA5, 0x40, 0x94, 0x08, 0x10, 0x04, 0x01, 0x00, 0xAA, 0x04, 0xD2, 0x00, 0x16]

/-- W2. -/
theorem test_dec_status :
    run params .decStatus (.rx w2) = some (.okValue (.status
      ⟨16, 4, true, false, ⟨false, true, false, true, false, true, false, true⟩, 1234⟩)) := by decide
/-- V3.17. -/
theorem test_dec_status_bool_faults :
    run faultParams .decStatus (.rx [0xA5, 0x40, 0x94, 0x08, 0x10, 0x04, 0x02, 0x00, 0xAA, 0x04, 0xD2, 0x00, 0x17]) =
      some (.failed (.fieldOutOfRange 6 0x02)) := by decide

/-- The reply of V3.18. -/
def bal18 : List Byte := [0xA5, 0x40, 0x97, 0x08, 0x05, 0x02, 0, 0, 0, 0, 0, 0, 0x8B]

/-- V3.18. -/
theorem test_dec_bal :
    run params .decBal (.rxCount bal18 10) =
      some (.okValue (.balancingState [true, false, true, false, false, false, false, false, false, true])) := by decide
/-- V3.24, V3.25. -/
theorem test_dec_bal_count_first :
    run params .decBal (.rxCount [] 49) = some (.failed (.countOutOfRange 49 48))
      ∧ run params .decBal (.rxCount [] 48) = some (.failed (.replySize 13 0)) := by decide
/-- W11 and V3.28: the header is not checked. -/
theorem test_dec_mos_acks :
    run params .decSetdmos (.rx [0xA5, 0x40, 0xD9, 0x08, 0, 0, 0, 0, 0, 0, 0, 0, 0xC6]) = some (.okValue .ack)
      ∧ run params .decSetcmos (.rx [0xA5, 0x40, 0xD9, 0x08, 1, 0, 0, 0, 0, 0, 0, 0, 0xC7]) = some (.okValue .ack) := by
  decide
/-- V3.29, V3.31. -/
theorem test_dec_setsoc_reset :
    run params .decSetsoc (.rx [0xA5, 0x40, 0x21, 0x08, 0, 0, 0, 0, 0, 0, 0x03, 0xE8, 0xF9]) = some (.okValue .ack)
      ∧ run params .decReset (.rx [0xA5, 0x40, 0x00, 0x08, 0, 0, 0, 0, 0, 0, 0, 0, 0xEE]) =
          some (.failed (.checksum 1 0xED 0xEE)) := by decide

/-! #### Multi-frame decoders (V4) and error codes (V5) -/

/-- V4.3: 3.3, 3.301, 3.302, 3.303, with padding that is not zero. -/
theorem test_dec_cellv :
    run params .decCellv (.rxCount (f1 ++ [0xA5, 0x40, 0x95, 0x08, 0x02, 0x0C, 0xE7, 0xDE, 0xAD, 0xBE, 0xEF, 0x55, 0x04])
      4) = some (.okValue (.cellVoltages [0x40533333, 0x40534396, 0x405353F8, 0x4053645A])) := by decide
/-- V4.6: the sequence byte before the checksum. -/
theorem test_dec_cellv_sequence_first :
    run params .decCellv (.rxCount (f1 ++ [0xA5, 0x40, 0x95, 0x08, 0x03, 0x0C, 0xE7, 0, 0, 0, 0, 0, 0x77]) 4) =
      some (.failed (.frameNo 2 3)) := by decide

/-- The frames T1 and T2 of V4. -/
def t1 : List Byte := [0xA5, 0x40, 0x96, 0x08, 0x01, 0x41, 0x42, 0x43, 0x44, 0x45, 0x46, 0x47, 0x60]
def t2 : List Byte := [0xA5, 0x40, 0x96, 0x08, 0x02, 0x28, 0xFF, 0, 0, 0, 0, 0, 0xAC]

/-- V4.13. -/
theorem test_dec_cellt :
    run params .decCellt (.rxCount (t1 ++ t2) 9) =
      some (.okValue (.cellTemperatures [25, 26, 27, 28, 29, 30, 31, 0, -41])) := by decide
/-- V4.14: the offset is frame-relative. -/
theorem test_dec_cellt_faults :
    run faultParams .decCellt (.rxCount (t1 ++ t2) 9) = some (.failed (.fieldOutOfRange 6 0xFF)) := by decide

/-- A table that names (10, 7) first and (4, 0) last, as V5.6 asks. -/
def turnedTable : List ErrorEntry := [⟨6, 7, "x"⟩] ++ (table.drop 1).take 42 ++ [⟨0, 0, "y"⟩]

/-- The reply of V5.3. -/
def err3 : List Byte := [0xA5, 0x40, 0x98, 0x08, 0x01, 0, 0, 0, 0, 0, 0x80, 0, 0x06]

/-- V5.6: the table's order, not the bits' order. -/
theorem test_dec_err_order :
    run { params with errorTable := turnedTable } .decErr (.rx err3) = some (.okValue (.errorCode ["x", "y"])) := by decide
/-- V5.1, on a table of two entries. -/
theorem test_dec_err_none :
    run { Config.params with errorTable := [⟨0, 0, "a"⟩, ⟨6, 7, "b"⟩] } .decErr
      (.rx [0xA5, 0x40, 0x98, 0x08, 0, 0, 0, 0, 0, 0, 0, 0, 0x85]) = some (.okValue (.errorCode [])) := by decide

/-! #### Words that are no operation, and binary64 -/

/-- V6.1 to V6.4. -/
theorem test_illegal_words :
    [0x0000, 0x0299, 0x0400, 0x1101].map runWord =
      [0x0000, 0x0299, 0x0400, 0x1101].map (fun c => some (.failed (.illegalOperation c))) := by decide

/-- IEEE 754 binary64: 54.3 is 0x404B266666666666 and -7.5 is 0xC01E000000000000. -/
theorem test_binary64 :
    toF .binary64 false 543 10 = 0x404B266666666666 ∧ toF .binary64 true 75 10 = 0xC01E000000000000 := by decide +kernel

/-! #### Steps -/

/-- The first step after reset runs the word that withFetchWord places (V2.1). -/
theorem test_first_step :
    (after (State.reset.withFetchWord 16 0x0190)).map (fun t => t.result) =
      some (.okTx #v[0xA5, 0x40, 0x90, 0x08, 0, 0, 0, 0, 0, 0, 0, 0, 0x7D]) := by decide

/-- 10_state.md R25: a host that reads the result port right after reset faults. -/
theorem test_read_after_reset :
    step { State.reset with moves := [.readResult .tx] } = .fault (.absentField .tx) := by rfl

/-- 70_reset_and_hazards.md R138: an operation cut by reset leaves no result. -/
theorem test_cut_operation :
    (after (machine params [.presentCut (record 0x0290 w1 0)])).map (fun t => t.result) = some .absent := by decide

/-- 10_state.md R18: after W2 the host holds 16 cells and 4 sensors. -/
theorem test_cache :
    (after (machine params [.present (record 0x0294 w2 0)])).bind (fun t => t.host.cache) = some ⟨16, 4⟩ := by decide

/-- 92_eei_decisions.md D31; the record of test_record_over_cap_refused is one. -/
theorem test_over_cap (r : OperandRecord) (h : r.wellFormed params = false) :
    step (machine params [.present r]) = .refused .rxOverCap := by
  have h' : State.admits (machine params [.present r]) r = false := h
  unfold step
  simp only [show (machine params [.present r]).moves = [.present r] from rfl, stepPresent, h']
  rfl

/-! #### The host that keeps the contract (70_reset_and_hazards.md R140, R141) -/

/-- A host with the given cache that awaits the reply of a command, has received some of it, and presents a record. -/
def keeper (p : Params) (cache : Option StatusCounts) (c : Command) (received : List Byte) (r : OperandRecord) : State :=
  { machine p [.host (.present r)] with
    host := { cache := cache, awaiting := some c, received := received, sent := [] } }

/-- R141, "build a request": the SOC request goes out as it stands, stale bytes are drained, its reply is awaited. -/
theorem test_deliver :
    step { (machine params [.host .deliver]) with
        result := .okTx #v[0xA5, 0x40, 0x90, 0x08, 0, 0, 0, 0, 0, 0, 0, 0, 0x7D]
        host := { cache := none, awaiting := some .err, received := [0xFF], sent := [] } } =
      .next { (machine params []) with
        result := .okTx #v[0xA5, 0x40, 0x90, 0x08, 0, 0, 0, 0, 0, 0, 0, 0, 0x7D]
        host := { cache := none, awaiting := some .soc, received := [],
                  sent := [#v[0xA5, 0x40, 0x90, 0x08, 0, 0, 0, 0, 0, 0, 0, 0, 0x7D]] } } := by rfl

/-- R141: "read more bytes", "present trailing bytes"; the reply of W1 decodes with another byte behind it. -/
theorem test_keeper_trailing :
    (after (keeper params none .soc (w1 ++ [0x00]) (record 0x0290 (w1 ++ [0xEE]) 0))).bind (fun t => t.result.status) =
      some .ok := by decide

/-- R141: "from their first byte"; the same reply from its second byte on is no move of the host. -/
theorem test_keeper_late_start_refused :
    step (keeper params none .soc (w1 ++ [0x00]) (record 0x0290 (w1.drop 1 ++ [0x00]) 0)) = .refused .hostContract := by rfl

/-- R141: "at least `size` bytes"; 12 bytes of a reply of 13 have been received. -/
theorem test_keeper_partial_refused :
    step (keeper params none .soc (w1.take 12) (record 0x0290 w1 0)) = .refused .hostContract := by rfl

/-- R140 (2), R142: without a Status value the host presents no RSZ.CELLV; the block itself accepts any count. -/
theorem test_keeper_no_status_refused :
    step (keeper params none .soc [] (record 0x0395 [] 4)) = .refused .hostContract
      ∧ (after (machine params [.present (record 0x0395 [] 4)])).bind (fun t => t.result.size) = some 26 :=
  ⟨by rfl, by decide⟩

/-! ### Witnesses: for each obligation with hypotheses, values that meet all of them -/

/-- A machine about to run `cw` on `rx` and `count`. -/
def about (p : Params) (cw : Half) (rx : List Byte) (count : Byte) : State := machine p [.present (record cw rx count)]

theorem witness_EncodedOperationsDecodeBack : (Instr.build 0xAB).wellFormed = true := rfl

theorem witness_LegalWordsHaveOneMeaning : decode 0x10FF = .ok (.build 0xFF) := by decide

/-- A step that answers a next state of which `P` holds. -/
theorem next_of_after {s : State} {P : State → Bool} (h : (after s).any P = true) : ∃ t, step s = .next t ∧ P t = true := by
  unfold after at h
  split at h
  · rename_i t ht
    exact ⟨t, ht, h⟩
  · simp at h
  · simp at h

/-- One word of each kind R50 names, and the edges of the op classes. -/
theorem witness_IllegalWordsEndWithIllegalOperation :
    (IllegalWord 0x0000 ∧ IllegalWord 0x0400 ∧ IllegalWord 0x1500 ∧ IllegalWord 0x0299 ∧ IllegalWord 0x1101)
      ∧ ∀ cw : Half, (about params cw [] 0).presents (record cw [] 0) []
        ∧ (record cw [] 0).rx.length ≤ params.rxCap :=
  ⟨by unfold IllegalWord; decide, fun _ => ⟨.inl rfl, Nat.zero_le _⟩⟩

/-- A line whose operation reads none of the operands the clauses are about, and one that reads two. -/
theorem witness_AssembledLinesCarryTheirOperation :
    (∃ r, assemble .reqSoc .none = some r
      ∧ OperandField.count ∉ operandsRead .reqSoc ∧ OperandField.flag ∉ operandsRead .reqSoc
      ∧ OperandField.percent ∉ operandsRead .reqSoc ∧ OperandField.payload ∉ operandsRead .reqSoc
      ∧ OperandField.required ∉ operandsRead .reqSoc ∧ OperandField.base ∉ operandsRead .reqSoc
      ∧ OperandField.rx ∉ operandsRead .reqSoc ∧ OperandField.rxLength ∉ operandsRead .reqSoc)
    ∧ ∃ r, assemble .decCellv (.rxCount f1 3) = some r ∧ OperandField.flag ∉ operandsRead .decCellv :=
  ⟨⟨_, rfl, by decide⟩, _, rfl, by decide⟩

/-- What a host that keeps the contract may present: DEC.SOC of the reply it awaits, with a byte behind it. -/
theorem duty_soc (cache : Option StatusCounts) (bytes : List Byte) :
    HostDuty ⟨cache, some .soc, w1, []⟩ (record 0x0290 (w1 ++ bytes) 0) := by
  intro i hi
  have hi' : Instr.decSoc = i := by simpa [record, show decode 0x0290#16 = .ok .decSoc from rfl] using hi
  subst hi'
  refine ⟨fun h => absurd h (by decide), fun h => absurd h (by decide), fun c hc => ?_⟩
  have hc' : Command.soc = c := by cases c <;> simp [decInstr] at hc ⊢
  subst hc'
  exact ⟨rfl, 13, rfl, Nat.le_refl 13, by simp [record, w1]⟩

/-- The record presented by nobody in particular, and by the host that keeps the contract. -/
theorem witness_StepRunsTheDecodedOperation :
    (about params 0x0290 w1 0).presents (record 0x0290 w1 0) []
      ∧ (keeper params none .soc w1 (record 0x0290 (w1 ++ [0xEE]) 0)).presents (record 0x0290 (w1 ++ [0xEE]) 0) []
      ∧ w1.length ≤ params.rxCap ∧ decode (record 0x0290 w1 0).cw = .ok .decSoc :=
  ⟨.inl rfl, .inr ⟨rfl, duty_soc none [0xEE]⟩, by decide, by decide⟩

theorem witness_FetchWordRunsItsOperation : State.reset.op.rx.length ≤ State.reset.params.rxCap := by
  exact Nat.zero_le _

theorem witness_IdleMachineStaysAsItIs : State.reset.moves = [] := rfl

/-- A field that holds a value, and one that does not; a delivery with no `tx`, and one with it. -/
theorem witness_ReadingAbsentFieldFaults :
    (∃ s : State, s.moves = .readResult .sum :: [] ∧ s.result.has .sum = true ∧ s.result.has .tx = false)
      ∧ (∃ s : State, s.moves = .host .deliver :: [] ∧ s.result.tx = none)
      ∧ ∃ (s : State) (f : Frame), s.moves = .host .deliver :: [] ∧ s.result.tx = some f :=
  ⟨⟨(machine params [.readResult .sum]).setResult (.okSum 0x51), rfl, rfl, rfl⟩, ⟨machine params [.host .deliver], rfl, rfl⟩,
   (machine params [.host .deliver]).setResult (.okTx (buildFrame 0x90 zeroPayload)), _, rfl, rfl⟩

theorem witness_ResetLeavesResultAbsent :
    (machine params [.assertReset]).moves = .assertReset :: []
      ∧ (machine params [.presentCut (record 0x0290 w1 0)]).moves = .presentCut (record 0x0290 w1 0) :: []
      ∧ (record 0x0290 w1 0).rx.length ≤ params.rxCap := by decide

theorem witness_ResetLeavesResultAbsent_host :
    ∃ s : State, s.moves = .host (.presentCut (record 0x0290 (w1 ++ []) 0)) :: []
      ∧ HostDuty s.host (record 0x0290 (w1 ++ []) 0) ∧ (record 0x0290 (w1 ++ []) 0).rx.length ≤ s.params.rxCap :=
  ⟨{ (machine params [.host (.presentCut (record 0x0290 (w1 ++ []) 0))]) with host := ⟨none, some .soc, w1, []⟩ }, rfl,
   duty_soc none [], by decide⟩

theorem exists_over_cap : ∃ r : OperandRecord, r.wellFormed params = false ∧ params.rxCap < r.rx.length := by
  refine ⟨_, test_record_over_cap_refused, ?_⟩
  rw [show (record 0 (List.replicate 1106 0) 0).rx.length = 1106 from List.length_replicate]
  decide

/-- A refused step, presented whole and cut; and what the host must not present. -/
theorem witness_OnlyOverlongOrForbiddenRecordsAreRefused :
    ∃ r : OperandRecord, params.rxCap < r.rx.length
      ∧ (machine params [.present r]).moves = .present r :: []
      ∧ (machine params [.presentCut r]).moves = .presentCut r :: []
      ∧ step (machine params [.present r]) = .refused .rxOverCap
      ∧ step (keeper params none .soc [] (record 0x0395 [] 4)) = .refused .hostContract :=
  let ⟨r, h1, h2⟩ := exists_over_cap
  ⟨r, h2, rfl, rfl, test_over_cap r h1, by rfl⟩

theorem witness_StepKeepsTheInvariant :
    (about params 0x0290 w1 0).Inv ∧ ∃ t, step (about params 0x0290 w1 0) = .next t := by
  refine ⟨⟨test_table_well_formed, .inl rfl, ?_, fun f hf => absurd hf List.not_mem_nil⟩, ?_⟩
  · constructor <;> simp [about, machine, ResultRecord.absent]
  · obtain ⟨t, h, _⟩ := next_of_after (s := about params 0x0290 w1 0) (P := fun _ => true) (by decide)
    exact ⟨t, h⟩

theorem witness_PresentedOperationsComplete :
    (about params 0x0295 [] 255).presents (record 0x0295 [] 255) []
      ∧ (record 0x0295 [] 255).rx.length ≤ params.rxCap := ⟨.inl rfl, by decide⟩

theorem witness_OperationsWriteOnlyTheResultPort : ∃ t, exec .decSoc (onPort params (record 0x0290 w1 0)) = .next t :=
  ⟨_, rfl⟩

/-- A DEC.STATUS that succeeds, an operation with another result, and a move that is none of those named; test_deliver and
the machine below have the two other moves. -/
theorem witness_HostDataChangesOnlyAsItsMovesSay :
    (∃ t, step (about params 0x0294 w2 0) = .next t ∧ ∃ v, t.result.value = some (.status v))
    ∧ (∃ t, step (about params 0x0190 [] 0) = .next t ∧ ∀ v, t.result.value ≠ some (.status v))
    ∧ (∃ t, (∀ r rest, ¬ (machine params [.assertReset]).presents r rest)
        ∧ (∀ rest, (machine params [.assertReset]).moves ≠ .host .deliver :: rest)
        ∧ (∀ bytes rest, (machine params [.assertReset]).moves ≠ .host (.receive bytes) :: rest)
        ∧ step (machine params [.assertReset]) = .next t)
    ∧ (∃ (s : State) (f : Frame), s.moves = .host .deliver :: [] ∧ s.result.tx = some f)
    ∧ (machine params [.host (.receive [1, 2])]).moves = .host (.receive [1, 2]) :: [] := by
  refine ⟨?_, ?_, ⟨_, fun _ _ h => ?_, fun _ h => (by cases h), fun _ _ h => (by cases h), rfl⟩,
    ⟨(machine params [.host .deliver]).setResult (.okTx (buildFrame 0x90 zeroPayload)), _, rfl, rfl⟩, rfl⟩
  rotate_left 2
  · rcases h with h | ⟨h, _⟩ <;> cases h
  · obtain ⟨t, h, hp⟩ := next_of_after (s := about params 0x0294 w2 0)
      (P := fun t => (statusCounts t.result).isSome) (by decide)
    refine ⟨t, h, ?_⟩
    simp only [statusCounts] at hp
    split at hp
    · rename_i v hv
      exact ⟨v, hv⟩
    · cases hp
  · obtain ⟨t, h, hp⟩ := next_of_after (s := about params 0x0190 [] 0) (P := fun t => t.result.value.isNone) (by decide)
    refine ⟨t, h, fun v hv => ?_⟩
    rw [hv] at hp
    cases hp

/-- Two machines that differ in everything the statement lets differ. -/
theorem witness_EarlierOperationsLeaveNoTrace :
    ∃ s s' : State, s.params = s'.params ∧ s.presents (record 0x0290 (w1 ++ []) 0) []
      ∧ s'.presents (record 0x0290 (w1 ++ []) 0) [.assertReset] ∧ (w1 ++ []).length ≤ s.params.rxCap
      ∧ s.op ≠ s'.op ∧ s.result ≠ s'.result ∧ s.host.cache ≠ s'.host.cache :=
  ⟨about params 0x0290 (w1 ++ []) 0,
   { (machine params [.host (.present (record 0x0290 (w1 ++ []) 0)), .assertReset]) with
     op := record 0x0294 w2 7
     result := .okSum 1
     host := ⟨some ⟨16, 4⟩, some .soc, w1, []⟩ },
   rfl, .inl rfl, .inr ⟨rfl, duty_soc _ []⟩, by decide, by decide, by decide, by decide⟩

/-- VLEN reads the number of the bytes and no byte. -/
theorem witness_UnlistedOperandsAreIgnored :
    ∃ s s' : State, s.params = s'.params ∧ (∀ f ∈ operandsRead .vlen, agreeOn s.op s'.op f)
      ∧ s.op.rx ≠ s'.op.rx ∧ s.op.count ≠ s'.op.count :=
  ⟨onPort params (record 0x1200 [1] 5), onPort params (record 0x1200 [2] 6), rfl, by
    simp [operandsRead, agreeOn, onPort, record, OperandRecord.zero], by decide, by decide⟩

theorem witness_SuccessWritesTheListedField :
    ∃ t, exec .cksum (onPort params (record 0x1100 w1 0)) = .next t ∧ t.result.status = some .ok := ⟨_, rfl, rfl⟩

/-- An operation that fails, and a word that is no operation. -/
theorem witness_FailureWritesOnlyStatusAndInfo :
    ∀ cw ∈ [0x1100#16, 0x0299#16],
      (about params cw [] 0).presents (record cw [] 0) []
        ∧ ∃ t, step (about params cw [] 0) = .next t ∧ t.result.status ≠ some .ok := by
  intro cw h
  refine ⟨.inl rfl, ?_⟩
  rcases List.mem_pair.mp h with rfl | rfl
  · obtain ⟨t, h, hp⟩ := next_of_after (s := about params 0x1100 [] 0) (P := fun t => t.result.status != some .ok)
      (by decide)
    exact ⟨t, h, by simpa using hp⟩
  · obtain ⟨t, h, hp⟩ := next_of_after (s := about params 0x0299 [] 0) (P := fun t => t.result.status != some .ok)
      (by decide)
    exact ⟨t, h, by simpa using hp⟩

theorem witness_OperationsRaiseOnlyTheirStatuses :
    ∃ t, exec .decBal (onPort params (record 0x0297 [] 49)) = .next t := ⟨_, rfl⟩

/-- A field that just fits, and one that misses by a byte, at both widths. -/
theorem witness_FieldsAreBigEndian :
    9 + 2 ≤ (w1.take 11).length ∧ (w1.take 11).length < 10 + 2
      ∧ 7 + 4 ≤ (w1.take 11).length ∧ (w1.take 11).length < 8 + 4 := by decide

/-- A buffer of exactly the required length: one frame, several frames, none. -/
theorem witness_TrailingBytesAreNeverRead :
    requiredLength (record 0x0290 w1 0) .decSoc = some 13 ∧ 13 ≤ (record 0x0290 w1 0).rx.length
      ∧ requiredLength (record 0x0295 (f1 ++ f2) 4) .decCellv = some 26
      ∧ 26 ≤ (record 0x0295 (f1 ++ f2) 4).rx.length
      ∧ requiredLength (record 0x0296 [] 0) .decCellt = some 0 := by decide

/-- A buffer one byte short; DEC.BAL with the largest count. -/
theorem witness_ShortBuffersAreRejectedFirst :
    requiredLength (record 0x0297 (w1.take 12) 48) .decBal = some 13
      ∧ (record 0x0297 (w1.take 12) 48).rx.length < 13 ∧ (record 0x0297 (w1.take 12) 48).count.toNat ≤ 48 := by decide

theorem valid_w1 : ValidReply w1 := ⟨by decide, by decide⟩

/-- W1 and V3.4's bytes with two more: another header, the same layout bytes. -/
theorem witness_SingleDecodersReadOnlyTheirLayout :
    ∃ s s' : State, Instr.decSoc ∈ singleFrameDecoders ∧ s.params = s'.params ∧ s.op.count = s'.op.count
      ∧ ValidReply s.op.rx ∧ ValidReply s'.op.rx ∧ (∀ k ∈ replyOffsets .decSoc, byteAt s.op.rx k = byteAt s'.op.rx k)
      ∧ s.op.rx ≠ s'.op.rx :=
  ⟨onPort params (record 0x0290 w1 0),
   onPort params (record 0x0290
     [0xA5, 0x01, 0x90, 0x08, 0x02, 0x1F, 0x00, 0x00, 0x75, 0x49, 0x02, 0xF3, 0x12, 0x00, 0xFF] 0),
   by decide, rfl, rfl, valid_w1, ⟨by decide, by decide⟩, by decide, by decide⟩

theorem witness_ProducedFramesPassTheCheck :
    ∃ (t : State) (f : Frame) (u : State), exec .reqSoc (onPort params (record 0x0190 [] 0)) = .next t
      ∧ t.result.tx = some f ∧ u.op.rx = f.toList :=
  ⟨_, _, onPort params (record 0x1300 [0xA5, 0x40, 0x90, 0x08, 0, 0, 0, 0, 0, 0, 0, 0, 0x7D] 0), rfl, rfl, by decide⟩

/-- The first byte and the checksum byte; two changes at the ends of the summed bytes. -/
theorem witness_OneCorruptByteIsCaught :
    ValidWindow w1 0 ∧ ((0 : Nat) < 13 ∧ (0xA4 : Byte) ≠ byteAt w1 0) ∧ ((12 : Nat) < 13 ∧ (0x52 : Byte) ≠ byteAt w1 12)
      ∧ ((0 : Nat) < 12 ∧ (11 : Nat) < 12 ∧ (0 : Nat) ≠ 11) :=
  ⟨valid_w1, by decide⟩

theorem witness_CksumSumsAllButTheLastByte :
    (onPort params (record 0x1100 [] 0)).op.rx.length = 0
      ∧ (onPort params (record 0x1100 [0x7F] 0)).op.rx.length ≠ 0 := by decide

/-- Two bytes where three are required, and three. -/
theorem witness_VlenComparesTheLength :
    (onPort params { record 0x1200 [1, 2] 0 with required := 3 }).op.rx.length < (3 : Half).toNat
      ∧ (3 : Half).toNat ≤ (onPort params { record 0x1200 [1, 2, 3] 0 with required := 3 }).op.rx.length := by decide

theorem witness_VcksChecksTheWholeBuffer :
    (onPort params (record 0x1300 [] 0)).op.rx = []
      ∧ ((onPort params (record 0x1300 [0x00] 0)).op.rx = [] ++ [0x00] ∧ sum8 [] = 0x00)
      ∧ ((onPort params (record 0x1300 [0x01] 0)).op.rx = [] ++ [0x01] ∧ sum8 [] ≠ 0x01) := by decide

theorem witness_ParseSplitsTheWindow :
    (onPort params { record 0x1400 (f1 ++ f2) 0 with base := 14 }).op.rx.length < (14 : Half).toNat + 13
      ∧ (13 : Half).toNat + 13 ≤ (onPort params { record 0x1400 (f1 ++ f2) 0 with base := 13 }).op.rx.length := by decide

theorem witness_FixedReplySizesAreThirteen :
    (Instr.rszReset, (0x0300 : Half)) ∈ [(Instr.rszSoc, 0x0390#16), (.rszCvr, 0x0391#16), (.rszTr, 0x0392#16),
      (.rszMos, 0x0393#16), (.rszStatus, 0x0394#16), (.rszBal, 0x0397#16), (.rszErr, 0x0398#16), (.rszSetdmos, 0x03D9#16),
      (.rszSetcmos, 0x03DA#16), (.rszSetsoc, 0x0321#16), (.rszReset, 0x0300#16)] := by decide

/-- Count 0, a full last frame, one value more, and the largest count. -/
theorem witness_CountedReplySizes :
    ∀ cn ∈ [((0 : Byte), 0, 0), (3, 1, 1), (4, 2, 1), (7, 3, 1), (8, 3, 2), (255, 85, 37)],
      cn.1.toNat ≤ 3 * cn.2.1 ∧ 3 * cn.2.1 < cn.1.toNat + 3 ∧ cn.1.toNat ≤ 7 * cn.2.2
        ∧ 7 * cn.2.2 < cn.1.toNat + 7 := by decide

theorem witness_PlainRequestFrames :
    (Instr.reqReset, (0x0100 : Half), (#v[0xA5, 0x40, 0x00, 0x08, 0, 0, 0, 0, 0, 0, 0, 0, 0xED] : Frame)) ∈ [
      (Instr.reqSoc, 0x0190#16, (#v[0xA5, 0x40, 0x90, 0x08, 0, 0, 0, 0, 0, 0, 0, 0, 0x7D] : Frame)),
      (.reqCvr, 0x0191#16, #v[0xA5, 0x40, 0x91, 0x08, 0, 0, 0, 0, 0, 0, 0, 0, 0x7E]),
      (.reqTr, 0x0192#16, #v[0xA5, 0x40, 0x92, 0x08, 0, 0, 0, 0, 0, 0, 0, 0, 0x7F]),
      (.reqMos, 0x0193#16, #v[0xA5, 0x40, 0x93, 0x08, 0, 0, 0, 0, 0, 0, 0, 0, 0x80]),
      (.reqStatus, 0x0194#16, #v[0xA5, 0x40, 0x94, 0x08, 0, 0, 0, 0, 0, 0, 0, 0, 0x81]),
      (.reqCellv, 0x0195#16, #v[0xA5, 0x40, 0x95, 0x08, 0, 0, 0, 0, 0, 0, 0, 0, 0x82]),
      (.reqCellt, 0x0196#16, #v[0xA5, 0x40, 0x96, 0x08, 0, 0, 0, 0, 0, 0, 0, 0, 0x83]),
      (.reqBal, 0x0197#16, #v[0xA5, 0x40, 0x97, 0x08, 0, 0, 0, 0, 0, 0, 0, 0, 0x84]),
      (.reqErr, 0x0198#16, #v[0xA5, 0x40, 0x98, 0x08, 0, 0, 0, 0, 0, 0, 0, 0, 0x85]),
      (.reqReset, 0x0100#16, #v[0xA5, 0x40, 0x00, 0x08, 0, 0, 0, 0, 0, 0, 0, 0, 0xED])] := by decide

theorem witness_SetMosfetRequestFrames :
    (onPort params { record 0x01D9 [] 0 with flag := true }).op.flag = true
      ∧ (onPort params (record 0x01D9 [] 0)).op.flag = false := by decide

/-- NaN, both infinities, -10.0 and 75.5 in binary32; 0.25 in binary64. -/
theorem witness_SocEncodingEqualsItsClampedForm :
    floatVal .binary32 0x7FC00000 = .nan ∧ floatVal .binary32 0x7F800000 = .inf false
      ∧ floatVal .binary32 0xFF800000 = .inf true
      ∧ (∃ u, floatVal .binary32 0xC1200000 = .finite true u) ∧ (∃ u, floatVal .binary32 0x42970000 = .finite false u)
      ∧ (∃ u, floatVal .binary64 0x3FD0000000000000 = .finite false u)
      ∧ (0 < 2 ∧ roundHalfAway 5 2 = 3) :=
  ⟨by decide, by decide, by decide, ⟨_, rfl⟩, ⟨_, rfl⟩, ⟨_, rfl⟩, by decide⟩

theorem witness_PlainRequestsEqualBuild :
    (Instr.reqSoc, (0x90 : Byte)) ∈ [(Instr.reqSoc, 0x90#8), (.reqCvr, 0x91#8), (.reqTr, 0x92#8), (.reqMos, 0x93#8),
        (.reqStatus, 0x94#8), (.reqCellv, 0x95#8), (.reqCellt, 0x96#8), (.reqBal, 0x97#8), (.reqErr, 0x98#8),
        (.reqReset, 0x00#8)]
      ∧ (onPort params (record 0x1090 [] 0)).op.payload = #v[0, 0, 0, 0, 0, 0, 0, 0] := by decide

/-- A tenth; the tie half way between 0 and the least positive value, whose other neighbour is as near; the least value that
rounds to infinity and the greatest whole number below it. -/
theorem witness_RoundingIsToNearestEven :
    (0 < 10 ∧ roundMag .binary32 1 10 < FloatFmt.infMag .binary32)
    ∧ (roundMag .binary32 1 (2 ^ 150) = 0 ∧ 1 < FloatFmt.infMag .binary32
        ∧ ((unitsOf .binary32 1 * 2 ^ 150 : Int) - 1 * FloatFmt.one .binary32).natAbs
          = ((unitsOf .binary32 (roundMag .binary32 1 (2 ^ 150)) * 2 ^ 150 : Int)
              - 1 * FloatFmt.one .binary32).natAbs)
    ∧ roundMag .binary32 (2 ^ 128 - 2 ^ 103) 1 = FloatFmt.infMag .binary32
    ∧ roundMag .binary32 (2 ^ 128 - 2 ^ 103 - 1) 1 < FloatFmt.infMag .binary32 := by decide +kernel

theorem witness_TemperatureNarrowing : (167 : Byte).toNat ≤ 167 ∧ 168 ≤ (168 : Byte).toNat := by decide

theorem witness_BooleansOfBytesAndBits :
    2 ≤ (2 : Byte).toNat ∧ params.boolByteOther = .true ∧ faultParams.boolByteOther = .fault := by decide

/-- The three cases of every single-frame decoder: short by a byte, a wrong checksum, a valid reply. -/
theorem witness_decodesFrame :
    (w1.take 12).length < 13
    ∧ (13 ≤ (w1.take 12 ++ [0x52]).length
        ∧ windowSum (w1.take 12 ++ [0x52]) 0 ≠ byteAt (w1.take 12 ++ [0x52]) 12)
    ∧ ValidReply w1 := ⟨by decide, by decide, valid_w1⟩

/-- The modes 0, 1, 2 and the least byte that is none. -/
theorem witness_DecMosValue :
    ((0 : Byte) = 0 ∧ MosfetMode.stationary = .stationary) ∧ ((1 : Byte) = 1 ∧ MosfetMode.charging = .charging)
      ∧ ((2 : Byte) = 2 ∧ MosfetMode.discharging = .discharging) ∧ 3 ≤ (3 : Byte).toNat := by decide

theorem witness_DecBalValue : 48 < (49 : Byte).toNat ∧ (48 : Byte).toNat ≤ 48 ∧ ValidReply bal18 :=
  ⟨by decide, by decide, by decide, by decide⟩

theorem witness_AcknowledgementDecoders :
    (Instr.decReset, (0x0200 : Half)) ∈ [(Instr.decSetdmos, 0x02D9#16), (.decSetcmos, 0x02DA#16), (.decSetsoc, 0x0221#16),
      (.decReset, 0x0200#16)] := by decide

/-- V5.6: the entry (10, 7) before the entry (4, 0), both bits set; and a well-formed table. -/
theorem witness_ErrorNamesKeepTableOrder :
    ∃ s t : State, exec .decErr s = .next t ∧ t.result.value = some (.errorCode ["x", "y"])
      ∧ [⟨6, 7, "x"⟩, ⟨0, 0, "y"⟩].Sublist s.params.errorTable
      ∧ (byteAt s.op.rx (4 + 6)).getLsbD 7 = true ∧ (byteAt s.op.rx (4 + 0)).getLsbD 0 = true
      ∧ s.params.wellFormed = true :=
  ⟨onPort { params with errorTable := turnedTable } (record 0x0298 err3 0), _, rfl, by decide, by decide, by decide,
   by decide, by decide⟩

theorem good_f1 : GoodFrame (f1 ++ f2) 1 := ⟨by decide, by decide⟩
theorem good_t1 : GoodFrame (t1 ++ t2) 1 := ⟨by decide, by decide⟩

theorem valid_cellv : ValidFrames (f1 ++ f2) 2 := by
  refine ⟨by decide, fun i h1 h2 => ?_⟩
  obtain rfl | rfl : i = 1 ∨ i = 2 := by omega
  · exact good_f1
  · exact ⟨by decide, by decide⟩

theorem valid_cellt : ValidFrames (t1 ++ t2) 2 := by
  refine ⟨by decide, fun i h1 h2 => ?_⟩
  obtain rfl | rfl : i = 1 ∨ i = 2 := by omega
  · exact good_t1
  · exact ⟨by decide, by decide⟩

theorem witness_DecCellvValues :
    (4 : Byte).toNat ≤ 3 * 2 ∧ 3 * 2 < (4 : Byte).toNat + 3 ∧ ValidFrames (f1 ++ f2) 2 :=
  ⟨by decide, by decide, valid_cellv⟩

/-- V4.13 with `wrap`, with `fault` up to value 7, V4.14, where value 8 (byte 0xFF) is the first of 168 or more, and a first
frame whose value 0 faults before a second frame that is wrong (all zero). -/
theorem witness_DecCelltValues :
    ((9 : Byte).toNat ≤ 7 * 2 ∧ 7 * 2 < (9 : Byte).toNat + 7 ∧ ValidFrames (t1 ++ t2) 2)
    ∧ params.tempNarrow = .wrap
    ∧ (∀ k, k < (8 : Byte).toNat → (byteAt (t1 ++ t2) (13 * (k / 7) + 5 + k % 7)).toNat ≤ 167)
    ∧ (faultParams.tempNarrow = .fault ∧ 8 < (9 : Byte).toNat
        ∧ 168 ≤ (byteAt (t1 ++ t2) (13 * (8 / 7) + 5 + 8 % 7)).toNat
        ∧ (∀ i, 1 ≤ i → i ≤ 8 / 7 + 1 → GoodFrame (t1 ++ t2) i)
        ∧ ∀ j, j < 8 → (byteAt (t1 ++ t2) (13 * (j / 7) + 5 + j % 7)).toNat ≤ 167)
    ∧ (∀ i, 1 ≤ i → i ≤ 0 / 7 + 1 →
        GoodFrame ([0xA5, 0x01, 0x96, 0x08, 0x01, 0xA8, 0, 0, 0, 0, 0, 0, 0xED] ++ List.replicate 13 0) i)
    ∧ ¬ GoodFrame ([0xA5, 0x01, 0x96, 0x08, 0x01, 0xA8, 0, 0, 0, 0, 0, 0, 0xED] ++ List.replicate 13 0) 2 := by
  refine ⟨⟨by decide, by decide, valid_cellt⟩, by decide, by decide,
    ⟨by decide, by decide, by decide, fun i h1 h2 => valid_cellt.2 i h1 h2, by decide⟩, fun i h1 h2 => ?_,
    fun h => absurd h.1 (by decide)⟩
  obtain rfl : i = 1 := by omega
  exact ⟨by decide, by decide⟩

/-- The second frame of V4.6 (sequence byte) and of V4.7 (checksum); T1 and a wrong second frame, where no value of the
first faults. -/
theorem witness_FirstWrongFrameDecides :
    let seq : List Byte := [0xA5, 0x40, 0x95, 0x08, 0x03, 0x0C, 0xE7, 0, 0, 0, 0, 0, 0x77]
    let sum : List Byte := [0xA5, 0x40, 0x95, 0x08, 0x02, 0x0C, 0xE7, 0, 0, 0, 0, 0, 0x78]
    ((4 : Byte).toNat ≤ 3 * 2 ∧ 3 * 2 < (4 : Byte).toNat + 3 ∧ 13 * 2 ≤ (f1 ++ seq).length
      ∧ (∀ j, 1 ≤ j → j < 2 → GoodFrame (f1 ++ seq) j) ∧ (byteAt (f1 ++ seq) 17).toNat ≠ 2)
    ∧ ((∀ j, 1 ≤ j → j < 2 → GoodFrame (f1 ++ sum) j)
      ∧ (byteAt (f1 ++ sum) 17).toNat = 2 ∧ windowSum (f1 ++ sum) 13 ≠ byteAt (f1 ++ sum) 25)
    ∧ ((9 : Byte).toNat ≤ 7 * 2 ∧ 7 * 2 < (9 : Byte).toNat + 7 ∧ 13 * 2 ≤ (t1 ++ sum).length
      ∧ (∀ j, 1 ≤ j → j < 2 → GoodFrame (t1 ++ sum) j) ∧ (byteAt (t1 ++ sum) 17).toNat = 2
      ∧ windowSum (t1 ++ sum) 13 ≠ byteAt (t1 ++ sum) 25
      ∧ ∀ k, k < 7 * (2 - 1) → (byteAt (t1 ++ sum) (13 * (k / 7) + 5 + k % 7)).toNat ≤ 167) := by
  refine ⟨⟨by decide, by decide, by decide, fun j h1 h2 => ?_, by decide⟩, ⟨fun j h1 h2 => ?_, by decide, by decide⟩,
    ⟨by decide, by decide, by decide, fun j h1 h2 => ?_, by decide, by decide, by decide⟩⟩ <;>
  · obtain rfl : j = 1 := by omega
    exact ⟨by decide, by decide⟩

/-- W10: the two frames of W3, exchanged; and the two of V4.13. -/
theorem witness_ExchangedFramesAreRejected :
    ((4 : Byte).toNat ≤ 3 * 2 ∧ 3 * 2 < (4 : Byte).toNat + 3 ∧ ValidFrames (f1 ++ f2) 2
      ∧ (f2 ++ f1).length = (f1 ++ f2).length
      ∧ (∀ k, k < 13 → byteAt (f2 ++ f1) (13 * (1 - 1) + k) = byteAt (f1 ++ f2) (13 * (2 - 1) + k)
          ∧ byteAt (f2 ++ f1) (13 * (2 - 1) + k) = byteAt (f1 ++ f2) (13 * (1 - 1) + k))
      ∧ ∀ a, (∀ k, k < 13 → a ≠ 13 * (1 - 1) + k ∧ a ≠ 13 * (2 - 1) + k) → byteAt (f2 ++ f1) a = byteAt (f1 ++ f2) a)
    ∧ ((9 : Byte).toNat ≤ 7 * 2 ∧ 7 * 2 < (9 : Byte).toNat + 7 ∧ ValidFrames (t1 ++ t2) 2
      ∧ params.tempNarrow = .wrap
      ∧ ∀ k, k < 7 * (1 - 1) → (byteAt (t1 ++ t2) (13 * (k / 7) + 5 + k % 7)).toNat ≤ 167) := by
  refine ⟨⟨by decide, by decide, valid_cellv, by decide, by decide, fun a h => ?_⟩, by decide, by decide, valid_cellt,
    by decide, by decide⟩
  rcases Nat.lt_or_ge a 26 with ha | ha
  · have := h (a % 13) (Nat.mod_lt _ (by decide))
    omega
  · rw [byteAt, byteAt, List.getD_eq_default _ _ (by simpa [f1, f2] using ha),
      List.getD_eq_default _ _ (by simpa [f1, f2] using ha)]

theorem witness_CountZeroGivesNothing : (onPort params (record 0x0295 [] 0)).op.count = 0 := rfl

/-- CELLV with count 4: 25 bytes are too few, 26 are enough; and the host presents the whole reply. -/
theorem witness_ReplySizeIsWhatTheDecoderRequires :
    ((Instr.rszCellv, Instr.decCellv) ∈ [(Instr.rszCellv, Instr.decCellv), (.rszCellt, .decCellt)]
      ∧ (onPort params (record 0x0295 ((f1 ++ f2).take 25) 4)).op.rx.length < 26
      ∧ 26 ≤ (onPort params (record 0x0295 (f1 ++ f2) 4)).op.rx.length)
    ∧ ∃ s t : State, s.moves = .host (.present (record 0x0290 w1 0)) :: []
      ∧ decode (record 0x0290 w1 0).cw = .ok (decInstr .soc) ∧ step s = .next t := by
  refine ⟨by decide, keeper params none .soc w1 (record 0x0290 w1 0), ?_⟩
  obtain ⟨t, h, _⟩ := next_of_after (s := keeper params none .soc w1 (record 0x0290 w1 0)) (P := fun _ => true) (by decide)
  exact ⟨t, rfl, rfl, h⟩

/-- W2, valid, with byte booleans 0 or 1. -/
theorem witness_StatusGatesTheCountedOperations_status :
    (about params 0x0294 w2 0).presents (record 0x0294 w2 0) [] ∧ (record 0x0294 w2 0).rx.length ≤ params.rxCap
      ∧ ValidReply w2 ∧ params.boolByteOther = .true ∧ (byteAt w2 6).toNat ≤ 1 ∧ (byteAt w2 7).toNat ≤ 1 :=
  ⟨.inl rfl, by decide, ⟨by decide, by decide⟩, rfl, by decide, by decide⟩

/-- The host presents each counted operation with its cached count, and gets a size or a value. -/
theorem witness_StatusGatesTheCountedOperations_next :
    ∀ x ∈ [(Command.cellv, ([] : List Byte), 0x0395#16, 4#8), (.cellt, [], 0x0396#16, 9#8), (.cellv, f1 ++ f2, 0x0295#16, 4#8),
        (.cellt, t1 ++ t2, 0x0296#16, 9#8), (.bal, bal18, 0x0297#16, 4#8)],
      ∃ t, step (keeper params (some ⟨4, 9⟩) x.1 x.2.1 (record x.2.2.1 x.2.1 x.2.2.2)) = .next t
        ∧ (t.result.size.isSome || t.result.value.isSome) = true := by
  intro x hx
  refine next_of_after (P := fun t => t.result.size.isSome || t.result.value.isSome) ?_
  revert x
  decide

/-- A count that is not the cached one, and no cached count. -/
theorem witness_StatusGatesTheCountedOperations_refused :
    (∀ c, (some ⟨4, 9⟩ : Option StatusCounts) = some c →
        (record 0x0295 [] 9).count ≠ c.cells ∧ (record 0x0296 [] 4).count ≠ c.temperatureSensors)
      ∧ ∀ c, (none : Option StatusCounts) = some c → (record 0x0295 [] 9).count ≠ c.cells :=
  ⟨fun c h => by cases h; decide, fun c h => by cases h⟩

end Sys2Proof.Tests
end

section
/-! PROOFS. Rounding to nearest, ties to even (00_scope.md R11): the rounded pattern against its two neighbours, the
overflow threshold, the width of a pattern, and the patterns that are no number. -/

namespace Sys2Proof

/-! ### Half a unit around the rounded integer -/

/-- `a / b` lies within a half of the rounded integer, and strictly within it when that integer is odd. -/
theorem roundHalfEven_bounds {a b : Nat} (hb : 0 < b) :
    2 * (roundHalfEven a b * b) ≤ 2 * a + b ∧ 2 * a ≤ 2 * (roundHalfEven a b * b) + b
    ∧ (roundHalfEven a b % 2 = 1 →
        2 * (roundHalfEven a b * b) < 2 * a + b ∧ 2 * a < 2 * (roundHalfEven a b * b) + b) := by
  have hnear := roundHalfEven_near (a := a) hb
  generalize roundHalfEven a b = r at hnear ⊢
  obtain ⟨hup, hupEven⟩ := hnear (r + 1)
  obtain ⟨hdown, hdownEven⟩ := hnear (r - 1)
  cases r with
  | zero => rw [Nat.zero_mul]; omega
  | succ q =>
    simp only [Nat.add_sub_cancel] at hdown hdownEven
    push_cast [Nat.add_mul, Int.add_mul] at *
    omega

/-- The rounded integer reaches an even number exactly from the half below it on: that tie is rounded up. -/
theorem two_mul_le_roundHalfEven_iff {a b : Nat} (hb : 0 < b) (k : Nat) :
    2 * k ≤ roundHalfEven a b ↔ (4 * k - 1) * b ≤ 2 * a := by
  obtain ⟨hlow, hhigh, hodd⟩ := roundHalfEven_bounds (a := a) hb
  rw [Nat.sub_mul, Nat.one_mul, Nat.mul_assoc]
  constructor
  · intro h
    have := Nat.mul_le_mul_right b h
    rw [Nat.mul_assoc] at this
    omega
  · intro h
    by_contra hlt
    have hle := Nat.mul_le_mul_right b (show roundHalfEven a b + 1 ≤ 2 * k by omega)
    rw [Nat.add_mul, Nat.mul_assoc] at hle
    have heven : roundHalfEven a b % 2 = 0 := by omega
    have hgap := Nat.mul_le_mul_right b (show roundHalfEven a b + 2 ≤ 2 * k by omega)
    rw [Nat.add_mul, Nat.mul_assoc] at hgap
    omega

/-! ### The neighbours of a pattern of the grid -/

/-- Above a pattern of the grid the next value is at least one step of its binade away. -/
theorem unitsOf_above (f : FloatFmt) {e r m : Nat} (hr : r ≤ 2 * 2 ^ f.fracBits) (he : e = 0 ∨ 2 ^ f.fracBits ≤ r)
    (hm : e * 2 ^ f.fracBits + r < m) : (r + 1) * 2 ^ e ≤ unitsOf f m := by
  refine Nat.le_trans ?_ ((unitsOf_strictMono f).monotone (Nat.succ_le_of_lt hm))
  have hP : 0 < 2 ^ f.fracBits := Nat.two_pow_pos _
  rcases Nat.lt_or_eq_of_le hr with hlt | heq
  · rw [← unitsOf_grid f (e := e) (m := r + 1) hlt (by omega)]
    rfl
  · have hnext := unitsOf_grid f (e := e + 1) (m := 2 ^ f.fracBits + 1) (by omega) (by omega)
    have hpat : (e * 2 ^ f.fracBits + r).succ = (e + 1) * 2 ^ f.fracBits + (2 ^ f.fracBits + 1) := by
      rw [heq, Nat.succ_eq_add_one]; ring
    rw [hpat, hnext, heq]
    calc (2 * 2 ^ f.fracBits + 1) * 2 ^ e ≤ (2 * 2 ^ f.fracBits + 2) * 2 ^ e := Nat.mul_le_mul_right _ (by omega)
      _ = (2 ^ f.fracBits + 1) * 2 ^ (e + 1) := by rw [Nat.pow_succ]; ring

/-- Below a pattern of the grid the next value is at least one step of its binade away, unless the pattern begins its
binade, where the steps below are shorter. -/
theorem unitsOf_below (f : FloatFmt) {e r m : Nat} (hr : r ≤ 2 * 2 ^ f.fracBits) (he : e = 0 ∨ 2 ^ f.fracBits ≤ r)
    (hm : m < e * 2 ^ f.fracBits + r) :
    unitsOf f m < r * 2 ^ e ∧ (e ≠ 0 ∧ r = 2 ^ f.fracBits ∨ unitsOf f m + 2 ^ e ≤ r * 2 ^ e) := by
  have hP : 0 < 2 ^ f.fracBits := Nat.two_pow_pos _
  refine ⟨unitsOf_grid f hr he ▸ unitsOf_strictMono f hm, ?_⟩
  by_cases hbegins : e ≠ 0 ∧ r = 2 ^ f.fracBits
  · exact .inl hbegins
  · right
    obtain ⟨q, rfl⟩ : ∃ q, r = q + 1 := by
      refine ⟨r - 1, ?_⟩
      rcases he with rfl | he <;> omega
    have hle := (unitsOf_strictMono f).monotone (show m ≤ e * 2 ^ f.fracBits + q by omega)
    rw [unitsOf_grid f (e := e) (m := q) (by omega) (by omega)] at hle
    rw [Nat.add_mul, Nat.one_mul]
    omega

/-! ### The nearest value -/

/-- Every other pattern's value is at least as far from the fraction as the rounded one's; one as far leaves the rounded
pattern even. -/
theorem roundMag_nearest (f : FloatFmt) {num den : Nat} (hd : 0 < den) (hfin : roundMag f num den < f.infMag)
    (m : Nat) :
    ((unitsOf f (roundMag f num den) * den : Int) - num * f.one).natAbs
        ≤ ((unitsOf f m * den : Int) - num * f.one).natAbs
    ∧ (m ≠ roundMag f num den →
        ((unitsOf f m * den : Int) - num * f.one).natAbs
          = ((unitsOf f (roundMag f num den) * den : Int) - num * f.one).natAbs →
        roundMag f num den % 2 = 0) := by
  obtain ⟨e, r, hR, hround, hr, he, -, hbinade⟩ := roundMag_form f num hd
  replace hR : roundMag f num den = e * 2 ^ f.fracBits + r := by omega
  have hb : 0 < den * 2 ^ e := Nat.mul_pos hd (Nat.two_pow_pos _)
  obtain ⟨hlow, hhigh, hodd⟩ := roundHalfEven_bounds (a := num * f.one) hb
  rw [← hround] at hlow hhigh hodd
  have hscale (k : Nat) : k * 2 ^ e * den = k * (den * 2 ^ e) := by ring
  have hunits : unitsOf f (roundMag f num den) * den = r * (den * 2 ^ e) := by rw [hR, unitsOf_grid f hr he, hscale]
  have hparity : roundMag f num den % 2 = r % 2 := by
    have hP : 2 ^ f.fracBits % 2 = 0 := by cases f <;> decide
    rw [hR, Nat.add_mod, Nat.mul_mod, hP]
    simp
  rcases Nat.lt_trichotomy m (roundMag f num den) with hlt | heq | hgt
  · obtain ⟨hless, hstep⟩ := unitsOf_below f hr he (hR ▸ hlt)
    rcases hstep with ⟨he0, rfl⟩ | hstep
    · -- The rounded pattern begins its binade: the fraction is not below it, and `m` is.
      have hA : 2 ^ f.fracBits * (den * 2 ^ e) ≤ num * f.one := hbinade.resolve_left he0
      have hx := Nat.mul_lt_mul_of_pos_right hless hd
      rw [hscale] at hx
      omega
    · have hx := Nat.mul_le_mul_right den hstep
      rw [hscale, Nat.add_mul, Nat.mul_comm (2 ^ e)] at hx
      omega
  · subst heq
    exact ⟨Nat.le_refl _, fun hne => absurd rfl hne⟩
  · have hx := Nat.mul_le_mul_right den (unitsOf_above f hr he (hR ▸ hgt))
    rw [hscale, Nat.add_mul, Nat.one_mul] at hx
    omega

/-! ### Overflow -/

/-- Infinity's pattern in the terms of the threshold: the binade above the greatest finite one begins it. -/
theorem infMag_eq (f : FloatFmt) : f.infMag = (2 ^ f.expBits - 4 + 3) * 2 ^ f.fracBits := by cases f <;> decide

/-- The result is infinity exactly from half a unit in the last place above the greatest finite value on. -/
theorem roundMag_eq_infMag_iff (f : FloatFmt) (num : Nat) {den : Nat} (hd : 0 < den) :
    roundMag f num den = f.infMag ↔
      (2 ^ (f.fracBits + 2) - 1) * 2 ^ (2 ^ f.expBits - 4) * den ≤ num * f.one := by
  obtain ⟨e, r, hR, hround, hr, he, hupper, hlower⟩ := roundMag_form f num hd
  have hP : 0 < 2 ^ f.fracBits := Nat.two_pow_pos _
  rw [hR, infMag_eq, min_eq_right_iff, Nat.pow_add]
  generalize 2 ^ f.expBits - 4 = j
  generalize 2 ^ f.fracBits = P at *
  generalize num * f.one = A at *
  rw [Nat.mul_assoc, Nat.mul_comm (2 ^ j) den, Nat.mul_comm P, show 2 ^ 2 = 4 from rfl]
  have hB : 0 < den * 2 ^ j := Nat.mul_pos hd (Nat.two_pow_pos _)
  rcases Nat.lt_trichotomy e (j + 1) with hlt | rfl | hgt
  · -- Below the last finite binade: neither side holds.
    have hpat : e * P ≤ j * P := Nat.mul_le_mul_right _ (by omega)
    have hgrid : den * 2 ^ e ≤ den * 2 ^ j := Nat.mul_le_mul_left _ (Nat.pow_le_pow_right (by omega) (by omega))
    have h1 := Nat.mul_le_mul_left (2 * P) hgrid
    have h2 := Nat.mul_le_mul_right (den * 2 ^ j) (show 2 * P ≤ 4 * P - 1 by omega)
    rw [Nat.add_mul]
    constructor <;> intro h <;> omega
  · -- In the last finite binade: infinity is the carry out of it, the even multiple `2 * P`.
    have hstep : den * 2 ^ (j + 1) = 2 * (den * 2 ^ j) := by rw [Nat.pow_succ]; ring
    have hiff := two_mul_le_roundHalfEven_iff (a := A) (b := den * 2 ^ (j + 1)) (by omega) P
    rw [← hround, hstep, Nat.mul_left_comm] at hiff
    rw [show (j + 3) * P = (j + 1) * P + 2 * P by ring]
    constructor <;> intro h <;> omega
  · -- Above it: both sides hold.
    have hpat : (j + 2) * P ≤ e * P := Nat.mul_le_mul_right _ hgt
    have hgrid : den * 2 ^ (j + 2) ≤ den * 2 ^ e := Nat.mul_le_mul_left _ (Nat.pow_le_pow_right (by omega) hgt)
    have h1 := Nat.mul_le_mul_left P hgrid
    have h2 := Nat.mul_le_mul_right (den * 2 ^ j) (show 4 * P - 1 ≤ 4 * P by omega)
    have h3 : P * (den * 2 ^ (j + 2)) = 4 * P * (den * 2 ^ j) := by rw [Nat.pow_add]; ring
    rw [Nat.add_mul] at hpat ⊢
    constructor <;> intro h <;> omega

/-! ### Patterns in their container -/

/-- A rounded value with its sign fits the format's width. -/
theorem toF_lt (f : FloatFmt) (neg : Bool) (num den : Nat) :
    (toF f neg num den).toNat < 2 ^ (1 + f.expBits + f.fracBits) := by
  have hle := roundMag_le_infMag f num den
  have hlt := infMag_lt f
  have hwidth : 2 ^ (1 + f.expBits + f.fracBits) = 2 * 2 ^ f.signBit := by
    rw [Nat.add_assoc, Nat.pow_add]; rfl
  rw [toF_toNat, hwidth]
  split <;> omega

/-- A pattern is no number exactly when its magnitude is above infinity's. -/
theorem floatVal_eq_nan_iff (f : FloatFmt) (b : FloatBits) :
    floatVal f b = .nan ↔ f.infMag < b.toNat % 2 ^ f.signBit := by
  unfold floatVal
  dsimp only
  split
  · simp [*]
  · split <;> simp [*]

/-- A magnitude is above infinity's exactly when its exponent field is all ones and its fraction field is not zero. -/
theorem infMag_lt_mod_iff (f : FloatFmt) (n : Nat) :
    f.infMag < n % 2 ^ f.signBit ↔
      n / 2 ^ f.fracBits % 2 ^ f.expBits = 2 ^ f.expBits - 1 ∧ n % 2 ^ f.fracBits ≠ 0 := by
  have hfields : n % 2 ^ f.signBit = n % 2 ^ f.fracBits + 2 ^ f.fracBits * (n / 2 ^ f.fracBits % 2 ^ f.expBits) := by
    rw [FloatFmt.signBit, Nat.add_comm, Nat.pow_add, Nat.mod_mul]
  have hfrac := Nat.mod_lt n (Nat.two_pow_pos f.fracBits)
  have hexp := Nat.mod_lt (n / 2 ^ f.fracBits) (Nat.two_pow_pos f.expBits)
  rw [hfields, FloatFmt.infMag]
  rcases Nat.lt_or_eq_of_le (Nat.le_sub_one_of_lt hexp) with hlt | heq
  · have := Nat.mul_le_mul_left (2 ^ f.fracBits) (Nat.succ_le_of_lt hlt)
    rw [Nat.mul_succ, Nat.mul_comm _ (2 ^ f.expBits - 1)] at this
    constructor <;> intro h <;> omega
  · rw [heq, Nat.mul_comm (2 ^ f.fracBits)]
    omega

/-- Settles O42: the rounded integer lies within half a step of its binade (`roundHalfEven_bounds`), and every other
pattern at least a step away, or beyond the start of the binade (`unitsOf_above`, `unitsOf_below`). -/
theorem roundingIsToNearestEven : Obligations.RoundingIsToNearestEven := by
  unfold Obligations.RoundingIsToNearestEven
  refine ⟨fun f num den hd => ⟨fun hfin m _ => roundMag_nearest f hd hfin m, roundMag_le_infMag f num den,
    roundMag_eq_infMag_iff f num hd, fun neg => ⟨fun hinf => ?_, fun hfin => ?_, toF_lt f neg num den⟩⟩,
    fun f b => ?_⟩
  · rw [floatVal_toF, if_pos hinf]
  · rw [floatVal_toF, if_neg hfin]
  · rw [floatVal_eq_nan_iff, infMag_lt_mod_iff]

end Sys2Proof
end

section
/-! PROOFS. The machine's state (10_state.md): how every operation ends, what a step is on each move, and from these the
frame, the refusals, the host's data and the machine's invariant. -/

namespace Sys2Proof.Machine

/-! ### What a successful operation writes -/

/-- A value that operation `i` can answer: sound under well-formed parameters, and a Status value only from DEC.STATUS. -/
def AnswerOf (p : Params) (i : Instr) (v : Decoded) : Prop :=
  (p.wellFormed = true → v.sound p) ∧ ∀ w, v = .status w → i = .decStatus

/-- A record that operation `i` can write on success: status OK and the one field listed for it, with content the spec
allows (10_state.md R21; 30_encoding.md R48). -/
inductive SuccessRecord (p : Params) (i : Instr) : ResultRecord → Prop
  | done (hf : resultFieldOf i = none) : SuccessRecord p i .done
  | tx (hf : resultFieldOf i = some .tx) {f : Frame} (h : frameSound f) : SuccessRecord p i (.okTx f)
  | size (hf : resultFieldOf i = some .size) {n : Nat} (h : n ≤ 1105 ∧ n % 13 = 0) : SuccessRecord p i (.okSize n)
  | sum (hf : resultFieldOf i = some .sum) (b : Byte) : SuccessRecord p i (.okSum b)
  | fields (hf : resultFieldOf i = some .fields) {f : Fields} (h : f.checksumOk = true ↔ f.computed = f.checksum) :
      SuccessRecord p i (.okFields f)
  | value (hf : resultFieldOf i = some .value) {v : Decoded} (h : AnswerOf p i v) : SuccessRecord p i (.okValue v)

/-- A record that operation `i` can write: that of a success, or that of a failure with sound information. -/
def EndRecord (p : Params) (i : Instr) (r : ResultRecord) : Prop :=
  SuccessRecord p i r ∨ ∃ e : Info, e.sound ∧ r = .failed e

theorem SuccessRecord.shaped {p : Params} {i : Instr} {r : ResultRecord} (h : SuccessRecord p i r) : r.shaped := by
  right; left
  cases h with
  | done => exact ⟨rfl, rfl, Nat.zero_le _⟩
  | tx | size | sum | fields | value => exact ⟨rfl, rfl, Nat.le_refl _⟩

theorem SuccessRecord.answerOf {p : Params} {i : Instr} {r : ResultRecord} {v : Decoded} (h : SuccessRecord p i r)
    (hv : r.value = some v) : AnswerOf p i v := by
  cases h with
  | done | tx | size | sum | fields => cases hv
  | value _ ha => cases hv; exact ha

theorem SuccessRecord.content {p : Params} {i : Instr} {r : ResultRecord} (h : SuccessRecord p i r)
    (hp : p.wellFormed = true) : r.Content p where
  info := by cases h <;> exact nofun
  tx := by
    intro t ht
    cases h with
    | tx _ hs => cases ht; exact hs
    | done | size | sum | fields | value => cases ht
  size := by
    intro n hn
    cases h with
    | size _ hs => cases hn; exact hs
    | done | tx | sum | fields | value => cases hn
  fields := by
    intro f hf
    cases h with
    | fields _ hs => cases hf; exact hs
    | done | tx | size | sum | value => cases hf
  value v hv := (h.answerOf hv).1 hp

theorem SuccessRecord.has_iff {p : Params} {i : Instr} {r : ResultRecord} (h : SuccessRecord p i r) (f : ResultField) :
    r.has f = true ↔ f = .status ∨ resultFieldOf i = some f := by
  cases h with
  | done hf => rw [hf]; cases f <;> decide
  | tx hf | size hf | sum hf | fields hf | value hf =>
    rw [hf, Option.some.injEq]
    cases f <;> simp [ResultRecord.has, ResultRecord.okTx, ResultRecord.okSize, ResultRecord.okSum,
      ResultRecord.okFields, ResultRecord.okValue, ResultRecord.done, ResultRecord.absent]

theorem Info.status_ne_ok (e : Info) : e.status ≠ .ok := by cases e <;> exact nofun

theorem failed_content {p : Params} {e : Info} (h : e.sound) : (ResultRecord.failed e).Content p where
  info := by rintro _ ⟨⟩; exact h
  tx := by rintro _ ⟨⟩
  size := by rintro _ ⟨⟩
  fields := by rintro _ ⟨⟩
  value := by rintro _ ⟨⟩

theorem absent_content (p : Params) : ResultRecord.absent.Content p where
  info := by rintro _ ⟨⟩
  tx := by rintro _ ⟨⟩
  size := by rintro _ ⟨⟩
  fields := by rintro _ ⟨⟩
  value := by rintro _ ⟨⟩

/-! ### The values and the errors of the decoders -/

section Layouts

/-! The layouts raise nothing but `FieldOutOfRange`, about a payload byte of 2 or more (42_decoders.md R98, R99, R104). -/

variable {P : Info → Prop}
  (hP : ∀ offset byte, (Info.fieldOutOfRange offset byte).sound → P (.fieldOutOfRange offset byte))
include hP

theorem RaisesOnly.of_payloadTemp (p : Params) (n : Byte) {offset : Byte} (h : 4 ≤ offset.toNat ∧ offset.toNat ≤ 11) :
    RaisesOnly P (tempOf p.tempNarrow n offset) := .of_tempOf _ _ _ fun hn => hP _ _ ⟨h.1, h.2, by omega⟩

theorem RaisesOnly.of_payloadBool (p : Params) (n : Byte) {offset : Byte} (h : 4 ≤ offset.toNat ∧ offset.toNat ≤ 11) :
    RaisesOnly P (byteBool p.boolByteOther n offset) := .of_byteBool _ _ _ fun hn => hP _ _ ⟨h.1, h.2, hn⟩

theorem RaisesOnly.of_extractTr (p : Params) {rx : List Byte} (h : 13 ≤ rx.length) : RaisesOnly P (extractTr p rx) := by
  rw [extractTr_eq p h]
  exact .bind (.of_payloadTemp hP p _ (by decide)) fun _ _ => .bind (.of_payloadTemp hP p _ (by decide)) fun _ _ => .ok _

theorem RaisesOnly.of_extractMos (p : Params) {rx : List Byte} (h : 13 ≤ rx.length) :
    RaisesOnly P (extractMos p rx) := by
  rw [extractMos_eq p h]
  exact .bind (.of_modeOf _ fun hm => hP _ _ ⟨by decide, by decide, by omega⟩) fun _ _ =>
    .bind (.of_payloadBool hP p _ (by decide)) fun _ _ => .bind (.of_payloadBool hP p _ (by decide)) fun _ _ => .ok _

theorem RaisesOnly.of_extractStatus (p : Params) {rx : List Byte} (h : 13 ≤ rx.length) :
    RaisesOnly P (extractStatus p rx) := by
  rw [extractStatus_eq p h]
  exact .bind (.of_payloadBool hP p _ (by decide)) fun _ _ => .bind (.of_payloadBool hP p _ (by decide)) fun _ _ => .ok _

theorem RaisesOnly.of_cellTemperatureAt (p : Params) {rx : List Byte} {m j : Nat} (hj : j < 7)
    (h : 13 * (m + 1) ≤ rx.length) : RaisesOnly P (cellTemperatureAt p rx (13 * m + 5 + 1 * j)) := by
  rw [cellTemperatureAt, readByte_of_lt (by omega), eval_ok_bind, show (13 * m + 5 + 1 * j) % 13 = 5 + j by omega]
  refine .of_payloadTemp hP p _ ?_
  rw [BitVec.toNat_ofNat]
  omega

end Layouts

theorem RaisesOnly.of_cellVoltageAt {P : Info → Prop} (p : Params) {rx : List Byte} {m j : Nat} (hj : j < 3)
    (h : 13 * (m + 1) ≤ rx.length) : RaisesOnly P (cellVoltageAt p rx (13 * m + 5 + 2 * j)) := by
  rw [cellVoltageAt, be16_of_le (by omega), eval_ok_bind]
  exact .ok _

theorem extractTr_eq_ok {p : Params} {rx : List Byte} {v : Decoded} (hl : 13 ≤ rx.length)
    (h : extractTr p rx = .ok v) : ∃ w, v = .temperatureRange w := by
  simp only [extractTr_eq p hl, eval_bind_eq_ok, eval_pure, Except.ok.injEq] at h
  obtain ⟨_, _, _, _, rfl⟩ := h
  exact ⟨_, rfl⟩

theorem extractMos_eq_ok {p : Params} {rx : List Byte} {v : Decoded} (hl : 13 ≤ rx.length)
    (h : extractMos p rx = .ok v) : ∃ w, v = .mosfetStatus w := by
  simp only [extractMos_eq p hl, eval_bind_eq_ok, eval_pure, Except.ok.injEq] at h
  obtain ⟨_, _, _, _, _, _, rfl⟩ := h
  exact ⟨_, rfl⟩

theorem extractStatus_eq_ok {p : Params} {rx : List Byte} {v : Decoded} (hl : 13 ≤ rx.length)
    (h : extractStatus p rx = .ok v) : ∃ w, v = .status w := by
  simp only [extractStatus_eq p hl, eval_bind_eq_ok, eval_pure, Except.ok.injEq] at h
  obtain ⟨_, _, _, _, rfl⟩ := h
  exact ⟨_, rfl⟩

/-- The names of the set flags stand in table order, and none is repeated where the table's are not (44_error_code.md
R121 to R123). -/
theorem errorCode_sound {p : Params} (q : ErrorEntry → Bool) (hp : p.wellFormed = true) :
    (Decoded.errorCode ((p.errorTable.filter q).map fun e => e.name)).sound p := by
  have hsub : ((p.errorTable.filter q).map fun e => e.name).Sublist (p.errorTable.map fun e => e.name) :=
    List.filter_sublist.map _
  simp only [Params.wellFormed, errorTableWellFormed, Bool.and_eq_true, decide_eq_true_eq] at hp
  exact ⟨hsub, hp.2.sublist hsub⟩

/-! ### How every operation ends -/

theorem validateLen_eq_ok {rx : List Byte} {n : Nat} {u : Unit} (h : validateLen rx n = .ok u) : n ≤ rx.length := by
  by_contra hlt
  rw [validateLen_of_lt (by omega)] at h
  cases h

/-- An operation that answers a next state, from what is known of the errors and the values of its evaluation. -/
theorem conclude_ends {α : Type} {i : Instr} {s t : State} {mk : α → ResultRecord} {x : Eval α}
    (h : conclude s mk x = .next t) (hraise : RaisesOnly Info.sound x)
    (hok : ∀ v, x = .ok v → SuccessRecord s.params i (mk v)) :
    ∃ r, t = s.setResult r ∧ EndRecord s.params i r := by
  rcases conclude_next h with ⟨v, hv, rfl⟩ | ⟨e, he, rfl⟩
  · exact ⟨_, rfl, .inl (hok v hv)⟩
  · exact ⟨_, rfl, .inr ⟨e, hraise e he, rfl⟩⟩

/-- The request encoders and BUILD: they raise nothing and answer a built frame (41_requests.md R80). -/
theorem buildFrame_ends {i : Instr} {s t : State} {cmd : Byte} {payload : Payload}
    (h : conclude s .okTx (.ok (buildFrame cmd payload)) = .next t) (hf : resultFieldOf i = some .tx) :
    ∃ r, t = s.setResult r ∧ EndRecord s.params i r :=
  conclude_ends h (.ok _) fun v hv => by
    cases hv
    exact .tx hf (buildFrame_sound cmd payload)

theorem replyLength_sound (c : Command) (count : Byte) : replyLength c count ≤ 1105 ∧ replyLength c count % 13 = 0 := by
  have hframes : replyFrames c count ≤ 85 := by
    cases c with
    | cellv => exact nframes_le count (by decide)
    | cellt => exact nframes_le count (by decide)
    | soc | cvr | tr | mos | status | bal | err | setdmos | setcmos | setsoc | reset => exact (by decide : 1 ≤ 85)
  rw [replyLength, show Config.frameLen = 13 from rfl]
  omega

/-- The reply sizes raise nothing (40_frame_checksum.md R65 to R77). -/
theorem replySize_ends {i : Instr} {s t : State} {c : Command} (h : replySize s c = .next t)
    (hf : resultFieldOf i = some .size) : ∃ r, t = s.setResult r ∧ EndRecord s.params i r :=
  conclude_ends h (.ok _) fun v hv => by
    cases hv
    exact .size hf (replyLength_sound c s.op.count)

/-- A single-frame decoder, from its layout on a buffer that holds a frame (42_decoders.md R95). -/
theorem decodeSingle_ends {i : Instr} {s t : State} {x : Eval Decoded}
    (h : conclude s .okValue (decodeSingle s.op.rx x) = .next t) (hf : resultFieldOf i = some .value)
    (hx : 13 ≤ s.op.rx.length → RaisesOnly Info.sound x ∧ ∀ v, x = .ok v → AnswerOf s.params i v) :
    ∃ r, t = s.setResult r ∧ EndRecord s.params i r := by
  refine conclude_ends h (.of_decodeSingle id (fun _ _ hne => hne) fun hl => (hx hl).1) fun v hv => ?_
  obtain ⟨hl, hv⟩ := decodeSingle_eq_ok hv
  exact .value hf ((hx hl).2 v hv)

/-- A layout that raises nothing ends with its value. -/
theorem layout_ok {p : Params} {i : Instr} {x : Eval Decoded} {w : Decoded} (hx : x = .ok w) (h : AnswerOf p i w) :
    RaisesOnly Info.sound x ∧ ∀ v, x = .ok v → AnswerOf p i v := by
  subst hx
  refine ⟨.ok _, fun v hv => ?_⟩
  cases hv
  exact h

/-- The four acknowledgements (42_decoders.md R107). -/
theorem decodeAck_ends {i : Instr} {s t : State} (h : decodeAck s = .next t) (hf : resultFieldOf i = some .value) :
    ∃ r, t = s.setResult r ∧ EndRecord s.params i r :=
  decodeSingle_ends h hf fun _ => layout_ok (w := .ack) rfl ⟨fun _ => trivial, fun _ h => nomatch h⟩

/-- A multi-frame decoder, from its lanes (43_multiframe.md R113). -/
theorem reassemble_ends {α : Type} {i : Instr} {s t : State} {cap width : Nat} {conv : Nat → Eval α}
    {mk : List α → Decoded}
    (h : conclude s (fun vs => .okValue (mk vs)) (reassemble s.op.rx s.op.count.toNat cap width conv) = .next t)
    (hf : resultFieldOf i = some .value) (hcap : 3 ≤ cap)
    (hconv : ∀ m j, j < cap → 13 * (m + 1) ≤ s.op.rx.length → RaisesOnly Info.sound (conv (13 * m + 5 + width * j)))
    (hmk : ∀ vs, vs.length ≤ 255 → AnswerOf s.params i (mk vs)) :
    ∃ r, t = s.setResult r ∧ EndRecord s.params i r := by
  have hn := nframes_le s.op.count hcap
  refine conclude_ends h (.of_reassemble hconv id (fun _ _ _ hne => hne) (fun _ _ hne => hne) (by omega))
    fun vs hvs => ?_
  have hlen := reassemble_length (by omega) hvs
  have hcount := s.op.count.isLt
  exact .value hf (hmk vs (by omega))

/-- The value of DEC.BAL is a list of exactly the count, at most 48 (42_decoders.md R106). -/
theorem decBal_eq_ok {rx : List Byte} {count : Byte} {v : Decoded}
    (h : (if Config.maxBalanceCells < count.toNat then
        raise (.countOutOfRange count (BitVec.ofNat 8 Config.maxBalanceCells))
      else decodeSingle rx (extractBal rx count.toNat)) = .ok v) :
    ∃ l, v = .balancingState l ∧ l.length = count.toNat ∧ count.toNat ≤ Config.maxBalanceCells := by
  split at h
  · cases h
  · obtain ⟨hl, h⟩ := decodeSingle_eq_ok h
    rw [extractBal_eq hl (Nat.le_of_not_lt ‹_›)] at h
    cases h
    exact ⟨_, rfl, by simp, by omega⟩

theorem execDecBal_ends {s t : State} (h : execDecBal s = .next t) :
    ∃ r, t = s.setResult r ∧ EndRecord s.params .decBal r := by
  refine conclude_ends h ?_ fun v hv => ?_
  · split
    · rename_i hc
      exact .of_raise ⟨rfl, hc⟩
    · rename_i hc
      refine .of_decodeSingle id (fun _ _ hne => hne) fun hl => ?_
      rw [extractBal_eq hl (Nat.le_of_not_lt hc)]
      exact .ok _
  · obtain ⟨l, rfl, hlen, hc⟩ := decBal_eq_ok hv
    exact .value rfl ⟨fun _ => hlen.trans_le hc, fun _ h => nomatch h⟩

theorem execParse_ends {s t : State} (h : execParse s = .next t) :
    ∃ r, t = s.setResult r ∧ EndRecord s.params .parse r := by
  refine conclude_ends h (.bind (.of_validateLen id) fun _ hu => ?_) fun v hv => ?_
  · rw [parseFrame_eq (validateLen_eq_ok hu)]
    exact .ok _
  · obtain ⟨_, hu, hv⟩ := eval_bind_eq_ok.mp hv
    rw [parseFrame_eq (validateLen_eq_ok hu)] at hv
    cases hv
    exact .fields rfl beq_iff_eq

/-- Everything an operation that answers a next state has done: it has written its success or failure record. -/
theorem exec_next {i : Instr} {s t : State} (h : exec i s = .next t) :
    ∃ r, t = s.setResult r ∧ EndRecord s.params i r := by
  cases i with
  | reqSoc | reqCvr | reqTr | reqMos | reqStatus | reqCellv | reqCellt | reqBal | reqErr
  | reqSetdmos | reqSetcmos | reqSetsoc | reqReset | build => exact buildFrame_ends h rfl
  | rszSoc | rszCvr | rszTr | rszMos | rszStatus | rszCellv | rszCellt | rszBal | rszErr
  | rszSetdmos | rszSetcmos | rszSetsoc | rszReset => exact replySize_ends h rfl
  | decSetdmos | decSetcmos | decSetsoc | decReset => exact decodeAck_ends h rfl
  | decSoc =>
    exact decodeSingle_ends h rfl fun hl => layout_ok (extractSoc_eq _ hl) ⟨fun _ => trivial, fun _ h => nomatch h⟩
  | decCvr =>
    exact decodeSingle_ends h rfl fun hl => layout_ok (extractCvr_eq _ hl) ⟨fun _ => trivial, fun _ h => nomatch h⟩
  | decErr =>
    exact decodeSingle_ends h rfl fun hl => layout_ok (extractErr_eq _ hl) ⟨errorCode_sound _, fun _ h => nomatch h⟩
  | decTr =>
    refine decodeSingle_ends h rfl fun hl => ⟨.of_extractTr (fun _ _ hs => hs) _ hl, fun v hv => ?_⟩
    obtain ⟨w, rfl⟩ := extractTr_eq_ok hl hv
    exact ⟨fun _ => trivial, fun _ h => nomatch h⟩
  | decMos =>
    refine decodeSingle_ends h rfl fun hl => ⟨.of_extractMos (fun _ _ hs => hs) _ hl, fun v hv => ?_⟩
    obtain ⟨w, rfl⟩ := extractMos_eq_ok hl hv
    exact ⟨fun _ => trivial, fun _ h => nomatch h⟩
  | decStatus =>
    refine decodeSingle_ends h rfl fun hl => ⟨.of_extractStatus (fun _ _ hs => hs) _ hl, fun v hv => ?_⟩
    obtain ⟨w, rfl⟩ := extractStatus_eq_ok hl hv
    exact ⟨fun _ => trivial, fun _ _ => rfl⟩
  | decCellv =>
    exact reassemble_ends h rfl (by decide) (fun _ _ => .of_cellVoltageAt _)
      fun vs hvs => ⟨fun _ => hvs, fun _ h => nomatch h⟩
  | decCellt =>
    exact reassemble_ends h rfl (by decide) (fun _ _ => .of_cellTemperatureAt (fun _ _ hs => hs) _)
      fun vs hvs => ⟨fun _ => hvs, fun _ h => nomatch h⟩
  | decBal => exact execDecBal_ends h
  | cksum =>
    refine conclude_ends h ?_ fun b _ => .sum rfl b
    split
    · exact .of_raise trivial
    · exact .ok _
  | vlen => exact conclude_ends h (.of_validateLen id) fun _ _ => .done rfl
  | vcks =>
    refine conclude_ends h ?_ fun _ _ => .done rfl
    split
    · exact .of_raise trivial
    · exact .of_validateCks fun _ _ hne => hne
  | parse => exact execParse_ends h

theorem exec_ne_refused (i : Instr) (s : State) (e : Refusal) : exec i s ≠ .refused e := by
  cases i with
  | reqSoc | reqCvr | reqTr | reqMos | reqStatus | reqCellv | reqCellt | reqBal | reqErr
  | reqSetdmos | reqSetcmos | reqSetsoc | reqReset | build => exact nofun
  | rszSoc | rszCvr | rszTr | rszMos | rszStatus | rszCellv | rszCellt | rszBal | rszErr
  | rszSetdmos | rszSetcmos | rszSetsoc | rszReset => exact nofun
  | decSoc | decCvr | decTr | decMos | decStatus | decCellv | decCellt | decBal | decErr
  | decSetdmos | decSetcmos | decSetsoc | decReset | cksum | vlen | vcks | parse => exact conclude_ne_refused

/-- Settles O15: an operation that answers a next state has written a result record, and nothing else (`exec_next`). -/
theorem operationsWriteOnlyTheResultPort : Obligations.OperationsWriteOnlyTheResultPort := by
  intro i s t h
  obtain ⟨r, rfl, -⟩ := exec_next h
  exact ⟨rfl, rfl, rfl, rfl⟩

/-- Settles O19: a success record holds the status and the listed field (`SuccessRecord.has_iff`), and a failure's status
is not OK. -/
theorem successWritesTheListedField : Obligations.SuccessWritesTheListedField := by
  intro i s t h hok f
  obtain ⟨r, rfl, hr | ⟨e, -, rfl⟩⟩ := exec_next h
  · exact hr.has_iff f
  · exact absurd (Option.some.inj hok) e.status_ne_ok

/-! ### One step, move by move -/

theorem step_of_present {s : State} {r : OperandRecord} {rest : List PortMove} (h : s.moves = .present r :: rest) :
    step s = stepPresent s r rest := by
  unfold step; rw [h]

theorem step_of_presentCut {s : State} {r : OperandRecord} {rest : List PortMove}
    (h : s.moves = .presentCut r :: rest) : step s = stepCut s r rest := by
  unfold step; rw [h]

theorem step_of_readResult {s : State} {f : ResultField} {rest : List PortMove} (h : s.moves = .readResult f :: rest) :
    step s = portRead (s.setMoves rest) f := by
  unfold step; rw [h]

theorem step_of_assertReset {s : State} {rest : List PortMove} (h : s.moves = .assertReset :: rest) :
    step s = .next (resetBlock (s.setMoves rest)) := by
  unfold step; rw [h]

theorem step_of_host {s : State} {m : HostMove} {rest : List PortMove} (h : s.moves = .host m :: rest) :
    step s = stepHost s m rest := by
  unfold step; rw [h]

theorem step_of_nil {s : State} (h : s.moves = []) : step s = .next s := by
  unfold step; rw [h]

theorem portRead_of_has {s : State} {f : ResultField} (h : s.result.has f = true) : portRead s f = .next s := if_pos h

theorem portRead_of_not_has {s : State} {f : ResultField} (h : s.result.has f = false) :
    portRead s f = .fault (.absentField f) := if_neg (by simp [h])

theorem hostDeliver_of_some {s : State} {f : Frame} (h : s.result.tx = some f) :
    hostDeliver s = .next (s.setHost (s.host.deliver f)) := by
  unfold hostDeliver; rw [h]

theorem hostDeliver_of_none {s : State} (h : s.result.tx = none) : hostDeliver s = .fault (.absentField .tx) := by
  unfold hostDeliver; rw [h]

theorem runOperation_of_decode {s : State} {i : Instr} (h : decode s.op.cw = .ok i) :
    runOperation s = observed (exec i s) := by
  unfold runOperation; rw [h]

theorem runOperation_of_reject {s : State} {e : Reject} (h : decode s.op.cw = .error e) :
    runOperation s = .next (illegalOperation s) := by
  unfold runOperation; rw [h]

theorem observed_eq_next {o : Host.Outcome State Fault Refusal} {t : State} :
    observed o = .next t ↔ ∃ u, o = .next u ∧ t = hostObserve u := by
  cases o with
  | next u => simp [observed, eq_comm]
  | fault f => simp [observed]
  | refused e => simp [observed]

/-- Everything a run that answers a next state has done: the word's operation has written its record, which the host has
looked at, or the word is no operation. -/
theorem runOperation_next {s t : State} (h : runOperation s = .next t) :
    (∃ i r, decode s.op.cw = .ok i ∧ EndRecord s.params i r ∧ t = hostObserve (s.setResult r))
    ∨ ((∀ i, decode s.op.cw ≠ .ok i) ∧ t = s.setResult (.failed (.illegalOperation s.op.cw))) := by
  cases hd : decode s.op.cw with
  | ok i =>
    rw [runOperation_of_decode hd, observed_eq_next] at h
    obtain ⟨u, hu, rfl⟩ := h
    obtain ⟨r, rfl, hr⟩ := exec_next hu
    exact .inl ⟨i, r, rfl, hr, rfl⟩
  | error e =>
    rw [runOperation_of_reject hd] at h
    cases h
    exact .inr ⟨nofun, rfl⟩

/-! ### The invariant -/

theorem EndRecord.shaped {p : Params} {i : Instr} {r : ResultRecord} (h : EndRecord p i r) : r.shaped :=
  h.elim (·.shaped) fun ⟨e, _, hr⟩ => .inr (.inr ⟨e, hr⟩)

theorem EndRecord.content {p : Params} {i : Instr} {r : ResultRecord} (h : EndRecord p i r)
    (hp : p.wellFormed = true) : r.Content p :=
  h.elim (·.content hp) fun ⟨_, he, hr⟩ => hr ▸ failed_content he

/-- The invariant survives a new result record of the right shape and content, where parameters and writes stay. -/
theorem State.Inv.of_result {s t : State} (hs : s.Inv) (hp : t.params = s.params) (hsent : t.host.sent = s.host.sent)
    (hshape : t.result.shaped) (hcontent : t.result.Content s.params) : t.Inv where
  params := hp ▸ hs.params
  shape := hshape
  content := hp ▸ hcontent
  sent := hsent ▸ hs.sent

theorem runOperation_keeps_inv {s t : State} (hs : s.Inv) (h : runOperation s = .next t) : t.Inv := by
  rcases runOperation_next h with ⟨i, r, -, hr, rfl⟩ | ⟨hd, rfl⟩
  · exact hs.of_result rfl rfl hr.shaped (hr.content hs.params)
  · exact hs.of_result rfl rfl (.inr (.inr ⟨_, rfl⟩)) (failed_content hd)

/-- Settles O12: a run ends with a record of `EndRecord`, a reset with the absent one, a delivery writes the sound `tx` of
the port, and every other step leaves the result port and the writes as they are. -/
theorem stepKeepsTheInvariant : Obligations.StepKeepsTheInvariant := by
  intro s t hs h
  have hlatch (r rest) : (s.latch r rest).Inv := hs.of_result rfl rfl hs.shape hs.content
  rcases step_next h with ⟨r, rest, -, -, hrun⟩ | ⟨r, rest, -, rfl⟩ | ⟨f, rest, -, hf, rfl⟩ | ⟨bytes, rest, -, rfl⟩
    | ⟨rest, -, rfl⟩ | ⟨f, rest, -, -, rfl⟩ | ⟨-, rfl⟩
  · exact runOperation_keeps_inv (hlatch r rest) hrun
  · exact hs.of_result rfl rfl (.inl rfl) (absent_content _)
  · refine ⟨hs.params, hs.shape, hs.content, fun g hg => ?_⟩
    rcases List.mem_append.mp hg with hg | hg
    · exact hs.sent g hg
    · exact List.mem_singleton.mp hg ▸ hs.content.tx f hf
  · exact hs.of_result rfl rfl hs.shape hs.content
  · exact hs.of_result rfl rfl (.inl rfl) (absent_content _)
  · exact hs.of_result rfl rfl hs.shape hs.content
  · exact hs

theorem errorPosition_entry (k : Fin 44) :
    (Config.errorPosition ⟨k.val, by omega⟩).val
      = 8 * (Config.errorEntry k).byteIndex.val + (Config.errorEntry k).bit.val :=
  (Nat.div_add_mod _ 8).symm

/-- The open table meets R121's constraints: its positions and its names come from permutations. -/
theorem errorTable_wellFormed : errorTableWellFormed Config.errorTable = true := by
  have hlen : Config.errorTable.length = Config.nErrorFlags := by simp [Config.errorTable, Config.nErrorFlags]
  have hpos : Function.Injective fun k => ((Config.errorEntry k).byteIndex, (Config.errorEntry k).bit) := by
    intro a b hab
    obtain ⟨hbyte, hbit⟩ := Prod.mk.inj hab
    have hval := (errorPosition_entry a).trans (hbyte ▸ hbit ▸ (errorPosition_entry b).symm)
    exact Fin.ext (Fin.mk.inj (Config.errorPosition.injective (Fin.ext hval)))
  have hname : Function.Injective fun k => (Config.errorEntry k).name := fun a b hab =>
    Fin.ext (Nat.repr_inj.mp (Config.errorLabel.injective hab))
  simp only [errorTableWellFormed, Bool.and_eq_true, decide_eq_true_eq, beq_iff_eq]
  refine ⟨⟨hlen, ?_⟩, ?_⟩ <;> rw [Config.errorTable, List.map_map]
  · exact (List.nodup_finRange 44).map hpos
  · exact (List.nodup_finRange 44).map hname

/-- Settles O13: the open table is well-formed, the result port is absent and nothing has been written to the device. -/
theorem resetMeetsTheInvariant : Obligations.ResetMeetsTheInvariant where
  params := errorTable_wellFormed
  shape := .inl rfl
  content := absent_content _
  sent := by rintro _ ⟨⟩

/-! ### Presented records -/

/-- Settles O6: the record is latched and its word's operation run. -/
theorem stepRunsTheDecodedOperation : Obligations.StepRunsTheDecodedOperation := by
  intro s r rest i hpres hlen hd
  rw [step_present hpres, stepPresent_of_le rest hlen]
  exact runOperation_of_decode hd

/-- The word of an operation selects it again (30_encoding.md R46, R47). -/
theorem decode_encode (i : Instr) : decode (encode i) = .ok i := by
  unfold decode
  rw [opcOf_encode, cmdOf_encode, opClassOfCode_code]
  cases i <;> rfl

/-- Settles O7: the placed word is presented next with the operands on the port, and decodes to its operation. -/
theorem fetchWordRunsItsOperation : Obligations.FetchWordRunsItsOperation := by
  intro s i hlen
  rw [withFetchWord_sixteen]
  exact stepRunsTheDecodedOperation (s.presenting (encode i)) { s.op with cw := encode i } s.moves i (.inl rfl) hlen
    (decode_encode i)

/-- Settles O9: a read and a delivery each answer a next state where the field is present, and fault where it is not. -/
theorem readingAbsentFieldFaults : Obligations.ReadingAbsentFieldFaults := by
  refine ⟨fun s f rest hm => ?_, fun s rest hm => ?_⟩
  · rw [step_of_readResult hm]
    exact ⟨portRead_of_has (s := s.setMoves rest), portRead_of_not_has (s := s.setMoves rest)⟩
  · rw [step_of_host hm]
    exact ⟨hostDeliver_of_none (s := s.setMoves rest), fun f hf =>
      ⟨_, hostDeliver_of_some (s := s.setMoves rest) hf, rfl⟩⟩

/-! ### Refusals -/

theorem runOperation_ne_refused (s : State) (e : Refusal) : runOperation s ≠ .refused e := by
  cases hd : decode s.op.cw with
  | ok i =>
    rw [runOperation_of_decode hd]
    have hexec := exec_ne_refused i s
    cases hx : exec i s with
    | next u => simp [observed]
    | fault f => simp [observed]
    | refused e' => exact absurd hx (hexec e')
  | error e' =>
    rw [runOperation_of_reject hd]
    simp

theorem stepPresent_eq_refused {s : State} {r : OperandRecord} {rest : List PortMove} {e : Refusal} :
    stepPresent s r rest = .refused e ↔ e = .rxOverCap ∧ s.params.rxCap < r.rx.length := by
  rcases Nat.lt_or_ge s.params.rxCap r.rx.length with hl | hl
  · rw [stepPresent_of_gt rest hl]
    simp [hl, eq_comm]
  · rw [stepPresent_of_le rest hl]
    simp [runOperation_ne_refused, hl]

theorem stepCut_eq_refused {s : State} {r : OperandRecord} {rest : List PortMove} {e : Refusal} :
    stepCut s r rest = .refused e ↔ e = .rxOverCap ∧ s.params.rxCap < r.rx.length := by
  rcases Nat.lt_or_ge s.params.rxCap r.rx.length with hl | hl
  · rw [stepCut_of_gt rest hl]
    simp [hl, eq_comm]
  · rw [stepCut_of_le rest hl]
    simp [hl]

theorem stepHost_of_duty {s : State} {r : OperandRecord} (rest : List PortMove) (hd : HostDuty s.host r) :
    stepHost s (.present r) rest = stepPresent s r rest ∧ stepHost s (.presentCut r) rest = stepCut s r rest :=
  ⟨if_pos ((mayPresent_iff _ _).mpr hd), if_pos ((mayPresent_iff _ _).mpr hd)⟩

theorem stepHost_of_not_duty {s : State} {r : OperandRecord} (rest : List PortMove) (hd : ¬ HostDuty s.host r) :
    stepHost s (.present r) rest = .refused .hostContract
    ∧ stepHost s (.presentCut r) rest = .refused .hostContract :=
  ⟨if_neg (hd ∘ (mayPresent_iff _ _).mp), if_neg (hd ∘ (mayPresent_iff _ _).mp)⟩

/-- A record of the host that keeps the contract, cut or not, is refused for its duties or, where they hold, for its
length. -/
theorem stepHost_eq_refused {s : State} {r : OperandRecord} {rest : List PortMove} {e : Refusal} {m : HostMove}
    (hm : m = .present r ∨ m = .presentCut r) :
    stepHost s m rest = .refused e ↔
      (e = .hostContract ∧ ¬ HostDuty s.host r)
      ∨ (e = .rxOverCap ∧ HostDuty s.host r ∧ s.params.rxCap < r.rx.length) := by
  by_cases hd : HostDuty s.host r
  · obtain ⟨hwhole, hcut⟩ := stepHost_of_duty rest hd
    rcases hm with rfl | rfl
    · simp [hwhole, hd, stepPresent_eq_refused]
    · simp [hcut, hd, stepCut_eq_refused]
  · obtain ⟨hwhole, hcut⟩ := stepHost_of_not_duty rest hd
    rcases hm with rfl | rfl
    · simp [hwhole, hd, eq_comm]
    · simp [hcut, hd, eq_comm]

theorem hostDeliver_ne_refused (s : State) (e : Refusal) : hostDeliver s ≠ .refused e := by
  cases h : s.result.tx with
  | none => rw [hostDeliver_of_none h]; simp
  | some f => rw [hostDeliver_of_some h]; simp

theorem portRead_ne_refused (s : State) (f : ResultField) (e : Refusal) : portRead s f ≠ .refused e := by
  cases h : s.result.has f with
  | true => rw [portRead_of_has h]; simp
  | false => rw [portRead_of_not_has h]; simp

/-- Settles O11: of the moves only the presenting ones can be refused, and each for just these reasons. -/
theorem onlyOverlongOrForbiddenRecordsAreRefused : Obligations.OnlyOverlongOrForbiddenRecordsAreRefused := by
  intro s e
  cases hm : s.moves with
  | nil => simp [step_of_nil hm]
  | cons m rest =>
    cases m with
    | present r => simp [step_of_present hm, stepPresent_eq_refused]
    | presentCut r => simp [step_of_presentCut hm, stepCut_eq_refused]
    | readResult f => simp [step_of_readResult hm, portRead_ne_refused]
    | assertReset => simp [step_of_assertReset hm]
    | host m =>
      rw [step_of_host hm]
      cases m with
      | present r => simp [stepHost_eq_refused (.inl rfl : HostMove.present r = .present r ∨ _)]
      | presentCut r => simp [stepHost_eq_refused (.inr rfl : HostMove.presentCut r = .present r ∨ _)]
      | deliver => simp [stepHost, hostDeliver_ne_refused]
      | receive bytes => simp [stepHost]

/-! ### The host's data -/

theorem statusCounts_of_status {r : ResultRecord} {v : BmsStatus} (h : r.value = some (.status v)) :
    statusCounts r = some { cells := v.cells, temperatureSensors := v.temperatureSensors } := by
  unfold statusCounts; rw [h]

theorem statusCounts_of_ne_status {r : ResultRecord} (h : ∀ v, r.value ≠ some (.status v)) : statusCounts r = none := by
  unfold statusCounts
  split
  · exact absurd ‹_› (h _)
  · rfl

theorem EndRecord.answerOf {p : Params} {i : Instr} {r : ResultRecord} {v : Decoded} (h : EndRecord p i r)
    (hv : r.value = some v) : AnswerOf p i v := by
  rcases h with h | ⟨e, -, rfl⟩
  · exact h.answerOf hv
  · cases hv

theorem step_keeps_params {s t : State} (h : step s = .next t) : t.params = s.params := by
  rcases step_next h with ⟨r, rest, -, -, hrun⟩ | ⟨r, rest, -, rfl⟩ | ⟨f, rest, -, -, rfl⟩ | ⟨bytes, rest, -, rfl⟩
    | ⟨rest, -, rfl⟩ | ⟨f, rest, -, -, rfl⟩ | ⟨-, rfl⟩
  · rcases runOperation_next hrun with ⟨i, r, -, -, rfl⟩ | ⟨-, rfl⟩ <;> rfl
  all_goals rfl

/-- What a run leaves of the host's data: all but the cache, and that too unless the result is a Status value, which only
DEC.STATUS answers (10_state.md R18). -/
theorem runOperation_host {s t : State} (h : runOperation s = .next t) :
    (∃ cache, t.host = { s.host with cache := cache })
    ∧ (∀ v, t.result.value = some (.status v) → decode s.op.cw = .ok .decStatus
      ∧ t.host.cache = some { cells := v.cells, temperatureSensors := v.temperatureSensors })
    ∧ ((∀ v, t.result.value ≠ some (.status v)) → t.host = s.host) := by
  rcases runOperation_next h with ⟨i, r, hd, hr, rfl⟩ | ⟨-, rfl⟩
  · refine ⟨⟨_, rfl⟩, fun v hv => ⟨?_, ?_⟩, fun hne => ?_⟩
    · rw [hd, (hr.answerOf hv).2 v rfl]
    · rw [hostObserve_cache, setResult_result, statusCounts_of_status (r := r) hv]
      rfl
    · simp [hostObserve, statusCounts_of_ne_status (r := r) hne]
  · exact ⟨⟨_, rfl⟩, by rintro v ⟨⟩, fun _ => rfl⟩

/-- Settles O16: a run touches the cache alone (`runOperation_host`), a delivery and a reception do what their move says,
and no other step touches the host's data. -/
theorem hostDataChangesOnlyAsItsMovesSay : Obligations.HostDataChangesOnlyAsItsMovesSay := by
  refine ⟨fun s t => step_keeps_params, fun s t r rest hpres h => ?_, fun s rest f hm hf => ?_, fun s rest bytes hm => ?_,
    fun s t hpres hdeliver hreceive h => ?_⟩
  · rw [step_present hpres] at h
    exact runOperation_host (stepPresent_next h).2
  · rw [step_of_host hm]
    exact hostDeliver_of_some (s := s.setMoves rest) hf
  · rw [step_of_host hm]
    rfl
  · rcases step_next h with ⟨r, rest, hp, -⟩ | ⟨r, rest, -, rfl⟩ | ⟨f, rest, hm, -⟩ | ⟨bytes, rest, hm, -⟩
      | ⟨rest, -, rfl⟩ | ⟨f, rest, -, -, rfl⟩ | ⟨-, rfl⟩
    · exact absurd hp (hpres r rest)
    · rfl
    · exact absurd hm (hdeliver rest)
    · exact absurd hm (hreceive bytes rest)
    · rfl
    · rfl
    · rfl

/-! ### The cached counts -/

theorem conclude_value {α : Type} {s t : State} {mk : α → ResultRecord} {x : Eval α} {v : Decoded}
    (h : conclude s mk x = .next t) (hv : t.result.value = some v) : ∃ a, x = .ok a ∧ (mk a).value = some v := by
  rcases conclude_next h with ⟨a, ha, rfl⟩ | ⟨e, -, rfl⟩
  · exact ⟨a, ha, hv⟩
  · cases hv

theorem decCellv_value_length {s t : State} {v : Decoded} (h : exec .decCellv s = .next t)
    (hv : t.result.value = some v) : ∃ l, v = .cellVoltages l ∧ l.length = s.op.count.toNat := by
  obtain ⟨l, hl, hmk⟩ := conclude_value h hv
  cases hmk
  exact ⟨l, rfl, reassemble_length (by decide) hl⟩

theorem decCellt_value_length {s t : State} {v : Decoded} (h : exec .decCellt s = .next t)
    (hv : t.result.value = some v) : ∃ l, v = .cellTemperatures l ∧ l.length = s.op.count.toNat := by
  obtain ⟨l, hl, hmk⟩ := conclude_value h hv
  cases hmk
  exact ⟨l, rfl, reassemble_length (by decide) hl⟩

theorem decBal_value_length {s t : State} {v : Decoded} (h : exec .decBal s = .next t)
    (hv : t.result.value = some v) : ∃ l, v = .balancingState l ∧ l.length = s.op.count.toNat := by
  obtain ⟨w, hw, hmk⟩ := conclude_value h hv
  cases hmk
  obtain ⟨l, rfl, hlen, -⟩ := decBal_eq_ok hw
  exact ⟨l, rfl, hlen⟩

/-- RSZ.CELLV and RSZ.CELLT answer 13 bytes for each of the least number of frames that hold the count
(40_frame_checksum.md R70, R71). -/
theorem replyLength_counted {count : Byte} {n : Nat} :
    (count.toNat ≤ 3 * n → 3 * n < count.toNat + 3 → replyLength .cellv count = 13 * n)
    ∧ (count.toNat ≤ 7 * n → 7 * n < count.toNat + 7 → replyLength .cellt count = 13 * n) :=
  ⟨fun h1 h2 => congrArg (13 * ·) (nframes_unique (by decide) h1 h2),
   fun h1 h2 => congrArg (13 * ·) (nframes_unique (by decide) h1 h2)⟩

theorem byteBool_of_allowed {other : BoolByteOther} {n : Byte} (offset : Byte) (h : other = .true ∨ n.toNat ≤ 1) :
    byteBool other n offset = .ok (decide (n ≠ 0)) := by
  rw [byteBool_eq, if_neg]
  rintro ⟨rfl, hn⟩
  rcases h with h | h
  · cases h
  · omega

/-- DEC.STATUS of a valid reply whose byte booleans have a meaning answers a Status value (42_decoders.md R105). -/
theorem exec_decStatus_of_valid {s : State} (hv : ValidReply s.op.rx)
    (hb : s.params.boolByteOther = .true ∨ ((byteAt s.op.rx 6).toNat ≤ 1 ∧ (byteAt s.op.rx 7).toNat ≤ 1)) :
    exec .decStatus s = .next (s.setResult (.okValue (.status
      { cells := byteAt s.op.rx 4, temperatureSensors := byteAt s.op.rx 5,
        chargerRunning := decide (byteAt s.op.rx 6 ≠ 0), loadRunning := decide (byteAt s.op.rx 7 ≠ 0),
        ioState := ioStateOf (byteAt s.op.rx 8), cycles := BitVec.ofNat 16 (field16 s.op.rx 9) }))) := by
  have hl : 13 ≤ s.op.rx.length := hv.1
  simp only [exec, execDecStatus]
  rw [decodeSingle_valid hv, extractStatus_eq _ hl, byteBool_of_allowed 6 (hb.imp_right And.left), eval_ok_bind,
    byteBool_of_allowed 7 (hb.imp_right And.right), eval_ok_bind]
  rfl

theorem step_host_refused {s : State} {r : OperandRecord} {rest : List PortMove}
    (hm : s.moves = .host (.present r) :: rest) (hd : ¬ HostDuty s.host r) : step s = .refused .hostContract :=
  (step_of_host hm).trans (stepHost_of_not_duty rest hd).1

/-- A counted operation of the host that keeps the contract has run with the cached count (70_reset_and_hazards.md R140). -/
theorem step_host_counted {s t : State} {r : OperandRecord} {rest : List PortMove} {i : Instr} {c : StatusCounts}
    (hm : s.moves = .host (.present r) :: rest) (hd : decode r.cw = .ok i) (hc : s.host.cache = some c)
    (h : step s = .next t) :
    (i ∈ countedByCells → r.count = c.cells) ∧ (i ∈ countedBySensors → r.count = c.temperatureSensors)
    ∧ ∃ u, exec i (s.latch r rest) = .next u ∧ t.result = u.result := by
  obtain ⟨hduty, hrun⟩ := step_host_present hm h
  obtain ⟨hcells, hsensors, -⟩ := hduty i hd
  have hcache (c') (h' : s.host.cache = some c') : c' = c := Option.some.inj (h'.symm.trans hc)
  rw [runOperation_of_decode (s := s.latch r rest) hd] at hrun
  obtain ⟨u, hu, rfl⟩ := observed_eq_next.mp hrun
  refine ⟨fun hi => ?_, fun hi => ?_, u, hu, rfl⟩
  · obtain ⟨c', h', hcount⟩ := hcells hi
    rwa [hcache c' h'] at hcount
  · obtain ⟨c', h', hcount⟩ := hsensors hi
    rwa [hcache c' h'] at hcount

/-- Settles O60: the host looks at the Status value within the step; a counted operation without the cached count breaks a
duty, and one that runs has `step_host_counted`'s count. -/
theorem statusGatesTheCountedOperations : Obligations.StatusGatesTheCountedOperations := by
  refine ⟨fun s r rest hpres hlen hcw hv hb => ?_, fun s r rest i hm hd => ⟨fun hi hne => ?_, fun hi hne => ?_,
    fun c t hc h => ?_⟩⟩
  · have hd : decode r.cw = .ok .decStatus := hcw ▸ decode_encode .decStatus
    rw [step_present hpres, stepPresent_of_le rest hlen, runOperation_of_decode (s := s.latch r rest) hd,
      exec_decStatus_of_valid (s := s.latch r rest) hv hb]
    exact ⟨_, rfl, rfl⟩
  · refine step_host_refused hm fun hduty => ?_
    obtain ⟨c, hc, hcount⟩ := (hduty i hd).1 hi
    exact hne c hc hcount
  · refine step_host_refused hm fun hduty => ?_
    obtain ⟨c, hc, hcount⟩ := (hduty i hd).2.1 hi
    exact hne c hc hcount
  · obtain ⟨hcells, hsensors, u, hu, hres⟩ := step_host_counted hm hd hc h
    rw [hres]
    refine ⟨?_, ?_, ?_, ?_, ?_⟩
    · rintro rfl n h1 h2
      cases (exec_rszInstr .cellv _).symm.trans hu
      exact congrArg ResultRecord.okSize (replyLength_counted.1 (hcells (by decide) ▸ h1) (hcells (by decide) ▸ h2))
    · rintro rfl n h1 h2
      cases (exec_rszInstr .cellt _).symm.trans hu
      exact congrArg ResultRecord.okSize (replyLength_counted.2 (hsensors (by decide) ▸ h1) (hsensors (by decide) ▸ h2))
    · rintro rfl v hv
      exact hcells (by decide) ▸ decCellv_value_length hu hv
    · rintro rfl v hv
      exact hsensors (by decide) ▸ decCellt_value_length hu hv
    · rintro rfl v hv
      exact hcells (by decide) ▸ decBal_value_length hu hv

end Sys2Proof.Machine
end

section
/-! PROOFS. Received bytes (20_memory.md): big-endian fields, operations that complete whatever their operands, results that
depend on the record and the parameters alone, and bytes beyond the required length. -/

namespace Sys2Proof.Machine

/-! ### Fields -/

theorem memRead_of_gt {rx : List Byte} {a n : Nat} (h : rx.length < a + n) :
    memRead rx a n = .error (.faulted .rxOutOfRange) := by
  rw [memRead, readRange, if_neg (by omega)]
  rfl

/-- Settles O23: a field that fits is read as its bytes' big-endian value, and one that does not is guarded by
`readRange`. -/
theorem fieldsAreBigEndian : Obligations.FieldsAreBigEndian :=
  fun _ _ => ⟨be16_of_le, memRead_of_gt, be32_of_le, memRead_of_gt⟩

/-! ### Every operation completes -/

theorem conclude_completes {α : Type} (s : State) (mk : α → ResultRecord) {x : Eval α} (h : NoFault x) :
    ∃ rec, conclude s mk x = .next (s.setResult rec) :=
  (conclude_of_noFault mk h).imp fun _ hr => hr s

theorem decodeAck_completes (s : State) : ∃ rec, decodeAck s = .next (s.setResult rec) :=
  conclude_completes s _ (.of_decodeSingle fun _ => .ok _)

theorem execDecBal_completes (s : State) : ∃ rec, execDecBal s = .next (s.setResult rec) := by
  refine conclude_completes s _ ?_
  split
  · exact .of_raise _
  · exact .of_decodeSingle (.of_extractBal (Nat.le_of_not_lt ‹_›))

theorem execCksum_completes (s : State) : ∃ rec, execCksum s = .next (s.setResult rec) := by
  refine conclude_completes s _ ?_
  split
  · exact .of_raise _
  · exact .ok _

theorem execVcks_completes (s : State) : ∃ rec, execVcks s = .next (s.setResult rec) := by
  refine conclude_completes s _ ?_
  split
  · exact .of_raise _
  · exact .of_validateCks _ ‹_›

theorem execParse_completes (s : State) : ∃ rec, execParse s = .next (s.setResult rec) := by
  refine conclude_completes s _ (.bind (.of_validateLen _ _) fun _ hu => ?_)
  rw [parseFrame_eq (validateLen_eq_ok hu)]
  exact .ok _

/-- Every operation writes some result record on every operand: the reads of each stay inside the buffer it has checked
(20_memory.md R27). -/
theorem exec_completes (i : Instr) (s : State) : ∃ rec, exec i s = .next (s.setResult rec) := by
  cases i with
  | reqSoc | reqCvr | reqTr | reqMos | reqStatus | reqCellv | reqCellt | reqBal | reqErr
  | reqSetdmos | reqSetcmos | reqSetsoc | reqReset | build => exact ⟨_, rfl⟩
  | rszSoc | rszCvr | rszTr | rszMos | rszStatus | rszCellv | rszCellt | rszBal | rszErr
  | rszSetdmos | rszSetcmos | rszSetsoc | rszReset => exact ⟨_, rfl⟩
  | decSoc => exact conclude_completes s _ (.of_decodeSingle (.of_extractSoc _))
  | decCvr => exact conclude_completes s _ (.of_decodeSingle (.of_extractCvr _))
  | decTr => exact conclude_completes s _ (.of_decodeSingle (.of_extractTr _))
  | decMos => exact conclude_completes s _ (.of_decodeSingle (.of_extractMos _))
  | decStatus => exact conclude_completes s _ (.of_decodeSingle (.of_extractStatus _))
  | decErr => exact conclude_completes s _ (.of_decodeSingle (.of_extractErr _))
  | decBal => exact execDecBal_completes s
  | decSetdmos | decSetcmos | decSetsoc | decReset => exact decodeAck_completes s
  | decCellv => exact conclude_completes s _ (.of_reassemble fun _ _ => .of_cellVoltageAt _)
  | decCellt => exact conclude_completes s _ (.of_reassemble fun _ _ => .of_cellTemperatureAt _)
  | cksum => exact execCksum_completes s
  | vlen => exact conclude_completes s _ (.of_validateLen _ _)
  | vcks => exact execVcks_completes s
  | parse => exact execParse_completes s

/-! ### The result depends on the parameters and the operation port -/

/-- One evaluation ends with one record, whatever state the operation stands in. -/
theorem conclude_congr {α : Type} {s s' : State} {mk : α → ResultRecord} {x x' : Eval α} {rec : ResultRecord}
    (hx : x' = x) (h : conclude s mk x = .next (s.setResult rec)) : conclude s' mk x' = .next (s'.setResult rec) := by
  subst hx
  rcases conclude_next h with ⟨v, rfl, hv⟩ | ⟨e, rfl, he⟩
  · rw [conclude_ok, setResult_inj.mp hv]
  · rw [conclude_raise, setResult_inj.mp he]

/-- No operation reads the result port, the moves to come or the host's data (10_state.md R13). -/
theorem exec_congr_port {i : Instr} {s s' : State} {rec : ResultRecord} (hp : s'.params = s.params) (hop : s'.op = s.op)
    (h : exec i s = .next (s.setResult rec)) : exec i s' = .next (s'.setResult rec) := by
  obtain ⟨p, op, result, moves, host⟩ := s
  obtain ⟨p', op', result', moves', host'⟩ := s'
  obtain rfl : p' = p := hp
  obtain rfl : op' = op := hop
  cases i with
  | reqSoc | reqCvr | reqTr | reqMos | reqStatus | reqCellv | reqCellt | reqBal | reqErr
  | reqSetdmos | reqSetcmos | reqSetsoc | reqReset | build => cases h; rfl
  | rszSoc | rszCvr | rszTr | rszMos | rszStatus | rszCellv | rszCellt | rszBal | rszErr
  | rszSetdmos | rszSetcmos | rszSetsoc | rszReset => cases h; rfl
  | decSoc | decCvr | decTr | decMos | decStatus | decCellv | decCellt | decBal | decErr
  | decSetdmos | decSetcmos | decSetsoc | decReset | cksum | vlen | vcks | parse => exact conclude_congr rfl h

/-- The host's look at a failed operation's record leaves its data as they are. -/
theorem hostObserve_failed (s : State) (e : Info) :
    hostObserve (s.setResult (.failed e)) = s.setResult (.failed e) := rfl

/-- Two states with the same parameters and the same record on the port run it to the same result record. -/
theorem runOperation_congr_port {s s' : State} (hp : s'.params = s.params) (hop : s'.op = s.op) :
    ∃ rec, runOperation s = .next (hostObserve (s.setResult rec))
      ∧ runOperation s' = .next (hostObserve (s'.setResult rec)) := by
  cases hd : decode s.op.cw with
  | ok i =>
    obtain ⟨rec, hrec⟩ := exec_completes i s
    rw [runOperation_of_decode hd, runOperation_of_decode (hop ▸ hd), hrec, exec_congr_port hp hop hrec]
    exact ⟨rec, rfl, rfl⟩
  | error e =>
    refine ⟨.failed (.illegalOperation s.op.cw), runOperation_of_reject hd, ?_⟩
    rw [runOperation_of_reject (hop ▸ hd), illegalOperation_eq, hop, hostObserve_failed]

/-- Settles O14: the presented record is latched and run, and every run completes. -/
theorem presentedOperationsComplete : Obligations.PresentedOperationsComplete := by
  intro s r rest hpres hlen
  obtain ⟨rec, hrun, -⟩ := runOperation_congr_port (s := s.latch r rest) rfl rfl
  rw [step_present hpres, stepPresent_of_le rest hlen]
  exact ⟨_, hrun⟩

/-- Settles O17: once the record is latched the two states agree on parameters and operation port, all that a run's result
depends on (`runOperation_congr_port`). -/
theorem earlierOperationsLeaveNoTrace : Obligations.EarlierOperationsLeaveNoTrace := by
  intro s s' r rest rest' hp hpres hpres' hlen
  obtain ⟨rec, hrun, hrun'⟩ := runOperation_congr_port (s := s.latch r rest) (s' := s'.latch r rest') hp.symm rfl
  rw [step_present hpres, step_present hpres', stepPresent_of_le rest hlen, stepPresent_of_le rest' (hp ▸ hlen)]
  exact ⟨_, _, hrun, hrun', rfl⟩

/-! ### Reads of a buffer with bytes appended -/

section Append

variable {rx : List Byte} (extra : List Byte)

theorem length_le_append {n : Nat} (h : n ≤ rx.length) : n ≤ (rx ++ extra).length :=
  h.trans (List.length_append ▸ Nat.le_add_right _ _)

theorem readByte_append {a : Nat} (h : a < rx.length) : readByte (rx ++ extra) a = readByte rx a := by
  rw [readByte_of_lt h, readByte_of_lt (length_le_append extra h), byteAt_append h]

theorem be16_append {a : Nat} (h : a + 2 ≤ rx.length) : be16 (rx ++ extra) a = be16 rx a := by
  rw [be16_of_le h, be16_of_le (length_le_append extra h), field16, field16, byteAt_append (by omega),
    byteAt_append (by omega)]

theorem be32_append {a : Nat} (h : a + 4 ≤ rx.length) : be32 (rx ++ extra) a = be32 rx a := by
  rw [be32_of_le h, be32_of_le (length_le_append extra h), field32, field32, byteAt_append (by omega),
    byteAt_append (by omega), byteAt_append (by omega), byteAt_append (by omega)]

theorem validateLen_append {n : Nat} (h : n ≤ rx.length) : validateLen (rx ++ extra) n = validateLen rx n := by
  rw [validateLen_of_le h, validateLen_of_le (length_le_append extra h)]

theorem checkWindow_append {base : Nat} (i : Byte) (h : base + 13 ≤ rx.length) :
    checkWindow (rx ++ extra) base i = checkWindow rx base i := by
  rw [checkWindow_eq i h, checkWindow_eq i (length_le_append extra h), byteAt_append (by omega),
    windowSum_append (by omega)]

theorem parseFrame_append {base : Nat} (h : base + 13 ≤ rx.length) :
    parseFrame (rx ++ extra) base = parseFrame rx base := by
  rw [parseFrame_eq h, parseFrame_eq (length_le_append extra h)]
  simp (disch := omega) only [byteAt_append, windowSum_append]

/-! ### The layouts -/

theorem decodeSingle_append (x : Eval Decoded) (h : 13 ≤ rx.length) :
    decodeSingle (rx ++ extra) x = decodeSingle rx x := by
  rw [decodeSingle, decodeSingle, validateLen_append extra h, checkWindow_append extra 1 (by omega)]

theorem extractSoc_append (p : Params) (h : 13 ≤ rx.length) : extractSoc p (rx ++ extra) = extractSoc p rx := by
  unfold extractSoc
  simp (disch := omega) only [be16_append]

theorem extractCvr_append (p : Params) (h : 13 ≤ rx.length) : extractCvr p (rx ++ extra) = extractCvr p rx := by
  unfold extractCvr
  simp (disch := omega) only [be16_append, readByte_append]

theorem extractTr_append (p : Params) (h : 13 ≤ rx.length) : extractTr p (rx ++ extra) = extractTr p rx := by
  unfold extractTr
  simp (disch := omega) only [readByte_append]

theorem extractMos_append (p : Params) (h : 13 ≤ rx.length) : extractMos p (rx ++ extra) = extractMos p rx := by
  unfold extractMos
  simp (disch := omega) only [be32_append, readByte_append]

theorem extractStatus_append (p : Params) (h : 13 ≤ rx.length) :
    extractStatus p (rx ++ extra) = extractStatus p rx := by
  unfold extractStatus
  simp (disch := omega) only [be16_append, readByte_append]

theorem errorNames_append (t : List ErrorEntry) (h : 13 ≤ rx.length) : errorNames (rx ++ extra) t = errorNames rx t := by
  induction t with
  | nil => rfl
  | cons e es ih =>
    have hlt : errorByteOffset e < rx.length := by have := e.byteIndex.isLt; unfold errorByteOffset; omega
    rw [errorNames, errorNames, readByte_append extra hlt, ih]

theorem extractErr_append (p : Params) (h : 13 ≤ rx.length) : extractErr p (rx ++ extra) = extractErr p rx := by
  rw [extractErr, extractErr, errorNames_append extra _ h]

theorem extractBal_append {count : Nat} (hc : count ≤ 48) (h : 13 ≤ rx.length) :
    extractBal (rx ++ extra) count = extractBal rx count := by
  have hbits : ∀ k ∈ List.range count,
      bitOf (byteAt (rx ++ extra) (4 + k / 8)) (k % 8) = bitOf (byteAt rx (4 + k / 8)) (k % 8) := fun k hk => by
    have hk := List.mem_range.mp hk
    rw [byteAt_append (by omega)]
  rw [extractBal_eq h hc, extractBal_eq (length_le_append extra h) hc, List.map_congr_left hbits]

theorem cellVoltageAt_append (p : Params) {m j : Nat} (hj : j < 3) (h : 13 * (m + 1) ≤ rx.length) :
    cellVoltageAt p (rx ++ extra) (13 * m + 5 + 2 * j) = cellVoltageAt p rx (13 * m + 5 + 2 * j) := by
  rw [cellVoltageAt, cellVoltageAt, be16_append extra (by omega)]

theorem cellTemperatureAt_append (p : Params) {m j : Nat} (hj : j < 7) (h : 13 * (m + 1) ≤ rx.length) :
    cellTemperatureAt p (rx ++ extra) (13 * m + 5 + 1 * j) = cellTemperatureAt p rx (13 * m + 5 + 1 * j) := by
  rw [cellTemperatureAt, cellTemperatureAt, readByte_append extra (by omega)]

theorem reassemble_append {α : Type} {count cap width : Nat} {conv conv' : Nat → Eval α}
    (hc : ∀ m j, j < cap → 13 * (m + 1) ≤ rx.length → conv' (13 * m + 5 + width * j) = conv (13 * m + 5 + width * j))
    (h : 13 * nframes count cap ≤ rx.length) :
    reassemble (rx ++ extra) count cap width conv' = reassemble rx count cap width conv := by
  rw [reassemble_long _ _ h, reassemble_long _ _ (length_le_append extra h)]
  exact (takeFrames_congr count cap width (fun m j hj hl => (hc m j hj hl).symm) (length_le_append extra le_rfl)
    (fun _ hk => (byteAt_append hk).symm) (fun _ hk => (windowSum_append (by omega)).symm) _ 1 [] le_rfl (by omega)).symm

end Append

/-! ### Bytes beyond the required length -/

/-- The same record on the port with `extra` behind its received bytes. -/
def State.appendRx (s : State) (extra : List Byte) : State := { s with op := { s.op with rx := s.op.rx ++ extra } }

@[simp] theorem appendRx_rx (s : State) (extra : List Byte) : (s.appendRx extra).op.rx = s.op.rx ++ extra := rfl
@[simp] theorem appendRx_count (s : State) (extra : List Byte) : (s.appendRx extra).op.count = s.op.count := rfl
@[simp] theorem appendRx_base (s : State) (extra : List Byte) : (s.appendRx extra).op.base = s.op.base := rfl

/-- A single-frame decoder looks at no byte beyond the first 13 (42_decoders.md R95), if its layout does not. -/
theorem decodeSingle_record_append {s : State} {x x' : Eval Decoded} {rec : ResultRecord} (extra : List Byte)
    (hl : 13 ≤ s.op.rx.length) (hx : x' = x)
    (h : conclude s .okValue (decodeSingle s.op.rx x) = .next (s.setResult rec)) :
    conclude (s.appendRx extra) .okValue (decodeSingle (s.op.rx ++ extra) x')
      = .next ((s.appendRx extra).setResult rec) :=
  conclude_congr (hx ▸ decodeSingle_append extra x' hl) h

theorem execDecBal_append {s : State} {rec : ResultRecord} (extra : List Byte) (hl : 13 ≤ s.op.rx.length)
    (h : execDecBal s = .next (s.setResult rec)) :
    execDecBal (s.appendRx extra) = .next ((s.appendRx extra).setResult rec) := by
  refine conclude_congr ?_ h
  rw [appendRx_count, appendRx_rx]
  split
  · rfl
  · rw [decodeSingle_append extra _ hl, extractBal_append extra (Nat.le_of_not_lt ‹_›) hl]

theorem execParse_append {s : State} {rec : ResultRecord} (extra : List Byte)
    (hl : s.op.base.toNat + 13 ≤ s.op.rx.length) (h : execParse s = .next (s.setResult rec)) :
    execParse (s.appendRx extra) = .next ((s.appendRx extra).setResult rec) := by
  refine conclude_congr ?_ h
  rw [appendRx_base, appendRx_rx, validateLen_append extra hl, parseFrame_append extra hl]

/-- An operation whose buffer has the length it requires writes the same record with more bytes behind
(20_memory.md R28). -/
theorem exec_append {i : Instr} {s : State} {n : Nat} {rec : ResultRecord} (extra : List Byte)
    (hn : requiredLength s.op i = some n) (hl : n ≤ s.op.rx.length) (h : exec i s = .next (s.setResult rec)) :
    exec i (s.appendRx extra) = .next ((s.appendRx extra).setResult rec) := by
  cases i with
  | reqSoc | reqCvr | reqTr | reqMos | reqStatus | reqCellv | reqCellt | reqBal | reqErr
  | reqSetdmos | reqSetcmos | reqSetsoc | reqReset | build => cases hn
  | rszSoc | rszCvr | rszTr | rszMos | rszStatus | rszCellv | rszCellt | rszBal | rszErr
  | rszSetdmos | rszSetcmos | rszSetsoc | rszReset => cases hn
  | cksum | vcks => cases hn
  | decSoc => cases hn; exact decodeSingle_record_append extra hl (extractSoc_append extra _ hl) h
  | decCvr => cases hn; exact decodeSingle_record_append extra hl (extractCvr_append extra _ hl) h
  | decTr => cases hn; exact decodeSingle_record_append extra hl (extractTr_append extra _ hl) h
  | decMos => cases hn; exact decodeSingle_record_append extra hl (extractMos_append extra _ hl) h
  | decStatus => cases hn; exact decodeSingle_record_append extra hl (extractStatus_append extra _ hl) h
  | decErr => cases hn; exact decodeSingle_record_append extra hl (extractErr_append extra _ hl) h
  | decSetdmos | decSetcmos | decSetsoc | decReset => cases hn; exact decodeSingle_record_append extra hl rfl h
  | decBal => cases hn; exact execDecBal_append extra hl h
  | decCellv =>
    cases hn
    exact conclude_congr (reassemble_append extra (fun _ _ => cellVoltageAt_append extra _) hl) h
  | decCellt =>
    cases hn
    exact conclude_congr (reassemble_append extra (fun _ _ => cellTemperatureAt_append extra _) hl) h
  | vlen => cases hn; exact conclude_congr (validateLen_append extra hl) h
  | parse => cases hn; exact execParse_append extra hl h

/-- Settles O24: the operation completes (`exec_completes`), and with more bytes behind it writes the same record
(`exec_append`). -/
theorem trailingBytesAreNeverRead : Obligations.TrailingBytesAreNeverRead := by
  intro i s n extra hn hl
  obtain ⟨rec, hrec⟩ := exec_completes i s
  exact ⟨rec, hrec, exec_append extra hn hl hrec⟩

end Sys2Proof.Machine
end

section
/-! PROOFS. The operation word and the operand record (30_encoding.md): the decoder against the encoder, the words that are
no operation, assembler lines, and the operands and reply bytes a result depends on. -/

namespace Sys2Proof.Machine

/-! ### Words of operations -/

/-- Settles O1: the word's two bytes are the operation's class code and low byte, which the tables read back
(`decode_encode`). -/
theorem encodedOperationsDecodeBack : Obligations.EncodedOperationsDecodeBack :=
  fun i _ => decode_encode i

theorem withCommand_eq_ok {b : Byte} {f : Command → Instr} {i : Instr} :
    withCommand b f = .ok i ↔ ∃ c : Command, c.id = b ∧ f c = i := by
  unfold withCommand
  cases hc : commandOfId b with
  | none => simp [commandOfId_eq_none.mp hc]
  | some c =>
    obtain rfl := id_of_commandOfId hc
    have hinj : ∀ c' : Command, c'.id = c.id → c' = c := fun c' h =>
      Option.some.inj (commandOfId_id c' ▸ h ▸ hc)
    constructor
    · exact fun h => ⟨c, rfl, Except.ok.inj h⟩
    · rintro ⟨c', hid, rfl⟩
      rw [hinj c' hid]

theorem withoutCommand_eq_ok {b : Byte} {i j : Instr} : withoutCommand b i = .ok j ↔ b = 0 ∧ i = j := by
  unfold withoutCommand
  split <;> simp_all

theorem encode_reqInstr (c : Command) : encode (reqInstr c) = OpClass.code .req ++ c.id := by cases c <;> rfl
theorem encode_decInstr (c : Command) : encode (decInstr c) = OpClass.code .dec ++ c.id := by cases c <;> rfl
theorem encode_rszInstr (c : Command) : encode (rszInstr c) = OpClass.code .rsz ++ c.id := by cases c <;> rfl

/-- What the decoder makes of a low byte under a known op class (30_encoding.md R46, R47). -/
def decodeLowByte (b : Byte) : OpClass → Except Reject Instr
  | .req => withCommand b reqInstr
  | .dec => withCommand b decInstr
  | .rsz => withCommand b rszInstr
  | .build => .ok (.build b)
  | .cksum => withoutCommand b .cksum
  | .vlen => withoutCommand b .vlen
  | .vcks => withoutCommand b .vcks
  | .parse => withoutCommand b .parse

theorem decode_of_class {cw : Half} {k : OpClass} (hk : opClassOfCode (opcOf cw) = some k) :
    decode cw = decodeLowByte (cmdOf cw) k := by
  unfold decode
  rw [hk]
  cases k <;> rfl

/-- Settles O2: by the op class the decoder found; the word is that class's code before its low byte. -/
theorem legalWordsHaveOneMeaning : Obligations.LegalWordsHaveOneMeaning := by
  intro cw i h
  cases hk : opClassOfCode (opcOf cw) with
  | none => rw [decode, hk] at h; cases h
  | some k =>
    rw [decode_of_class hk] at h
    rw [← opcOf_append_cmdOf cw, ← code_of_opClassOfCode hk]
    cases k with
    | req => obtain ⟨c, hid, rfl⟩ := withCommand_eq_ok.mp h; rw [encode_reqInstr, hid]
    | dec => obtain ⟨c, hid, rfl⟩ := withCommand_eq_ok.mp h; rw [encode_decInstr, hid]
    | rsz => obtain ⟨c, hid, rfl⟩ := withCommand_eq_ok.mp h; rw [encode_rszInstr, hid]
    | build => cases h; rfl
    | cksum | vlen | vcks | parse => obtain ⟨hzero, rfl⟩ := withoutCommand_eq_ok.mp h; rw [hzero]; rfl

/-- Settles O4: each word is the one the encoder gives its operation. -/
theorem sampleWordsDecode : Obligations.SampleWordsDecode :=
  ⟨decode_encode .reqSoc, decode_encode .reqSetsoc, decode_encode .decCellv, decode_encode .decReset,
    decode_encode .rszSetcmos, decode_encode (.build 0b10101011#8), decode_encode .cksum, decode_encode .vlen,
    decode_encode .vcks, decode_encode .parse⟩

/-! ### Words of no operation -/

theorem notMem_classCodes_iff {b : Byte} :
    b ∉ ([0x01, 0x02, 0x03, 0x10, 0x11, 0x12, 0x13, 0x14] : List Byte) ↔ opClassOfCode b = none := by
  change b ∉ opClassTable.map OpClass.code ↔ _
  simp [opClassOfCode]

theorem notMem_commandIds_iff {b : Byte} :
    b ∉ ([0x90, 0x91, 0x92, 0x93, 0x94, 0x95, 0x96, 0x97, 0x98, 0xD9, 0xDA, 0x21, 0x00] : List Byte)
      ↔ commandOfId b = none := by
  change b ∉ commandTable.map Command.id ↔ _
  simp [commandOfId]

theorem withCommand_ne_ok {b : Byte} {f : Command → Instr} :
    (∀ i, withCommand b f ≠ .ok i) ↔ commandOfId b = none := by
  unfold withCommand
  cases commandOfId b <;> simp

theorem withoutCommand_ne_ok {b : Byte} {i : Instr} : (∀ j, withoutCommand b i ≠ .ok j) ↔ b ≠ 0 := by
  simp [withoutCommand_eq_ok]

/-- The decoder rejects exactly the words R50 (1) to (3) names. -/
theorem decode_ne_ok_iff (cw : Half) : (∀ i, decode cw ≠ .ok i) ↔ IllegalWord cw := by
  rw [IllegalWord, notMem_classCodes_iff, notMem_commandIds_iff]
  cases hk : opClassOfCode (opcOf cw) with
  | none =>
    rw [decode, hk]
    exact ⟨fun _ => .inl rfl, fun _ => nofun⟩
  | some k =>
    rw [decode_of_class hk, ← code_of_opClassOfCode hk]
    cases k with
    | req | dec | rsz => simp [OpClass.code, decodeLowByte, withCommand_ne_ok]
    | build => simp [OpClass.code, decodeLowByte]
    | cksum | vlen | vcks | parse => simp [OpClass.code, decodeLowByte, withoutCommand_ne_ok]

/-- Settles O3: the rejected words by op class (`decode_ne_ok_iff`), BUILD's words by the encoder, and the step by the
run of a word that is no operation. -/
theorem illegalWordsEndWithIllegalOperation : Obligations.IllegalWordsEndWithIllegalOperation := by
  refine ⟨decode_ne_ok_iff, fun cmd => decode_encode (.build cmd), fun s r rest hpres hlen hill => ?_⟩
  rw [step_present hpres, stepPresent_of_le rest hlen]
  cases hd : decode r.cw with
  | ok i => exact absurd hd ((decode_ne_ok_iff r.cw).mpr hill i)
  | error e => exact runOperation_of_reject hd

/-! ### Assembler lines -/

/-- The operands a line names, as `operandsRead` lists them. -/
def LineArgs.operands : LineArgs → List OperandField
  | .none => []
  | .flag _ => [.flag]
  | .percent _ => [.percent]
  | .rx _ => [.rx]
  | .rxCount _ _ => [.rx, .count]
  | .count _ => [.count]
  | .payload _ => [.payload]
  | .rxRequired _ _ => [.rxLength, .required]
  | .rxBase _ _ => [.rx, .base]

/-- An operation's line names exactly the operands the operation reads. -/
theorem lineTakes_iff (i : Instr) (a : LineArgs) : lineTakes i a = true ↔ operandsRead i = a.operands := by
  constructor
  · unfold lineTakes
    split <;> simp_all [LineArgs.operands]
  · intro h
    unfold lineTakes
    rw [h]
    cases a <;> rfl

theorem assemble_eq_some {i : Instr} {a : LineArgs} {r : OperandRecord} :
    assemble i a = some r ↔
      operandsRead i = a.operands ∧ fillArgs { OperandRecord.zero with cw := encode i } a = r := by
  rw [assemble, ← lineTakes_iff]
  split <;> simp_all

theorem fillArgs_cw (r : OperandRecord) (a : LineArgs) : (fillArgs r a).cw = r.cw := by cases a <;> rfl

/-- A line leaves every operand it does not name as it was; VLEN's names the length of `rx`, and so `rx`. -/
theorem agreeOn_fillArgs (r : OperandRecord) {a : LineArgs} {f : OperandField} (h : f ∉ a.operands)
    (hrx : f = .rx → .rxLength ∉ a.operands) (hlen : f ≠ .rxLength) : agreeOn (fillArgs r a) r f := by
  cases f with
  | count | flag | percent | payload | required | base | rx =>
    cases a <;> simp_all [agreeOn, fillArgs, LineArgs.operands]
  | rxLength => exact absurd rfl hlen

/-- Every operation has a line: the operands it reads are those of some form (30_encoding.md R53). -/
theorem exists_line (i : Instr) : ∃ a : LineArgs, operandsRead i = a.operands := by
  cases i with
  | reqSoc | reqCvr | reqTr | reqMos | reqStatus | reqCellv | reqCellt | reqBal | reqErr | reqReset =>
    exact ⟨.none, rfl⟩
  | reqSetdmos | reqSetcmos => exact ⟨.flag false, rfl⟩
  | reqSetsoc => exact ⟨.percent 0, rfl⟩
  | decSoc | decCvr | decTr | decMos | decStatus | decErr
  | decSetdmos | decSetcmos | decSetsoc | decReset | cksum | vcks => exact ⟨.rx [], rfl⟩
  | decCellv | decCellt | decBal => exact ⟨.rxCount [] 0, rfl⟩
  | rszCellv | rszCellt => exact ⟨.count 0, rfl⟩
  | rszSoc | rszCvr | rszTr | rszMos | rszStatus | rszBal | rszErr
  | rszSetdmos | rszSetcmos | rszSetsoc | rszReset => exact ⟨.none, rfl⟩
  | build => exact ⟨.payload zeroPayload, rfl⟩
  | vlen => exact ⟨.rxRequired [] 0, rfl⟩
  | parse => exact ⟨.rxBase [] 0, rfl⟩

/-- Settles O5: a line fills the operands it names into the zero record under the operation's word, and it names exactly
those the operation reads (`assemble_eq_some`). -/
theorem assembledLinesCarryTheirOperation : Obligations.AssembledLinesCarryTheirOperation := by
  refine ⟨fun i a r h => ?_, fun i => ?_⟩
  · obtain ⟨hops, rfl⟩ := assemble_eq_some.mp h
    have hzero {f : OperandField} (hn : f ∉ operandsRead i) (hrx : f = .rx → .rxLength ∉ operandsRead i)
        (hlen : f ≠ .rxLength) :=
      agreeOn_fillArgs { OperandRecord.zero with cw := encode i } (hops ▸ hn) (hops ▸ hrx) hlen
    refine ⟨by rw [fillArgs_cw]; exact decode_encode i, fun hn => hzero hn nofun nofun,
      fun hn => hzero hn nofun nofun, fun hn => hzero hn nofun nofun, fun hn => hzero hn nofun nofun,
      fun hn => hzero hn nofun nofun, fun hn => hzero hn nofun nofun, fun hn hlen => hzero hn (fun _ => hlen) nofun, ?_⟩
    cases a with
    | none => exact hops
    | flag | percent | rx | count | payload => exact ⟨hops, rfl⟩
    | rxCount | rxRequired | rxBase => exact ⟨hops, rfl, rfl⟩
  · obtain ⟨a, ha⟩ := exists_line i
    exact ⟨a, _, assemble_eq_some.mpr ⟨ha, rfl⟩⟩

/-! ### Requests without payload -/

theorem exec_build (cmd : Byte) (s : State) :
    exec (.build cmd) s = .next (s.setResult (.okTx (buildFrame cmd s.op.payload))) := rfl

/-- Settles O41: both are the frame builder on the command's id and a zero payload (41_requests.md R80). -/
theorem plainRequestsEqualBuild : Obligations.PlainRequestsEqualBuild := by
  intro i id hmem s s' hpayload
  refine ⟨buildFrame id zeroPayload, ?_, by rw [exec_build, hpayload]; rfl⟩
  fin_cases hmem <;> rfl

/-! ### Operands a result depends on -/

theorem validateLen_congr {rx rx' : List Byte} (h : rx.length = rx'.length) (n : Nat) :
    validateLen rx' n = validateLen rx n := by
  rw [validateLen, validateLen, h]

/-- An operation's evaluation reads the parameters and the operands listed for it (30_encoding.md R48) only. -/
theorem exec_congr_operands {i : Instr} {s s' : State} {rec : ResultRecord} (hp : s.params = s'.params)
    (hagree : ∀ f ∈ operandsRead i, agreeOn s.op s'.op f) (h : exec i s = .next (s.setResult rec)) :
    exec i s' = .next (s'.setResult rec) := by
  cases i with
  | reqSoc | reqCvr | reqTr | reqMos | reqStatus | reqCellv | reqCellt | reqBal | reqErr | reqReset =>
    cases h; rfl
  | rszSoc | rszCvr | rszTr | rszMos | rszStatus | rszBal | rszErr
  | rszSetdmos | rszSetcmos | rszSetsoc | rszReset => cases h; rfl
  | reqSetdmos | reqSetcmos =>
    have hflag : s.op.flag = s'.op.flag := hagree .flag (by decide)
    cases h; rw [hflag]; rfl
  | reqSetsoc =>
    have hpercent : s.op.percent = s'.op.percent := hagree .percent (by decide)
    cases h; rw [hp, hpercent]; rfl
  | rszCellv | rszCellt =>
    have hcount : s.op.count = s'.op.count := hagree .count (by decide)
    cases h; rw [hcount]; rfl
  | decSoc | decCvr | decTr | decMos | decStatus | decErr =>
    have hrx : s.op.rx = s'.op.rx := hagree .rx (by decide)
    exact conclude_congr (by rw [hp, hrx]) h
  | decSetdmos | decSetcmos | decSetsoc | decReset | cksum | vcks =>
    have hrx : s.op.rx = s'.op.rx := hagree .rx (by decide)
    exact conclude_congr (by rw [hrx]) h
  | decCellv | decCellt =>
    have hrx : s.op.rx = s'.op.rx := hagree .rx (by decide)
    have hcount : s.op.count = s'.op.count := hagree .count (by decide)
    exact conclude_congr (by rw [hp, hrx, hcount]) h
  | decBal =>
    have hrx : s.op.rx = s'.op.rx := hagree .rx (by decide)
    have hcount : s.op.count = s'.op.count := hagree .count (by decide)
    exact conclude_congr (by rw [hrx, hcount]) h
  | build cmd =>
    have hpayload : s.op.payload = s'.op.payload := hagree .payload (List.mem_singleton.mpr rfl)
    cases h; rw [hpayload]; rfl
  | vlen =>
    have hlen : s.op.rx.length = s'.op.rx.length := hagree .rxLength (by decide)
    have hrequired : s.op.required = s'.op.required := hagree .required (by decide)
    exact conclude_congr (by rw [hrequired, validateLen_congr hlen]) h
  | parse =>
    have hrx : s.op.rx = s'.op.rx := hagree .rx (by decide)
    have hbase : s.op.base = s'.op.base := hagree .base (by decide)
    exact conclude_congr (by rw [hrx, hbase]) h

/-- Settles O18: the operation completes (`exec_completes`), and with the same listed operands it writes the same record
(`exec_congr_operands`). -/
theorem unlistedOperandsAreIgnored : Obligations.UnlistedOperandsAreIgnored := by
  intro i s s' hp hagree
  obtain ⟨rec, hrec⟩ := exec_completes i s
  exact ⟨rec, hrec, exec_congr_operands hp hagree hrec⟩

/-! ### Reply bytes a layout depends on -/

section Layout

variable {rx rx' : List Byte} (p : Params) (hl : 13 ≤ rx.length) (hl' : 13 ≤ rx'.length)
include hl hl'

theorem extractSoc_congr (h : ∀ k ∈ replyOffsets .decSoc, byteAt rx k = byteAt rx' k) :
    extractSoc p rx' = extractSoc p rx := by
  rw [extractSoc_eq p hl, extractSoc_eq p hl']
  simp (disch := decide) only [field16, h]

theorem extractCvr_congr (h : ∀ k ∈ replyOffsets .decCvr, byteAt rx k = byteAt rx' k) :
    extractCvr p rx' = extractCvr p rx := by
  rw [extractCvr_eq p hl, extractCvr_eq p hl']
  simp (disch := decide) only [field16, h]

theorem extractTr_congr (h : ∀ k ∈ replyOffsets .decTr, byteAt rx k = byteAt rx' k) :
    extractTr p rx' = extractTr p rx := by
  rw [extractTr_eq p hl, extractTr_eq p hl']
  simp (disch := decide) only [h]

theorem extractMos_congr (h : ∀ k ∈ replyOffsets .decMos, byteAt rx k = byteAt rx' k) :
    extractMos p rx' = extractMos p rx := by
  rw [extractMos_eq p hl, extractMos_eq p hl']
  simp (disch := decide) only [field32, h]

theorem extractStatus_congr (h : ∀ k ∈ replyOffsets .decStatus, byteAt rx k = byteAt rx' k) :
    extractStatus p rx' = extractStatus p rx := by
  rw [extractStatus_eq p hl, extractStatus_eq p hl']
  simp (disch := decide) only [field16, h]

theorem extractErr_congr (h : ∀ k ∈ replyOffsets .decErr, byteAt rx k = byteAt rx' k) :
    extractErr p rx' = extractErr p rx := by
  have hbyte (e : ErrorEntry) : byteAt rx (4 + e.byteIndex.val) = byteAt rx' (4 + e.byteIndex.val) :=
    h _ (List.mem_range'_1.mpr (by have := e.byteIndex.isLt; omega) : _ ∈ List.range' 4 7)
  rw [extractErr_eq p hl, extractErr_eq p hl']
  simp only [hbyte]

theorem extractBal_congr {count : Nat} (hc : count ≤ 48)
    (h : ∀ k ∈ replyOffsets .decBal, byteAt rx k = byteAt rx' k) : extractBal rx' count = extractBal rx count := by
  have hbit : ∀ k ∈ List.range count,
      bitOf (byteAt rx' (4 + k / 8)) (k % 8) = bitOf (byteAt rx (4 + k / 8)) (k % 8) := fun k hk => by
    have hk := List.mem_range.mp hk
    rw [h _ (List.mem_range'_1.mpr (by omega) : _ ∈ List.range' 4 6)]
  rw [extractBal_eq hl hc, extractBal_eq hl' hc, List.map_congr_left hbit]

end Layout

/-- A single-frame decoder on two valid replies writes the same record if its layout gives the same (42_decoders.md R95). -/
theorem decodeSingle_record_congr {s s' : State} {x x' : Eval Decoded} {rec : ResultRecord} (hv : ValidReply s.op.rx)
    (hv' : ValidReply s'.op.rx) (hx : x' = x)
    (h : conclude s .okValue (decodeSingle s.op.rx x) = .next (s.setResult rec)) :
    conclude s' .okValue (decodeSingle s'.op.rx x') = .next (s'.setResult rec) :=
  conclude_congr (by rw [decodeSingle_valid hv, decodeSingle_valid hv', hx]) h

theorem execDecBal_congr {s s' : State} {rec : ResultRecord} (hcount : s.op.count = s'.op.count)
    (hv : ValidReply s.op.rx) (hv' : ValidReply s'.op.rx)
    (hb : ∀ k ∈ replyOffsets .decBal, byteAt s.op.rx k = byteAt s'.op.rx k)
    (h : execDecBal s = .next (s.setResult rec)) : execDecBal s' = .next (s'.setResult rec) := by
  refine conclude_congr ?_ h
  rw [← hcount]
  split
  · rfl
  · rw [decodeSingle_valid hv, decodeSingle_valid hv',
      extractBal_congr (by have := hv.1; omega) (by have := hv'.1; omega) (Nat.le_of_not_lt ‹_›) hb]

/-- Settles O26: on two valid replies the decoders differ by their layouts at most, which read the bytes of
`replyOffsets` alone. -/
theorem singleDecodersReadOnlyTheirLayout : Obligations.SingleDecodersReadOnlyTheirLayout := by
  intro i s s' hi hp hcount hv hv' hb
  obtain ⟨rec, hrec⟩ := exec_completes i s
  refine ⟨rec, hrec, ?_⟩
  have hl : 13 ≤ s.op.rx.length := by have := hv.1; omega
  have hl' : 13 ≤ s'.op.rx.length := by have := hv'.1; omega
  fin_cases hi
  · exact decodeSingle_record_congr hv hv' (hp ▸ extractSoc_congr s.params hl hl' hb) hrec
  · exact decodeSingle_record_congr hv hv' (hp ▸ extractCvr_congr s.params hl hl' hb) hrec
  · exact decodeSingle_record_congr hv hv' (hp ▸ extractTr_congr s.params hl hl' hb) hrec
  · exact decodeSingle_record_congr hv hv' (hp ▸ extractMos_congr s.params hl hl' hb) hrec
  · exact decodeSingle_record_congr hv hv' (hp ▸ extractStatus_congr s.params hl hl' hb) hrec
  · exact execDecBal_congr hcount hv hv' hb hrec
  · exact decodeSingle_record_congr hv hv' (hp ▸ extractErr_congr s.params hl hl' hb) hrec
  all_goals exact decodeSingle_record_congr hv hv' rfl hrec

end Sys2Proof.Machine
end

section
/-! PROOFS. Frames and checksums (40_frame_checksum.md): the sum of the bytes, the window check on built, valid and changed
windows, and the operations BUILD, CKSUM, VLEN, VCKS, PARSE and RSZ. -/

namespace Sys2Proof.Machine

/-! ### The sum of the bytes -/

theorem foldl_add_eq_sum8 (s : List Byte) (a : Byte) : s.foldl (fun x y => x + y) a = a + sum8 s := by
  induction s generalizing a with
  | nil => simp
  | cons b s ih => rw [List.foldl_cons, ih, sum8_cons, BitVec.add_assoc]

/-- Changing one byte changes the sum by the same difference. -/
theorem sum8_set {s : List Byte} {k : Nat} (b : Byte) (h : k < s.length) :
    sum8 (s.set k b) + byteAt s k = sum8 s + b := by
  induction s generalizing k with
  | nil => cases h
  | cons a s ih =>
    cases k with
    | zero =>
      rw [List.set_cons_zero, sum8_cons, sum8_cons, show byteAt (a :: s) 0 = a from rfl]
      ring
    | succ k =>
      have := ih (Nat.lt_of_succ_lt_succ h)
      rw [List.set_cons_succ, sum8_cons, sum8_cons, BitVec.add_assoc, BitVec.add_assoc, ← this]
      rfl

/-! ### Whole frames -/

/-- The window check on a frame of its own (40_frame_checksum.md R58). -/
theorem checkWindow_frame (f : Frame) (i : Byte) :
    checkWindow f.toList 0 i =
      if sum8 (f.toList.take 12) = f[12] then .ok () else raise (.checksum i (sum8 (f.toList.take 12)) f[12]) := by
  have hbyte : byteAt f.toList (0 + 12) = f[12] := by simp [byteAt_eq]
  rw [checkWindow_eq i (by simp), hbyte]
  rfl

/-- A frame is its first twelve bytes and its checksum byte. -/
theorem frame_toList (f : Frame) : f.toList = f.toList.take 12 ++ [f[12]] := by
  conv_lhs => rw [← List.take_append_drop 12 f.toList, List.drop_eq_getElem_cons (by simp)]
  simp

/-- Settles O27: the sum as defined and as a fold (`foldl_add_eq_sum8`), in built frames (`buildFrame_sound`) and in the
check of any frame (`checkWindow_frame`). -/
theorem checksumIsSumModulo256 : Obligations.ChecksumIsSumModulo256 := by
  refine ⟨fun s => ⟨sum8_toNat s, ?_⟩, sum8_nil, fun cmd p => ?_, fun f i => ?_⟩
  · rw [foldl_add_eq_sum8, zero_add]
  · obtain ⟨-, -, -, hsum⟩ := buildFrame_sound cmd p
    exact hsum
  · rw [checkWindow_frame]
    split
    · simp [*]
    · simp [raise, *, eq_comm]

/-! ### Changed windows -/

/-- Changing one of the twelve bytes summed changes the window's checksum by the same difference. -/
theorem windowSum_set {rx : List Byte} {base k : Nat} (b : Byte) (h : base + 13 ≤ rx.length) (hk : k < 12) :
    windowSum (rx.set (base + k) b) base + byteAt rx (base + k) = windowSum rx base + b := by
  have hset : ((rx.set (base + k) b).drop base).take 12 = ((rx.drop base).take 12).set k b := by
    rw [List.drop_set, if_neg (by omega), Nat.add_sub_cancel_left, List.take_set]
  have hbyte : byteAt ((rx.drop base).take 12) k = byteAt rx (base + k) := by
    rw [byteAt_eq (by simp; omega), byteAt_eq (by omega), List.getElem_take, List.getElem_drop]
  rw [windowSum, hset, ← hbyte]
  exact sum8_set b (by simp; omega)

/-- Changing the checksum byte leaves the window's checksum. -/
theorem windowSum_set_last (rx : List Byte) (base : Nat) (b : Byte) :
    windowSum (rx.set (base + 12) b) base = windowSum rx base := by
  rw [windowSum, List.drop_set, if_neg (by omega), Nat.add_sub_cancel_left, List.take_set,
    List.set_eq_of_length_le (by simp)]
  rfl

/-- One changed byte of a valid window leaves it with a wrong checksum (40_frame_checksum.md R79). -/
theorem windowSum_set_ne {rx : List Byte} {base k : Nat} {b : Byte} (h : ValidWindow rx base) (hk : k < 13)
    (hb : b ≠ byteAt rx (base + k)) :
    windowSum (rx.set (base + k) b) base ≠ byteAt (rx.set (base + k) b) (base + 12) := by
  obtain ⟨hlen, hsum⟩ := h
  rw [byteAt_set (by omega)]
  rcases Nat.lt_or_eq_of_le (Nat.le_of_lt_succ hk) with hk | rfl
  · rw [if_neg (by omega), ← hsum]
    intro heq
    have hset := windowSum_set b hlen hk
    rw [heq] at hset
    exact hb (add_left_cancel hset).symm
  · rw [if_pos rfl, windowSum_set_last, hsum]
    exact hb.symm

/-- Two changes that cancel leave a valid window valid (40_frame_checksum.md R79). -/
theorem ValidWindow.set_set {rx : List Byte} {base j k : Nat} (d : Byte) (h : ValidWindow rx base) (hj : j < 12)
    (hk : k < 12) (hjk : j ≠ k) :
    ValidWindow ((rx.set (base + j) (byteAt rx (base + j) + d)).set (base + k) (byteAt rx (base + k) - d)) base := by
  obtain ⟨hlen, hsum⟩ := h
  set rx' := rx.set (base + j) (byteAt rx (base + j) + d) with hrx'
  have hlen' : base + 13 ≤ rx'.length := by simpa [hrx'] using hlen
  have hother {m : Nat} (hm : m ≠ j) : byteAt rx' (base + m) = byteAt rx (base + m) := by
    rw [hrx', byteAt_set (by omega), if_neg (by omega)]
  have hfirst := windowSum_set (byteAt rx (base + j) + d) hlen hj
  have hsecond := windowSum_set (byteAt rx (base + k) - d) hlen' hk
  rw [hother hjk.symm] at hsecond
  refine ⟨by simpa using hlen', ?_⟩
  rw [byteAt_set (by omega), if_neg (by omega), hother (by omega), ← hsum]
  linear_combination hfirst + hsecond

/-- Settles O30: a changed byte changes the sum or the byte it is compared with (`windowSum_set_ne`), and cancelling
changes leave both (`ValidWindow.set_set`). -/
theorem oneCorruptByteIsCaught : Obligations.OneCorruptByteIsCaught := by
  intro rx base i h
  refine ⟨fun k b hk hb => ?_, fun j k d hj hk hjk => checkWindow_of_valid i (h.set_set d hj hk hjk)⟩
  have hne := windowSum_set_ne h hk hb
  exact ⟨_, _, hne, checkWindow_of_bad i (by simpa using h.1) hne⟩

/-! ### BUILD and the frames of every operation -/

/-- Settles O28: BUILD answers `buildFrame`, whose bytes are known (`buildFrame_toList`). -/
theorem buildWritesTheFrame : Obligations.BuildWritesTheFrame :=
  fun cmd s => ⟨rfl, _, exec_build cmd s, buildFrame_toList cmd s.op.payload⟩

theorem EndRecord.frameSound {p : Params} {i : Instr} {r : ResultRecord} {f : Frame} (h : EndRecord p i r)
    (hf : r.tx = some f) : frameSound f := by
  rcases h with h | ⟨e, -, rfl⟩
  · cases h with
    | tx _ hs => cases hf; exact hs
    | done | size | sum | fields | value => cases hf
  · cases hf

/-- Everything VCKS does on a buffer that is not empty (40_frame_checksum.md R63). -/
theorem exec_vcks_concat {s : State} {body : List Byte} {last : Byte} (h : s.op.rx = body ++ [last]) :
    exec .vcks s = .next (s.setResult
      (if sum8 body = last then .done else .failed (.checksum 0 (sum8 body) last))) := by
  simp only [exec, execVcks]
  rw [h, if_neg (by simp), validateCks_concat]
  split
  · rfl
  · rfl

/-- Settles O29: a produced frame carries its own checksum (`exec_next`), which the window check and VCKS compare. -/
theorem producedFramesPassTheCheck : Obligations.ProducedFramesPassTheCheck := by
  intro i s t f h hf
  obtain ⟨r, rfl, hr⟩ := exec_next h
  obtain ⟨-, -, -, hsum⟩ := hr.frameSound hf
  refine ⟨hsum.symm, ?_, fun u hu => ?_⟩
  · rw [checkWindow_frame, if_pos hsum.symm]
  · rw [exec_vcks_concat (hu.trans (frame_toList f)), if_pos hsum.symm]

/-! ### Buffers that are too short -/

/-- An operation that validates the length first ends there on a short buffer (40_frame_checksum.md R56). -/
theorem conclude_short {α : Type} {s : State} {mk : α → ResultRecord} {n : Nat} {f : Unit → Eval α}
    (h : s.op.rx.length < n) :
    conclude s mk (validateLen s.op.rx n >>= f) = .next (s.setResult (.failed (.replySize n s.op.rx.length))) := by
  rw [validateLen_of_lt h, eval_raise_bind, conclude_raise]

theorem exec_vlen_of_lt {s : State} (h : s.op.rx.length < s.op.required.toNat) :
    exec .vlen s = .next (s.setResult (.failed (.replySize s.op.required.toNat s.op.rx.length))) := by
  rw [exec, execVlen, validateLen_of_lt h, conclude_raise]

theorem exec_vlen_of_le {s : State} (h : s.op.required.toNat ≤ s.op.rx.length) :
    exec .vlen s = .next (s.setResult .done) := by
  rw [exec, execVlen, validateLen_of_le h, conclude_ok]

/-- DEC.BAL within its count limit is a single-frame decoder like the others (42_decoders.md R106). -/
theorem exec_decBal_of_le {s : State} (h : s.op.count.toNat ≤ 48) :
    exec .decBal s = conclude s .okValue (decodeSingle s.op.rx (extractBal s.op.rx s.op.count.toNat)) :=
  congrArg (conclude s .okValue) (if_neg (Nat.not_lt.mpr h))

/-- Settles O25: every operation that requires a length validates it first (`conclude_short`), DEC.BAL after its count. -/
theorem shortBuffersAreRejectedFirst : Obligations.ShortBuffersAreRejectedFirst := by
  intro i s n hn hl hbal
  cases i with
  | reqSoc | reqCvr | reqTr | reqMos | reqStatus | reqCellv | reqCellt | reqBal | reqErr
  | reqSetdmos | reqSetcmos | reqSetsoc | reqReset | build => cases hn
  | rszSoc | rszCvr | rszTr | rszMos | rszStatus | rszCellv | rszCellt | rszBal | rszErr
  | rszSetdmos | rszSetcmos | rszSetsoc | rszReset => cases hn
  | cksum | vcks => cases hn
  | decSoc | decCvr | decTr | decMos | decStatus | decErr | decSetdmos | decSetcmos | decSetsoc | decReset
  | decCellv | decCellt | parse => cases hn; exact conclude_short hl
  | decBal => cases hn; rw [exec_decBal_of_le (hbal rfl)]; exact conclude_short hl
  | vlen => cases hn; exact exec_vlen_of_lt hl

/-! ### CKSUM, VLEN, VCKS and PARSE -/

/-- Settles O31: all bytes but the last are the first `length - 1`. -/
theorem cksumSumsAllButTheLastByte : Obligations.CksumSumsAllButTheLastByte := by
  refine ⟨rfl, fun s => ⟨fun h => ?_, fun h => ?_⟩⟩
  · rw [exec, execCksum, if_pos h, conclude_raise]
  · rw [exec, execCksum, if_neg h, conclude_ok, List.dropLast_eq_take]

/-- Settles O32: both sides of the length validator. -/
theorem vlenComparesTheLength : Obligations.VlenComparesTheLength :=
  ⟨rfl, fun _ => ⟨exec_vlen_of_lt, exec_vlen_of_le⟩⟩

/-- Settles O33: by the last byte against the sum of the others (`exec_vcks_concat`). -/
theorem vcksChecksTheWholeBuffer : Obligations.VcksChecksTheWholeBuffer := by
  refine ⟨rfl, fun s => ⟨fun h => ?_, fun body last h => ⟨fun hs => ?_, fun hs => ?_⟩⟩⟩
  · rw [exec, execVcks, if_pos (List.length_eq_zero_iff.mpr h), conclude_raise]
  · rw [exec_vcks_concat h, if_pos hs]
  · rw [exec_vcks_concat h, if_neg hs]

/-- Settles O34: by the length, and on a whole window the parser's fields (`parseFrame_eq`). -/
theorem parseSplitsTheWindow : Obligations.ParseSplitsTheWindow := by
  refine ⟨rfl, fun s => ⟨fun h => ?_, fun h => ?_⟩⟩
  · rw [exec_parse, if_pos h]
  · rw [exec_parse, if_neg (Nat.not_lt.mpr h), parseFrame_eq h]
    rfl

/-! ### Reply sizes -/

/-- Settles O36: the frame count is the only one within those bounds (`replyLength_counted`). -/
theorem countedReplySizes : Obligations.CountedReplySizes := by
  refine ⟨rfl, rfl, fun s n => ⟨fun h1 h2 => ?_, fun h1 h2 => ?_⟩⟩
  · rw [← replyLength_counted.1 h1 h2]
    exact exec_rszInstr .cellv s
  · rw [← replyLength_counted.2 h1 h2]
    exact exec_rszInstr .cellt s

/-- A reply that is not counted is one frame (40_frame_checksum.md R65 to R69, R72 to R77). -/
theorem replyLength_uncounted {c : Command} (count : Byte) (hv : c ≠ .cellv) (ht : c ≠ .cellt) :
    replyLength c count = 13 := by
  cases c with
  | cellv => exact absurd rfl hv
  | cellt => exact absurd rfl ht
  | soc | cvr | tr | mos | status | bal | err | setdmos | setcmos | setsoc | reset => rfl

/-- Settles O35: the list holds the reply sizes of the commands that are not counted, each with its word. -/
theorem fixedReplySizesAreThirteen : Obligations.FixedReplySizesAreThirteen := by
  intro i cw hmem
  obtain ⟨c, hc, hrow⟩ : ∃ c ∈ commandTable.filter (fun c => c ≠ .cellv ∧ c ≠ .cellt),
      (rszInstr c, encode (rszInstr c)) = (i, cw) := List.mem_map.mp hmem
  obtain ⟨rfl, rfl⟩ := Prod.mk.inj hrow
  obtain ⟨hv, ht⟩ := of_decide_eq_true (List.mem_filter.mp hc).2
  refine ⟨rfl, fun s => ?_⟩
  rw [exec_rszInstr, replyLength_uncounted _ hv ht]

end Sys2Proof.Machine
end

section
/-! PROOFS. Request encoders (41_requests.md): the frames of the thirteen requests, and the percent's encoding against the
form that clamps after rounding. -/

namespace Sys2Proof.Machine

/-! ### The frames -/

/-- A built frame byte by byte; `0xED` is the sum of the constant header bytes (40_frame_checksum.md R60). -/
theorem buildFrame_eq (cmd p0 p1 p2 p3 p4 p5 p6 p7 : Byte) :
    buildFrame cmd #v[p0, p1, p2, p3, p4, p5, p6, p7] =
      #v[0xA5, 0x40, cmd, 0x08, p0, p1, p2, p3, p4, p5, p6, p7,
        0xED + cmd + p0 + p1 + p2 + p3 + p4 + p5 + p6 + p7] := by
  have hsum : sum8 [0xA5, 0x40, cmd, 0x08, p0, p1, p2, p3, p4, p5, p6, p7] =
      0xED + cmd + p0 + p1 + p2 + p3 + p4 + p5 + p6 + p7 := by
    simp only [sum8_cons, sum8_nil]
    rw [show (0xED : Byte) = 0xA5 + 0x40 + 0x08 from rfl]
    ring
  rw [← hsum]
  exact Vector.toList_inj.mp (buildFrame_toList _ _)

/-- The commands whose request carries no payload (41_requests.md R82 to R90, R94). -/
def plainRequest (c : Command) : Bool := c ≠ .setdmos ∧ c ≠ .setcmos ∧ c ≠ .setsoc

theorem exec_plainRequest {c : Command} (h : plainRequest c = true) (s : State) :
    exec (reqInstr c) s = .next (s.setResult (.okTx (buildFrame c.id zeroPayload))) := by
  cases c with
  | setdmos | setcmos | setsoc => cases h
  | soc | cvr | tr | mos | status | cellv | cellt | bal | err | reset => rfl

/-- Settles O37: the list holds the commands without payload, each with its word and its built frame. -/
theorem plainRequestFrames : Obligations.PlainRequestFrames := by
  intro i cw f hmem
  obtain ⟨c, hc, hrow⟩ : ∃ c ∈ commandTable.filter plainRequest,
      (reqInstr c, encode (reqInstr c), buildFrame c.id zeroPayload) = (i, cw, f) := List.mem_map.mp hmem
  cases hrow
  exact ⟨rfl, exec_plainRequest (List.mem_filter.mp hc).2⟩

theorem exec_reqSetdmos (s : State) :
    exec .reqSetdmos s = .next (s.setResult (.okTx (buildFrame 0xD9 (flagPayload s.op.flag)))) := rfl

theorem exec_reqSetcmos (s : State) :
    exec .reqSetcmos s = .next (s.setResult (.okTx (buildFrame 0xDA (flagPayload s.op.flag)))) := rfl

/-- Settles O38: both are the frame builder on the flag's payload, which stands written out once the flag is known. -/
theorem setMosfetRequestFrames : Obligations.SetMosfetRequestFrames := by
  refine ⟨rfl, rfl, fun s => ⟨fun h => ?_, fun h => ?_⟩⟩
  all_goals
    rw [exec_reqSetdmos, exec_reqSetcmos, h]
    exact ⟨rfl, rfl⟩

/-! ### Rounding the percent -/

/-- The integer within a half of `a / b`, a tie upwards (41_requests.md R81). -/
theorem roundHalfAway_bounds (a : Nat) {b : Nat} (hb : 0 < b) :
    2 * roundHalfAway a b * b ≤ 2 * a + b ∧ 2 * a + b < 2 * (roundHalfAway a b + 1) * b := by
  rw [Nat.mul_right_comm, Nat.mul_right_comm 2 (_ + 1), Nat.mul_comm (2 * b), Nat.mul_comm (2 * b)]
  exact ⟨Nat.div_mul_le_self _ _, Nat.lt_mul_of_div_lt (Nat.lt_succ_self _) (by omega)⟩

theorem roundHalfAway_mul (k : Nat) {b : Nat} (hb : 0 < b) : roundHalfAway (k * b) b = k := by
  rw [roundHalfAway, show 2 * (k * b) + b = b + 2 * b * k by ring, Nat.add_mul_div_left _ _ (by omega),
    Nat.div_eq_of_lt (by omega), Nat.zero_add]

theorem roundHalfAway_mono {a a' : Nat} (b : Nat) (h : a ≤ a') : roundHalfAway a b ≤ roundHalfAway a' b :=
  Nat.div_le_div_right (by omega)

theorem roundHalfEven_mul (k : Nat) {b : Nat} (hb : 0 < b) : roundHalfEven (k * b) b = k :=
  Nat.le_antisymm (roundHalfEven_le hb (Nat.le_refl _)) (le_roundHalfEven hb (Nat.le_refl _))

/-- A value `c * 2^j` units of a binade the format has, with `c` inside the fraction field, is rounded to itself. -/
theorem unitsOf_roundMag_exact (f : FloatFmt) {num den c j : Nat} (hd : 0 < den)
    (hval : num * f.one = c * 2 ^ j * den) (hc : c < 2 * 2 ^ f.fracBits) (hj : j + 3 ≤ 2 ^ f.expBits) :
    unitsOf f (roundMag f num den) = c * 2 ^ j := by
  obtain ⟨e, r, hR, hround, hr, he, -, hbinade⟩ := roundMag_form f num hd
  have hej : e ≤ j := by
    rcases hbinade with rfl | hlow
    · exact Nat.zero_le _
    · have hlt : 2 ^ f.fracBits * (den * 2 ^ e) < 2 ^ f.fracBits * (den * 2 ^ (j + 1)) := by
        calc 2 ^ f.fracBits * (den * 2 ^ e) ≤ c * 2 ^ j * den := hval ▸ hlow
          _ < 2 * 2 ^ f.fracBits * 2 ^ j * den := by gcongr
          _ = 2 ^ f.fracBits * (den * 2 ^ (j + 1)) := by rw [Nat.pow_succ]; ring
      have hpow := Nat.lt_of_mul_lt_mul_left (Nat.lt_of_mul_lt_mul_left hlt)
      exact Nat.le_of_lt_succ ((Nat.pow_lt_pow_iff_right Nat.one_lt_two).mp hpow)
  have hmultiple : c * 2 ^ (j - e) * 2 ^ e = c * 2 ^ j := by
    rw [Nat.mul_assoc, ← Nat.pow_add, Nat.sub_add_cancel hej]
  have hrc : r = c * 2 ^ (j - e) := by
    rw [hround, hval, ← hmultiple, show c * 2 ^ (j - e) * 2 ^ e * den = c * 2 ^ (j - e) * (den * 2 ^ e) by ring]
    exact roundHalfEven_mul _ (Nat.mul_pos hd (Nat.two_pow_pos _))
  have hfinite : e * 2 ^ f.fracBits + r ≤ f.infMag := by
    calc e * 2 ^ f.fracBits + r ≤ (j + 2) * 2 ^ f.fracBits := by
          have := Nat.mul_le_mul_right (2 ^ f.fracBits) hej
          rw [Nat.add_mul]; omega
      _ ≤ f.infMag := Nat.mul_le_mul_right _ (by omega)
  rw [hR, min_eq_left hfinite, unitsOf_grid f hr he, hrc, hmultiple]

/-- Ten times `q` units, in FLOAT_FMT, then rounded to an integer (41_requests.md R81). -/
def roundedTenfold (f : FloatFmt) (q : Nat) : Nat :=
  roundHalfAway (unitsOf f (roundMag f (q * 10) f.one)) f.one

theorem roundedTenfold_mono (f : FloatFmt) {q q' : Nat} (h : q ≤ q') : roundedTenfold f q ≤ roundedTenfold f q' :=
  roundHalfAway_mono _ ((unitsOf_strictMono f).monotone (roundMag_mono f (one_pos f) (Nat.mul_le_mul_right 10 h)))

/-- Where ten times `q` is a whole number small enough for the fraction field, no rounding takes place. -/
theorem roundedTenfold_exact (f : FloatFmt) {q k : Nat} (hq : q * 10 = k * f.one) (hk : k < 2 * 2 ^ f.fracBits) :
    roundedTenfold f q = k := by
  have hfits : f.unitExp + 3 ≤ 2 ^ f.expBits := by cases f <;> decide
  have hexact : unitsOf f (roundMag f (k * f.one) f.one) = k * f.one :=
    unitsOf_roundMag_exact f (one_pos f) rfl hk hfits
  rw [roundedTenfold, hq, hexact]
  exact roundHalfAway_mul k (one_pos f)

theorem roundedTenfold_zero (f : FloatFmt) : roundedTenfold f 0 = 0 :=
  roundedTenfold_exact f (by omega) (Nat.mul_pos Nat.two_pos (Nat.two_pow_pos _))

/-- The upper bound of the clamp is encoded exactly. -/
theorem roundedTenfold_hundred (f : FloatFmt) : roundedTenfold f (100 * f.one) = 1000 :=
  roundedTenfold_exact f (by ring) (by cases f <;> decide)

/-- Clamping before the rounding is clamping after it. -/
theorem roundedTenfold_min (f : FloatFmt) (u : Nat) :
    roundedTenfold f (min u (100 * f.one)) = min (roundedTenfold f u) 1000 := by
  rw [← roundedTenfold_hundred f]
  exact Monotone.map_min fun _ _ => roundedTenfold_mono f

/-! ### The encoding -/

section Cases

variable {f : FloatFmt} {p : FloatBits}

theorem socEncode_of_nan (h : floatVal f p = .nan) : socEncode f p = 0 := by
  rw [socEncode, h]; rfl

theorem socEncode_of_inf (h : floatVal f p = .inf false) : socEncode f p = 1000 := by
  rw [socEncode, h]; exact roundedTenfold_hundred f

theorem socEncode_of_neg_inf (h : floatVal f p = .inf true) : socEncode f p = 0 := by
  rw [socEncode, h]; exact roundedTenfold_zero f

theorem socEncode_of_neg {u : Nat} (h : floatVal f p = .finite true u) : socEncode f p = 0 := by
  rw [socEncode, h]; exact roundedTenfold_zero f

theorem socEncode_of_nonneg {u : Nat} (h : floatVal f p = .finite false u) :
    socEncode f p = min (roundedTenfold f u) 1000 := by
  rw [socEncode, h]; exact roundedTenfold_min f u

end Cases

theorem socEncode_le (f : FloatFmt) (p : FloatBits) : socEncode f p ≤ 1000 := by
  cases h : floatVal f p with
  | nan => rw [socEncode_of_nan h]; omega
  | inf neg =>
    cases neg with
    | true => rw [socEncode_of_neg_inf h]; omega
    | false => rw [socEncode_of_inf h]
  | finite neg u =>
    cases neg with
    | true => rw [socEncode_of_neg h]; omega
    | false => rw [socEncode_of_nonneg h]; exact Nat.min_le_right _ _

/-- Settles O40: rounding keeps the order and encodes the clamp's bound exactly, so it commutes with the clamp
(`roundedTenfold_min`). -/
theorem socEncodingEqualsItsClampedForm : Obligations.SocEncodingEqualsItsClampedForm :=
  ⟨fun f p => ⟨socEncode_le f p, socEncode_of_nan, socEncode_of_inf, socEncode_of_neg_inf,
    fun _ => socEncode_of_neg, fun _ => socEncode_of_nonneg⟩, fun a _ => roundHalfAway_bounds a⟩

/-! ### The percent in its frame -/

/-- Two big-endian bytes hold a number below `2^16`. -/
theorem bigEndianByte_two {e : Nat} (h : e < 2 ^ 16) :
    (bigEndianByte 2 e 0).toNat * 256 + (bigEndianByte 2 e 1).toNat = e := by
  simp only [bigEndianByte, BitVec.toNat_ofNat, Nat.shiftRight_eq_div_pow]
  omega

theorem exec_reqSetsoc (s : State) :
    exec .reqSetsoc s = .next (s.setResult (.okTx
      (buildFrame 0x21 (socPayload (socEncode s.params.floatFmt s.op.percent))))) := rfl

/-- Settles O39: the code fits two bytes (`socEncode_le`), and the checksum is the header's and theirs (`buildFrame_eq`). -/
theorem setSocRequestFrame : Obligations.SetSocRequestFrame := by
  refine ⟨rfl, fun s => ?_⟩
  have hle := socEncode_le s.params.floatFmt s.op.percent
  refine ⟨_, _, bigEndianByte_two (by omega), ?_⟩
  rw [exec_reqSetsoc, socPayload, buildFrame_eq]
  rfl

end Sys2Proof.Machine
end

section
/-! PROOFS. Single-frame decoders (42_decoders.md): the field functions against their rules, and each decoder's whole
result. -/

namespace Sys2Proof.Machine

/-! ### Fields -/

/-- A temperature less 40, kept to 8 bits, as a signed number (42_decoders.md R98). -/
theorem toInt_temperature (n : Byte) :
    (BitVec.ofInt 8 ((n.toNat : Int) - 40)).toInt =
      if n.toNat ≤ 167 then (n.toNat : Int) - 40 else (n.toNat : Int) - 40 - 256 := by
  have hn := n.isLt
  rw [BitVec.toInt_ofInt, Int.bmod_def]
  split <;> split <;> omega

/-- Settles O43: the byte less 40 fits `i8` up to 167 and is reduced by 256 beyond (`toInt_temperature`). -/
theorem temperatureNarrowing : Obligations.TemperatureNarrowing := by
  refine fun narrow n offset => ⟨fun h => ⟨_, tempOf_of_le h, ?_⟩, ?_, ?_⟩
  · rw [toInt_temperature, if_pos h]
  · rintro h rfl
    exact ⟨_, tempOf_wrap n offset, by rw [toInt_temperature, if_neg (by omega)]⟩
  · rintro h rfl
    exact tempOf_fault h

/-- Settles O44: the parameter decides only on bytes of 2 or more (`byteBool_eq`), and a bit is a binary digit of its byte
(`bitOf_eq`). -/
theorem booleansOfBytesAndBits : Obligations.BooleansOfBytesAndBits := by
  refine ⟨fun other offset => ⟨rfl, rfl, fun n hn => ⟨?_, ?_⟩⟩, fun b p => ?_⟩
  · rintro rfl
    have hne : n ≠ 0 := by rintro rfl; simp at hn
    rw [byteBool_eq, if_neg (by simp), decide_eq_true hne]
  · rintro rfl
    rw [byteBool_eq, if_pos ⟨rfl, hn⟩]
  · rw [bitOf_eq, BitVec.getLsbD, Nat.testBit_eq_decide_div_mod_eq]

/-- The current is negative exactly for raw values below 30000 (42_decoders.md R97). -/
theorem currentOf_eq (f : FloatFmt) (n : Nat) :
    currentOf f n = toF f (decide (n < 30000)) ((n : Int) - 30000).natAbs 10 := by
  have hneg : ((n : Int) - 30000 < 0) ↔ n < 30000 := by omega
  rw [currentOf, toFInt, decide_eq_decide.mpr hneg]

/-- The io-state names the byte's bits from the least significant on (42_decoders.md R105). -/
theorem ioStateOf_eq (b : Byte) :
    ioStateOf b = { di1 := b.getLsbD 0, di2 := b.getLsbD 1, di3 := b.getLsbD 2, di4 := b.getLsbD 3,
                    do1 := b.getLsbD 4, do2 := b.getLsbD 5, do3 := b.getLsbD 6, do4 := b.getLsbD 7 } := by
  simp only [ioStateOf, bitOf_eq]

/-- A 16-bit field as a word is its two bytes side by side (20_memory.md R30). -/
theorem ofNat_field16 (rx : List Byte) (a : Nat) : BitVec.ofNat 16 (field16 rx a) = byteAt rx a ++ byteAt rx (a + 1) := by
  apply BitVec.eq_of_toNat_eq
  rw [BitVec.toNat_ofNat, Nat.mod_eq_of_lt (field16_lt rx a), BitVec.toNat_append,
    ← Nat.shiftLeft_add_eq_or_of_lt (byteAt rx (a + 1)).isLt, Nat.shiftLeft_eq]
  rfl

/-! ### The three steps of R95 -/

/-- A single-frame decoder does what R95 says once its fields give the record `good` on a valid reply. -/
theorem decodesFrame_of_extract {i : Instr} {s : State} {x : Eval Decoded} {good : ResultRecord}
    (hexec : exec i s = conclude s .okValue (decodeSingle s.op.rx x))
    (hgood : 13 ≤ s.op.rx.length → conclude s .okValue x = .next (s.setResult good)) : decodesFrame i s good := by
  refine ⟨fun h => ?_, fun h hsum => ?_, fun h => ?_⟩
  · rw [hexec, decodeSingle_short h, conclude_raise]
  · rw [hexec, decodeSingle_bad h hsum, conclude_raise]
  · rw [hexec, decodeSingle_valid h, hgood h.1]

/-- Of two fields that may raise an error, the first that does decides (42_decoders.md R100). -/
theorem conclude_two_checks {α β γ : Type} {s : State} {mk : γ → ResultRecord} {x : Eval α} {y : Eval β} {p q : Prop}
    [Decidable p] [Decidable q] {e e' : Info} {a : α} {b : β} {g : α → β → γ}
    (hx : x = if p then raise e else .ok a) (hy : y = if q then raise e' else .ok b) :
    conclude s mk (do let u ← x; let v ← y; return g u v) =
      .next (s.setResult (if p then .failed e else if q then .failed e' else mk (g a b))) := by
  by_cases hp : p
  · rw [hx, if_pos hp, if_pos hp, eval_raise_bind, conclude_raise]
  · rw [hx, if_neg hp, if_neg hp, eval_ok_bind]
    by_cases hq : q
    · rw [hy, if_pos hq, if_pos hq, eval_raise_bind, conclude_raise]
    · rw [hy, if_neg hq, if_neg hq, eval_ok_bind, eval_pure, conclude_ok]

/-! ### The decoders -/

/-- Settles O45: by the layout (`extractSoc_eq`), the current's sign as in `currentOf_eq`. -/
theorem decSocValue : Obligations.DecSocValue := by
  refine ⟨rfl, fun s => decodesFrame_of_extract rfl fun hl => ?_⟩
  rw [extractSoc_eq _ hl, conclude_ok, currentOf_eq]
  rfl

/-- Settles O46: by the layout (`extractCvr_eq`). -/
theorem decCvrValue : Obligations.DecCvrValue := by
  refine ⟨rfl, fun s => decodesFrame_of_extract rfl fun hl => ?_⟩
  rw [extractCvr_eq _ hl, conclude_ok]
  rfl

/-- Settles O47: the layout's two temperatures (`tempOf_eq`) in offset order. -/
theorem decTrValue : Obligations.DecTrValue := by
  refine ⟨rfl, fun s => decodesFrame_of_extract rfl fun hl => ?_⟩
  rw [extractTr_eq _ hl]
  exact conclude_two_checks (tempOf_eq ..) (tempOf_eq ..)

/-- Settles O48: by the mode byte first (`modeOf_raise`), then the two booleans (`byteBool_eq`) in offset order. -/
theorem decMosValue : Obligations.DecMosValue := by
  refine ⟨rfl, fun s mode => ⟨fun hm => decodesFrame_of_extract rfl fun hl => ?_,
    fun hm => decodesFrame_of_extract rfl fun hl => ?_⟩⟩
  · rw [extractMos_eq _ hl, modeOf_raise hm, eval_raise_bind, conclude_raise]
  · have hmode : modeOf (byteAt s.op.rx 4) = .ok mode := by
      obtain ⟨h, rfl⟩ | ⟨h, rfl⟩ | ⟨h, rfl⟩ := hm <;> exact congrArg modeOf h
    rw [extractMos_eq _ hl, hmode, eval_ok_bind]
    exact conclude_two_checks (byteBool_eq ..) (byteBool_eq ..)

/-- Settles O49: the layout's two booleans (`byteBool_eq`) in offset order; the io-state's bits and the cycles' bytes by
`ioStateOf_eq` and `ofNat_field16`. -/
theorem decStatusValue : Obligations.DecStatusValue := by
  refine ⟨rfl, fun s => decodesFrame_of_extract rfl fun hl => ?_⟩
  rw [extractStatus_eq _ hl, ioStateOf_eq, ofNat_field16]
  exact conclude_two_checks (byteBool_eq ..) (byteBool_eq ..)

/-- Settles O50: the count is checked before the buffer, and up to 48 cells every bit stands within the frame
(`extractBal_eq`). -/
theorem decBalValue : Obligations.DecBalValue := by
  refine ⟨rfl, fun s => ⟨fun hc => ?_, fun hc => decodesFrame_of_extract (exec_decBal_of_le hc) fun hl => ?_⟩⟩
  · exact congrArg (conclude s .okValue) (if_pos hc)
  · rw [extractBal_eq hl hc, conclude_ok]
    simp only [bitOf_eq]

/-- Settles O51: each of the four decodes its fields to `Ack` without reading any (`decodeAck`). -/
theorem acknowledgementDecoders : Obligations.AcknowledgementDecoders := by
  intro i cw hmem
  obtain ⟨c, hc, hrow⟩ : ∃ c ∈ [Command.setdmos, .setcmos, .setsoc, .reset],
      (decInstr c, encode (decInstr c)) = (i, cw) := List.mem_map.mp hmem
  obtain ⟨rfl, rfl⟩ := Prod.mk.inj hrow
  refine ⟨rfl, fun s => ?_⟩
  have hexec : exec (decInstr c) s = decodeAck s := by
    fin_cases hc <;> rfl
  exact decodesFrame_of_extract hexec fun _ => conclude_ok ..

end Sys2Proof.Machine
end

section
/-! PROOFS. Multi-frame decoders (43_multiframe.md): the values of the lanes, the first frame that is wrong, exchanged
frames, and the length a decoder requires. -/

namespace Sys2Proof.Machine

/-! ### Lanes -/

/-- The lanes of a frame lie within its window, so those of the first `n` frames lie within `13 * n` bytes. -/
theorem laneAddress_add_width_le {cap width k n : Nat} (hw : width * cap ≤ 8) (hk : k < cap * n) :
    laneAddress cap width k + width ≤ 13 * n := by
  have hcap : 0 < cap := Nat.pos_of_mul_pos_right (Nat.zero_lt_of_lt hk)
  have hframe : k / cap < n := Nat.div_lt_of_lt_mul hk
  have hlane : width * (k % cap + 1) ≤ width * cap := Nat.mul_le_mul_left width (Nat.mod_lt k hcap)
  rw [Nat.mul_succ] at hlane
  unfold laneAddress
  omega

/-- The address of a temperature as R118 writes it. -/
theorem laneAddress_temperature (k : Nat) : laneAddress 7 1 k = 13 * (k / 7) + 5 + k % 7 := by
  rw [laneAddress, Nat.one_mul]

/-- The voltage of the lane at `a`, millivolts (43_multiframe.md R117). -/
def laneVoltage (p : Params) (rx : List Byte) (a : Nat) : FloatBits := toF p.floatFmt false (field16 rx a) 1000

/-- The temperature of the lane at `a`, where its byte has one (43_multiframe.md R118). -/
def laneTemperature (rx : List Byte) (a : Nat) : I8 := BitVec.ofInt 8 (((byteAt rx a).toNat : Int) - 40)

/-- A voltage lane inside the buffer (43_multiframe.md R117). -/
theorem cellVoltageAt_of_le (p : Params) {rx : List Byte} {a : Nat} (h : a + 2 ≤ rx.length) :
    cellVoltageAt p rx a = .ok (laneVoltage p rx a) := by
  rw [cellVoltageAt, be16_of_le h, eval_ok_bind]
  rfl

/-- A temperature lane inside the buffer whose byte has a value (43_multiframe.md R118). -/
theorem cellTemperatureAt_of_allowed {p : Params} {rx : List Byte} {a : Nat} (h : a < rx.length)
    (hv : p.tempNarrow = .wrap ∨ (byteAt rx a).toNat ≤ 167) :
    cellTemperatureAt p rx a = .ok (laneTemperature rx a) := by
  rw [cellTemperatureAt, readByte_of_lt h, eval_ok_bind]
  rcases hv with hv | hv
  · exact hv ▸ tempOf_wrap _ _
  · exact tempOf_of_le hv

/-- A temperature lane inside the buffer whose byte faults (43_multiframe.md R118). -/
theorem cellTemperatureAt_of_fault {p : Params} {rx : List Byte} {a : Nat} (h : a < rx.length)
    (hp : p.tempNarrow = .fault) (hv : 168 ≤ (byteAt rx a).toNat) :
    cellTemperatureAt p rx a = raise (.fieldOutOfRange (BitVec.ofNat 8 (a % 13)) (byteAt rx a)) := by
  rw [cellTemperatureAt, readByte_of_lt h, eval_ok_bind, hp, tempOf_fault hv]

/-! ### Values in frame order -/

/-- Settles O54: a valid reply is reassembled from its lanes (`reassemble_ok`), each of which holds a voltage. -/
theorem decCellvValues : Obligations.DecCellvValues := by
  refine ⟨rfl, fun s n h1 h2 hv => ?_⟩
  obtain rfl := nframes_unique (by decide) h1 h2
  exact congrArg (conclude s _) (reassemble_ok 2 _ (laneVoltage s.params s.op.rx) (by decide) hv fun k hk =>
    cellVoltageAt_of_le _ ((laneAddress_add_width_le (by decide) (hk.trans_le h1)).trans hv.1))

/-- Settles O55: a valid reply is reassembled from its lanes (`reassemble_ok`); with the frames up to it good, the first lane
that faults ends the decode (`takeFrames_error`). -/
theorem decCelltValues : Obligations.DecCelltValues := by
  refine ⟨rfl, fun s n h1 h2 => ?_⟩
  obtain rfl := nframes_unique (by decide) h1 h2
  simp only [← laneAddress_temperature]
  have hin (hl : 13 * nframes s.op.count.toNat 7 ≤ s.op.rx.length) (k) (hk : k < s.op.count.toNat) :
      laneAddress 7 1 k < s.op.rx.length :=
    (laneAddress_add_width_le (width := 1) (by decide) (hk.trans_le h1)).trans hl
  refine ⟨fun hv hallowed => ?_, fun hl hp k hk hgood hfault hbefore => ?_⟩
  · exact congrArg (conclude s _) (reassemble_ok 1 _ (laneTemperature s.op.rx) (by decide) hv fun k hk =>
      cellTemperatureAt_of_allowed (hin hv.1 k hk) (hallowed.imp_right fun h => h k hk))
  · have hraise := cellTemperatureAt_of_fault (hin hl k hk) hp hfault
    have hoffset : laneAddress 7 1 k % 13 = 5 + k % 7 := by rw [laneAddress_temperature]; omega
    rw [hoffset] at hraise
    have hend := takeFrames_error _ (laneTemperature s.op.rx) 1 (by decide) hk h1 hl hgood
      (fun j hj => cellTemperatureAt_of_allowed (hin hl j (hj.trans hk)) (.inr (hbefore j hj))) hraise
    exact congrArg (conclude s _) ((reassemble_long 1 _ hl).trans hend)

/-- Settles O58: with count 0 every buffer is a valid reply of no frames, and no value is asked for. -/
theorem countZeroGivesNothing : Obligations.CountZeroGivesNothing := by
  intro s hzero
  have hcount : s.op.count.toNat = 0 := by rw [hzero]; rfl
  have hvalid : ValidFrames s.op.rx 0 := ⟨Nat.zero_le _, fun i h1 h0 => by omega⟩
  have hv := decCellvValues.2 s 0 (by omega) (by omega) hvalid
  have ht := (decCelltValues.2 s 0 (by omega) (by omega)).1 hvalid (.inr fun k hk => by omega)
  rw [hcount] at hv ht
  exact ⟨hv, ht⟩

/-! ### The first wrong frame -/

/-- With the frames before frame `i` good and their lanes converting, frame `i` decides if it is wrong, its sequence byte
before its checksum (43_multiframe.md R113). -/
theorem reassemble_wrong_frame {α : Type} {s : State} {mk : List α → ResultRecord} {conv : Nat → Eval α} (g : Nat → α)
    {count cap width n i : Nat} (h1 : count ≤ cap * n) (h2 : cap * n < count + cap) (hl : 13 * n ≤ s.op.rx.length)
    (hi : 1 ≤ i) (hin : i ≤ n) (hg : ∀ j, 1 ≤ j → j < i → GoodFrame s.op.rx j)
    (hc : ∀ k, k < cap * (i - 1) → conv (laneAddress cap width k) = .ok (g (laneAddress cap width k))) :
    let base := 13 * (i - 1)
    let outcome := conclude s mk (reassemble s.op.rx count cap width conv)
    ((byteAt s.op.rx (base + 4)).toNat ≠ i →
      outcome = .next (s.setResult (.failed (.frameNo (BitVec.ofNat 8 i) (byteAt s.op.rx (base + 4))))))
    ∧ ((byteAt s.op.rx (base + 4)).toNat = i → windowSum s.op.rx base ≠ byteAt s.op.rx (base + 12) →
      outcome = .next (s.setResult (.failed
        (.checksum (BitVec.ofNat 8 i) (windowSum s.op.rx base) (byteAt s.op.rx (base + 12)))))) := by
  obtain rfl := nframes_unique (by omega) h1 h2
  obtain ⟨out, hout⟩ := takeFrames_upto conv g count cap width _ i hi hin hl hg fun k hk => hc k (by omega)
  rw [reassemble_long width conv hl, hout]
  refine ⟨fun hs => ?_, fun hs hw => ?_⟩
  · rw [takeFrames_badSeq _ _ _ _ _ _ hi (by omega) hs, conclude_raise]
  · rw [takeFrames_badSum _ _ _ _ _ _ hi (by omega) hs hw, conclude_raise]

/-- Settles O56: each decoder is the reassembler on its lanes, which convert before frame `i` (`reassemble_wrong_frame`). -/
theorem firstWrongFrameDecides : Obligations.FirstWrongFrameDecides := by
  intro d cap s n i hmem h1 h2 hl hi hin hg hallowed
  have hend {width k : Nat} (hw : width * cap ≤ 8) (hk : k < cap * (i - 1)) :
      laneAddress cap width k + width ≤ s.op.rx.length := by
    have := laneAddress_add_width_le hw hk
    omega
  have hcases : d = .decCellv ∧ cap = 3 ∨ d = .decCellt ∧ cap = 7 := by simpa using hmem
  obtain ⟨rfl, rfl⟩ | ⟨rfl, rfl⟩ := hcases
  · exact reassemble_wrong_frame (laneVoltage s.params s.op.rx) h1 h2 hl hi hin hg fun k hk =>
      cellVoltageAt_of_le _ (hend (by decide) hk)
  · have hvalues := hallowed rfl
    simp only [← laneAddress_temperature] at hvalues
    exact reassemble_wrong_frame (laneTemperature s.op.rx) h1 h2 hl hi hin hg fun k hk =>
      cellTemperatureAt_of_allowed (hend (width := 1) (by decide) hk) (hvalues.imp_right fun h => h k hk)

/-! ### Exchanged frames -/

/-- A frame is good in every buffer that holds it at its place. -/
theorem GoodFrame.congr {rx rx' : List Byte} {i : Nat} (h : GoodFrame rx i) (hl : 13 * (i - 1) + 13 ≤ rx.length)
    (hl' : 13 * (i - 1) + 13 ≤ rx'.length)
    (hb : ∀ k, k < 13 → byteAt rx' (13 * (i - 1) + k) = byteAt rx (13 * (i - 1) + k)) : GoodFrame rx' i := by
  obtain ⟨hseq, hsum⟩ := h
  refine ⟨by rw [hb 4 (by decide), hseq], ?_⟩
  have hfirst : byteAt rx' (13 * (i - 1)) = byteAt rx (13 * (i - 1)) := hb 0 (by decide)
  rw [windowSum_eq hl] at hsum
  rw [windowSum_eq hl', hb 12 (by decide), ← hsum]
  simp (disch := decide) only [hfirst, hb]

/-- Settles O57: before frame `i` the two buffers agree, and there the exchanged one holds sequence byte `j`
(`firstWrongFrameDecides`). -/
theorem exchangedFramesAreRejected : Obligations.ExchangedFramesAreRejected := by
  intro d cap s rx n i j hmem h1 h2 ⟨hl, hgood⟩ hi hij hjn hlen hswap hrest hallowed
  have hbefore (a) (ha : a < 13 * (i - 1)) : byteAt s.op.rx a = byteAt rx a := hrest a fun k _ => by omega
  have hg (m) (hm1 : 1 ≤ m) (hmi : m < i) : GoodFrame s.op.rx m :=
    (hgood m hm1 (by omega)).congr (by omega) (by omega) fun k hk => hbefore _ (by omega)
  have hvalues : d = .decCellt → s.params.tempNarrow = .wrap
      ∨ ∀ k, k < 7 * (i - 1) → (byteAt s.op.rx (13 * (k / 7) + 5 + k % 7)).toNat ≤ 167 :=
    fun hd => (hallowed hd).imp_right fun h k hk => by
      rw [hbefore _ (by omega)]
      exact h k hk
  have hseq : (byteAt s.op.rx (13 * (i - 1) + 4)).toNat = j := by
    rw [(hswap 4 (by decide)).1]
    exact (hgood j (by omega) hjn).1
  have hbyte : byteAt s.op.rx (13 * (i - 1) + 4) = BitVec.ofNat 8 j := by
    rw [← hseq, BitVec.ofNat_toNat, BitVec.setWidth_eq]
  have h := (firstWrongFrameDecides d cap s n i hmem h1 h2 (by omega) hi (by omega) hg hvalues).1 (by omega)
  rwa [hbyte] at h

/-! ### The length a decoder requires -/

/-- An error other than a reply that is too short. -/
def Info.NotReplySize (e : Info) : Prop := e.status ≠ .replySizeError

/-- An evaluation that raises no ReplySizeError ends without that status. -/
theorem conclude_status_ne {α : Type} {s t : State} {mk : α → ResultRecord} {x : Eval α}
    (h : conclude s mk x = .next t) (hx : RaisesOnly Info.NotReplySize x) (hmk : ∀ v, (mk v).status = some .ok) :
    t.result.status ≠ some .replySizeError := by
  rcases conclude_next h with ⟨v, -, rfl⟩ | ⟨e, he, rfl⟩
  · rw [setResult_result, hmk v]
    exact nofun
  · exact fun hs => hx e he (Option.some.inj hs)

/-- A single-frame decoder on a whole frame does not end with ReplySizeError if its fields raise none (42_decoders.md
R95). -/
theorem decodeSingle_status_ne {s t : State} {x : Eval Decoded}
    (h : conclude s .okValue (decodeSingle s.op.rx x) = .next t) (hl : 13 ≤ s.op.rx.length)
    (hx : RaisesOnly Info.NotReplySize x) : t.result.status ≠ some .replySizeError :=
  conclude_status_ne h (.of_decodeSingle (fun hlt => absurd hlt (Nat.not_lt.mpr hl)) (fun _ _ _ => nofun) fun _ => hx)
    fun _ => rfl

/-- A multi-frame decoder on all its frames does not end with ReplySizeError if its lanes raise none (43_multiframe.md
R113). -/
theorem reassemble_status_ne {α : Type} {s t : State} {cap width : Nat} {conv : Nat → Eval α} {mk : List α → Decoded}
    (h : conclude s (fun vs => .okValue (mk vs)) (reassemble s.op.rx s.op.count.toNat cap width conv) = .next t)
    (hcap : 3 ≤ cap) (hl : 13 * nframes s.op.count.toNat cap ≤ s.op.rx.length)
    (hc : ∀ m j, j < cap → 13 * (m + 1) ≤ s.op.rx.length → RaisesOnly Info.NotReplySize (conv (13 * m + 5 + width * j))) :
    t.result.status ≠ some .replySizeError :=
  conclude_status_ne h (.of_reassemble hc (fun hlt => absurd hlt (Nat.not_lt.mpr hl)) (fun _ _ _ _ => nofun)
    (fun _ _ _ => nofun) ((nframes_le s.op.count hcap).trans (by decide))) fun _ => rfl

theorem execDecBal_status_ne {s t : State} (h : execDecBal s = .next t) (hl : 13 ≤ s.op.rx.length) :
    t.result.status ≠ some .replySizeError := by
  by_cases hc : s.op.count.toNat ≤ 48
  · exact decodeSingle_status_ne ((exec_decBal_of_le hc).symm.trans h) hl (extractBal_eq hl hc ▸ .ok _)
  · obtain ⟨hcount, -⟩ := decBalValue.2 s
    cases (hcount (Nat.lt_of_not_le hc)).symm.trans h
    exact nofun

/-- A decoder whose buffer holds its whole reply does not end with ReplySizeError. -/
theorem exec_decInstr_status_ne {c : Command} {s t : State} (h : exec (decInstr c) s = .next t)
    (hl : replyLength c s.op.count ≤ s.op.rx.length) : t.result.status ≠ some .replySizeError := by
  have hfield (offset byte : Byte) (_ : (Info.fieldOutOfRange offset byte).sound) :
      (Info.fieldOutOfRange offset byte).NotReplySize := nofun
  cases c with
  | cellv => exact reassemble_status_ne h (by decide) hl fun _ _ => .of_cellVoltageAt _
  | cellt => exact reassemble_status_ne h (by decide) hl fun _ _ => .of_cellTemperatureAt hfield _
  | soc => exact decodeSingle_status_ne h hl (extractSoc_eq s.params hl ▸ .ok _)
  | cvr => exact decodeSingle_status_ne h hl (extractCvr_eq s.params hl ▸ .ok _)
  | err => exact decodeSingle_status_ne h hl (extractErr_eq s.params hl ▸ .ok _)
  | tr => exact decodeSingle_status_ne h hl (.of_extractTr hfield _ hl)
  | mos => exact decodeSingle_status_ne h hl (.of_extractMos hfield _ hl)
  | status => exact decodeSingle_status_ne h hl (.of_extractStatus hfield _ hl)
  | bal => exact execDecBal_status_ne h hl
  | setdmos | setcmos | setsoc | reset => exact decodeSingle_status_ne h hl (.ok _)

/-- A decoder that the host presents has its whole reply in the buffer (70_reset_and_hazards.md R141). -/
theorem HostDuty.replyLength_le {h : HostState} {r : OperandRecord} {c : Command} (hd : HostDuty h r)
    (hc : decode r.cw = .ok (decInstr c)) : replyLength c r.count ≤ r.rx.length := by
  obtain ⟨-, -, hreply⟩ := hd _ hc
  obtain ⟨-, n, hn, hreceived, htake⟩ := hreply c rfl
  obtain rfl := Option.some.inj ((requiredLength_decInstr c r).symm.trans hn)
  have hlen := congrArg List.length htake
  rw [List.length_take, List.length_take] at hlen
  omega

/-- Settles O59: RSZ answers the length the decoder validates first (`shortBuffersAreRejectedFirst`); with that many bytes,
which the host's duty gives (`HostDuty.replyLength_le`), no later check raises ReplySizeError. -/
theorem replySizeIsWhatTheDecoderRequires : Obligations.ReplySizeIsWhatTheDecoderRequires := by
  refine ⟨fun z d s hmem => ?_, fun s t r rest c hm hdec h => ?_⟩
  · obtain ⟨c, hbal, rfl, rfl⟩ : ∃ c, decInstr c ≠ .decBal ∧ z = rszInstr c ∧ d = decInstr c := by
      have hcases : z = .rszCellv ∧ d = .decCellv ∨ z = .rszCellt ∧ d = .decCellt := by simpa using hmem
      obtain ⟨rfl, rfl⟩ | ⟨rfl, rfl⟩ := hcases
      · exact ⟨.cellv, nofun, rfl, rfl⟩
      · exact ⟨.cellt, nofun, rfl, rfl⟩
    refine ⟨_, exec_rszInstr c s, fun hl => ?_, fun hl => ?_⟩
    · exact shortBuffersAreRejectedFirst _ s _ (requiredLength_decInstr c s.op) hl fun h => absurd h hbal
    · obtain ⟨rec, hrec⟩ := exec_completes (decInstr c) s
      exact ⟨_, hrec, exec_decInstr_status_ne hrec hl⟩
  · obtain ⟨hduty, hrun⟩ := step_host_present hm h
    rw [runOperation_of_decode (s := s.latch r rest) hdec, observed_eq_next] at hrun
    obtain ⟨u, hu, rfl⟩ := hrun
    rw [hostObserve_result]
    exact exec_decInstr_status_ne (s := s.latch r rest) hu (hduty.replyLength_le hdec)

end Sys2Proof.Machine
end

section
/-! PROOFS. Error codes (44_error_code.md): the names DEC.ERR gives, their order, and their number. -/

namespace Sys2Proof.Machine

/-- Settles O52: the layout reads every entry's bit in table order (`extractErr_eq`). -/
theorem decErrNamesSetBits : Obligations.DecErrNamesSetBits := by
  refine ⟨rfl, fun s => decodesFrame_of_extract rfl fun hl => ?_⟩
  rw [extractErr_eq _ hl, conclude_ok]
  simp only [bitOf_eq]

/-- Whenever DEC.ERR gives names, they are those of the entries whose bit is set, in table order (44_error_code.md
R122). -/
theorem exec_decErr_names {s t : State} {names : List String} (h : exec .decErr s = .next t)
    (hv : t.result.value = some (.errorCode names)) :
    names = (s.params.errorTable.filter fun e => (byteAt s.op.rx (4 + e.byteIndex.val)).getLsbD e.bit.val).map
      fun e => e.name := by
  obtain ⟨v, hdec, hval⟩ := conclude_value h hv
  obtain ⟨hlen, hext⟩ := decodeSingle_eq_ok hdec
  cases hval
  rw [extractErr_eq _ hlen] at hext
  cases hext
  simp only [bitOf_eq]

/-- Two entries that both pass a filter stay in order in the filtered list. -/
theorem pair_sublist_filter {α : Type} {q : α → Bool} {a b : α} {l : List α} (h : [a, b].Sublist l)
    (ha : q a = true) (hb : q b = true) : [a, b].Sublist (l.filter q) := by
  have hf := h.filter q
  rwa [List.filter_cons_of_pos ha, List.filter_cons_of_pos hb] at hf

/-- A well-formed table has 44 entries (44_error_code.md R121). -/
theorem errorTable_length_of_wellFormed {p : Params} (h : p.wellFormed = true) : p.errorTable.length = 44 := by
  simp only [Params.wellFormed, errorTableWellFormed, Bool.and_eq_true, beq_iff_eq] at h
  obtain ⟨⟨hlen, -⟩, -⟩ := h
  exact hlen

/-- Settles O53: the names are the set entries' in table order (`exec_decErr_names`); filtering keeps the order of two
entries (`pair_sublist_filter`), and a well-formed table's names are 44 and distinct (`errorCode_sound`). -/
theorem errorNamesKeepTableOrder : Obligations.ErrorNamesKeepTableOrder := by
  intro s t names h hv
  have hnames := exec_decErr_names h hv
  refine ⟨fun a b hab ha hb => ?_, fun hp => ?_⟩
  · rw [hnames]
    exact (pair_sublist_filter hab ha hb).map _
  · obtain ⟨hsub, hnodup⟩ : (Decoded.errorCode names).sound s.params := hnames ▸ errorCode_sound _ hp
    refine ⟨hnodup, hsub.length_le.trans ?_⟩
    rw [List.length_map, errorTable_length_of_wellFormed hp]

end Sys2Proof.Machine
end

section
/-! PROOFS. Exceptions (60_exceptions.md): the status codes, which statuses each operation ends with, what a failed
operation writes, and the idle machine. -/

namespace Sys2Proof.Machine

/-- Settles O22: the codes as listed, and the spec faults status by status. -/
theorem statusCodesAsListed : Obligations.StatusCodesAsListed := by
  refine ⟨rfl, rfl, rfl, rfl, rfl, rfl, rfl, rfl, fun c => ?_⟩
  cases c with
  | ok | replySizeError | checksumError | frameNoError => exact ⟨nofun, by decide⟩
  | illegalOperation | countOutOfRange | fieldOutOfRange | emptyBuffer => exact ⟨fun _ => by decide, fun _ => rfl⟩

/-- Settles O8: the step's case of no moves. -/
theorem idleMachineStaysAsItIs : Obligations.IdleMachineStaysAsItIs :=
  fun _ => step_of_nil

/-! ### What a failed operation writes -/

theorem SuccessRecord.status_eq {p : Params} {i : Instr} {r : ResultRecord} (h : SuccessRecord p i r) :
    r.status = some .ok := by
  cases h with
  | done | tx | size | sum | fields | value => rfl

/-- A run that answers a next state without status OK has written the record of an error, and nothing else
(60_exceptions.md R128). -/
theorem runOperation_failed {s t : State} (h : runOperation s = .next t) (hne : t.result.status ≠ some .ok) :
    ∃ e, t = s.setResult (.failed e) := by
  rcases runOperation_next h with ⟨i, r, -, hr | ⟨e, -, rfl⟩, rfl⟩ | ⟨-, rfl⟩
  · exact absurd hr.status_eq hne
  · exact ⟨e, hostObserve_failed s e⟩
  · exact ⟨_, rfl⟩

/-- Settles O20: a presented record is latched and run (`step_present`), and a failed run writes an error's record alone
(`runOperation_failed`). -/
theorem failureWritesOnlyStatusAndInfo : Obligations.FailureWritesOnlyStatusAndInfo := by
  intro s t r rest hpres h hne
  rw [step_present hpres] at h
  obtain ⟨-, hrun⟩ := stepPresent_next h
  exact runOperation_failed hrun hne

/-! ### Which statuses each operation ends with -/

/-- An error whose status is listed for operation `i` (60_exceptions.md R124). -/
def Info.ListedFor (i : Instr) (e : Info) : Prop := e.status ∈ mayRaise i

/-- The result port holds status OK or one listed for operation `i`. -/
def State.EndsAsListed (i : Instr) (t : State) : Prop :=
  ∃ c, t.result.status = some c ∧ (c = .ok ∨ c ∈ mayRaise i)

/-- An operation whose evaluation raises only listed errors ends as listed. -/
theorem conclude_listed {α : Type} {i : Instr} {s t : State} {mk : α → ResultRecord} {x : Eval α}
    (h : conclude s mk x = .next t) (hx : RaisesOnly (Info.ListedFor i) x) (hmk : ∀ v, (mk v).status = some .ok) :
    t.EndsAsListed i := by
  rcases conclude_next h with ⟨v, -, rfl⟩ | ⟨e, he, rfl⟩
  · exact ⟨.ok, hmk v, .inl rfl⟩
  · exact ⟨e.status, rfl, .inr (hx e he)⟩

/-- The request encoders and BUILD raise nothing (41_requests.md R80). -/
theorem buildFrame_listed {i : Instr} {s t : State} {cmd : Byte} {payload : Payload}
    (h : conclude s .okTx (.ok (buildFrame cmd payload)) = .next t) : t.EndsAsListed i :=
  conclude_listed h (.ok _) fun _ => rfl

/-- The reply sizes raise nothing (40_frame_checksum.md R65 to R77). -/
theorem replySize_listed {i : Instr} {s t : State} {c : Command} (h : replySize s c = .next t) : t.EndsAsListed i :=
  conclude_listed h (.ok _) fun _ => rfl

/-- A single-frame decoder, which lists the errors of the length and of the checksum, from its layout (42_decoders.md
R95). -/
theorem decodeSingle_listed {i : Instr} {s t : State} {x : Eval Decoded}
    (h : conclude s .okValue (decodeSingle s.op.rx x) = .next t)
    (hi : .replySizeError ∈ mayRaise i ∧ .checksumError ∈ mayRaise i)
    (hx : 13 ≤ s.op.rx.length → RaisesOnly (Info.ListedFor i) x) : t.EndsAsListed i :=
  conclude_listed h (.of_decodeSingle (fun _ => hi.1) (fun _ _ _ => hi.2) hx) fun _ => rfl

/-- A multi-frame decoder, which lists the errors of the length, the checksum and the sequence, from its lanes
(43_multiframe.md R113). -/
theorem reassemble_listed {α : Type} {i : Instr} {s t : State} {cap width : Nat} {conv : Nat → Eval α}
    {mk : List α → Decoded}
    (h : conclude s (fun vs => .okValue (mk vs)) (reassemble s.op.rx s.op.count.toNat cap width conv) = .next t)
    (hcap : 3 ≤ cap)
    (hi : .replySizeError ∈ mayRaise i ∧ .checksumError ∈ mayRaise i ∧ .frameNoError ∈ mayRaise i)
    (hconv : ∀ m j, j < cap → 13 * (m + 1) ≤ s.op.rx.length →
      RaisesOnly (Info.ListedFor i) (conv (13 * m + 5 + width * j))) :
    t.EndsAsListed i := by
  obtain ⟨hsize, hsum, hseq⟩ := hi
  exact conclude_listed h (.of_reassemble hconv (fun _ => hsize) (fun _ _ _ _ => hsum) (fun _ _ _ => hseq)
    ((nframes_le s.op.count hcap).trans (by decide))) fun _ => rfl

theorem execDecBal_listed {s t : State} (h : execDecBal s = .next t) : t.EndsAsListed .decBal := by
  by_cases hc : s.op.count.toNat ≤ 48
  · exact decodeSingle_listed ((exec_decBal_of_le hc).symm.trans h) (by decide) fun hl => extractBal_eq hl hc ▸ .ok _
  · obtain ⟨hcount, -⟩ := decBalValue.2 s
    cases (hcount (Nat.lt_of_not_le hc)).symm.trans h
    exact ⟨.countOutOfRange, rfl, .inr (by decide)⟩

theorem execCksum_listed {s t : State} (h : execCksum s = .next t) : t.EndsAsListed .cksum := by
  have hempty : .emptyBuffer ∈ mayRaise .cksum := by decide
  refine conclude_listed h ?_ fun _ => rfl
  split
  · exact .of_raise hempty
  · exact .ok _

theorem execVcks_listed {s t : State} (h : execVcks s = .next t) : t.EndsAsListed .vcks := by
  have hlisted : .emptyBuffer ∈ mayRaise .vcks ∧ .checksumError ∈ mayRaise .vcks := by decide
  refine conclude_listed h ?_ fun _ => rfl
  split
  · exact .of_raise hlisted.1
  · exact .of_validateCks fun _ _ _ => hlisted.2

theorem execVlen_listed {s t : State} (h : execVlen s = .next t) : t.EndsAsListed .vlen := by
  have hsize : .replySizeError ∈ mayRaise .vlen := by decide
  exact conclude_listed h (.of_validateLen fun _ => hsize) fun _ => rfl

theorem execParse_listed {s t : State} (h : execParse s = .next t) : t.EndsAsListed .parse := by
  have hsize : .replySizeError ∈ mayRaise .parse := by decide
  refine conclude_listed h (.bind (.of_validateLen fun _ => hsize) fun _ hu => ?_) fun _ => rfl
  rw [parseFrame_eq (validateLen_eq_ok hu)]
  exact .ok _

/-- Settles O21: each operation's checks raise the errors of its rule, and its fields or lanes at most `FieldOutOfRange`,
where that is listed. -/
theorem operationsRaiseOnlyTheirStatuses : Obligations.OperationsRaiseOnlyTheirStatuses := by
  intro i s t h
  have hfield {j : Instr} (hj : .fieldOutOfRange ∈ mayRaise j) (offset byte : Byte)
      (_ : (Info.fieldOutOfRange offset byte).sound) : (Info.fieldOutOfRange offset byte).ListedFor j := hj
  cases i with
  | reqSoc | reqCvr | reqTr | reqMos | reqStatus | reqCellv | reqCellt | reqBal | reqErr
  | reqSetdmos | reqSetcmos | reqSetsoc | reqReset | build => exact buildFrame_listed h
  | rszSoc | rszCvr | rszTr | rszMos | rszStatus | rszCellv | rszCellt | rszBal | rszErr
  | rszSetdmos | rszSetcmos | rszSetsoc | rszReset => exact replySize_listed h
  | decSetdmos | decSetcmos | decSetsoc | decReset => exact decodeSingle_listed h (by decide) fun _ => .ok _
  | decSoc => exact decodeSingle_listed h (by decide) fun hl => extractSoc_eq s.params hl ▸ .ok _
  | decCvr => exact decodeSingle_listed h (by decide) fun hl => extractCvr_eq s.params hl ▸ .ok _
  | decErr => exact decodeSingle_listed h (by decide) fun hl => extractErr_eq s.params hl ▸ .ok _
  | decTr => exact decodeSingle_listed h (by decide) (.of_extractTr (hfield (by decide)) _)
  | decMos => exact decodeSingle_listed h (by decide) (.of_extractMos (hfield (by decide)) _)
  | decStatus => exact decodeSingle_listed h (by decide) (.of_extractStatus (hfield (by decide)) _)
  | decBal => exact execDecBal_listed h
  | decCellv => exact reassemble_listed h (by decide) (by decide) fun _ _ => .of_cellVoltageAt _
  | decCellt => exact reassemble_listed h (by decide) (by decide) fun _ _ => .of_cellTemperatureAt (hfield (by decide)) _
  | cksum => exact execCksum_listed h
  | vlen => exact execVlen_listed h
  | vcks => exact execVcks_listed h
  | parse => exact execParse_listed h

end Sys2Proof.Machine
end

section
/-! PROOFS. Reset (70_reset_and_hazards.md): what a reset writes, and an operation it cuts. -/

namespace Sys2Proof.Machine

/-- A step on an operation cut by a reset, whoever presents it (70_reset_and_hazards.md R138). -/
theorem step_presentCut {s : State} {r : OperandRecord} {rest : List PortMove}
    (h : s.moves = .presentCut r :: rest ∨ (s.moves = .host (.presentCut r) :: rest ∧ HostDuty s.host r)) :
    step s = stepCut s r rest := by
  rcases h with hm | ⟨hm, hd⟩
  · exact step_of_presentCut hm
  · obtain ⟨-, hcut⟩ := stepHost_of_duty rest hd
    exact (step_of_host hm).trans hcut

/-- The cleared record holds no value (10_state.md R25). -/
@[simp] theorem absent_has (f : ResultField) : ResultRecord.absent.has f = false := by
  cases f with
  | status | info | tx | size | sum | fields | value => rfl

/-- Settles O10: a reset and an operation it cuts both clear the result port (`step_of_assertReset`, `stepCut_of_le`), and
the cleared record is absent field by field. -/
theorem resetLeavesResultAbsent : Obligations.ResetLeavesResultAbsent := by
  refine ⟨fun s rest hm => ?_, fun s r rest hm hl => ?_, absent_has⟩
  · exact step_of_assertReset hm
  · exact (step_presentCut hm).trans (stepCut_of_le rest hl)

end Sys2Proof.Machine
end
